-- ==== Sys2Proof/Word.lean ====
section
/-! DEFINITION. The plain word types of the core: bytes of IN and WIN, and the 32-bit registers. -/

namespace Sys2Proof

/-- One byte of IN, of WIN or of a chunk (20_memory.md R70). -/
abbrev Byte := BitVec 8

/-- A 32-bit register of the repeated-offset cache, or the translation size (10_state.md R44, R56). -/
abbrev U32 := BitVec 32

/-- A 24-bit block length (10_state.md R55). -/
abbrev U24 := BitVec 24

end Sys2Proof
end

