-- ==== Sys2Proof/Config.lean ====
section
/-! DEFINITION. What is fixed for a session (10_state.md R40): the operands of NEW. What is fixed for an
implementation: the fault codes it reports (93_implementation_defined.md I2). The kinds of fault. -/

namespace Sys2Proof

/-- The nine kinds of fault of 60_exceptions.md R370. -/
inductive FaultKind where
  | inputExhausted | invalidCode | invalidBlockType | invalidOffset | invalidLength
  | blockOverrun | chunkOverrun | emptyBlock | invalidConfig
  deriving DecidableEq, Repr

/-- REP2_POLICY (00_scope.md R23). `other` is a value outside the two settings, which a host can pass and
NEW answers with InvalidConfig (45_chunk_driver.md R341). -/
inductive Rep2Policy where
  | rotate | swap | other
  deriving DecidableEq, Repr

/-- The parameters of NEW: 00_scope.md R18, R19, R21 to R28 and the NSLOTS table of 43_window.md R241, whose
entry i belongs to WINDOW_CODE i. -/
structure Params where
  numLengthSymbols : Nat
  alignedLenBits : Nat
  chunkSize : Nat
  pt17Bits : Nat
  rep2Policy : Rep2Policy
  mainTreeParts : Nat
  uncompPad16IfAligned : Bool
  uncompAlign32 : Bool
  preambleE8 : Bool
  chunkRealign : Bool
  extLen : Bool
  nslotsTable : List Nat
  deriving DecidableEq, Repr

/-- The configuration of a session (10_state.md R40): WINDOW_CODE, IN (with L its length) and the parameters. -/
structure Config where
  windowCode : Nat
  input : List Byte
  params : Params
  deriving DecidableEq, Repr

/-- The codes an implementation reports for the three faults this spec adds: each its own code, or one of
the source's five kinds (60_exceptions.md R370, 93_implementation_defined.md I2). -/
structure Impl where
  blockOverrunAs : FaultKind
  chunkOverrunAs : FaultKind
  emptyBlockAs : FaultKind
  deriving DecidableEq, Repr

end Sys2Proof
end

