-- ==== Sys2Proof/Machine/Geometry.lean ====
section
/-! DEFINITION. Constants, parameter defaults and validity, the Window Size Table and the slot geometry
(00_scope.md R14 to R29, 43_window.md R240 to R244, 45_chunk_driver.md R341). -/

namespace Sys2Proof

/-- NUM_CHARS (00_scope.md R14). -/
def numChars : Nat := 256

/-- PRETREE_SYMBOLS (00_scope.md R15). -/
def pretreeSymbols : Nat := 20

/-- PRETREE_LEN_BITS (00_scope.md R15). -/
def pretreeLenBits : Nat := 4

/-- ALIGNED_SYMBOLS (00_scope.md R19). -/
def alignedSymbols : Nat := 8

/-- MAX_CODE_LEN (00_scope.md R20). -/
def maxCodeLen : Nat := 16

/-- The defaults of 00_scope.md R18 to R28 and the NSLOTS column of 43_window.md R241. -/
def Params.defaults : Params where
  numLengthSymbols := 249
  alignedLenBits := 3
  chunkSize := 32768
  pt17Bits := 3
  rep2Policy := .rotate
  mainTreeParts := 2
  uncompPad16IfAligned := false
  uncompAlign32 := true
  preambleE8 := true
  chunkRealign := true
  extLen := false
  nslotsTable := [30, 32, 34, 36, 38, 42, 50]

/-- The parameter values NEW accepts (45_chunk_driver.md R341). -/
def Params.valid (p : Params) : Bool :=
  p.chunkSize != 0 && (p.pt17Bits == 3 || p.pt17Bits == 4) && p.rep2Policy != .other
    && (p.mainTreeParts == 1 || p.mainTreeParts == 2) && p.numLengthSymbols != 0
    && (1 ≤ p.alignedLenBits && p.alignedLenBits ≤ 4)

/-- The window codes and parameters NEW accepts (45_chunk_driver.md R341). -/
def Config.valid (g : Config) : Bool :=
  decide (g.windowCode ≤ 6) && g.params.valid

/-- W, the window capacity (00_scope.md R16). -/
def Config.capacity (g : Config) : Nat := 2 ^ (15 + g.windowCode)

/-- NSLOTS(W) (00_scope.md R17, 43_window.md R241). -/
def Config.nslots (g : Config) : Nat := g.params.nslotsTable.getD g.windowCode 0

/-- NMAIN (00_scope.md R17). -/
def Config.nmain (g : Config) : Nat := numChars + 8 * g.nslots

/-- L, the input length in bytes (00_scope.md R29). -/
def Config.len (g : Config) : Nat := g.input.length

/-- AVAIL, the number of bits the bit reader can see (00_scope.md R29). -/
def Config.avail (g : Config) : Nat := 16 * (g.len / 2)

/-- FOOTER_BITS (43_window.md R242, for slots 0 to 49). DESIGN CHOICE, unsafe: slots 50 and up, which only a host's NSLOTS
table reaches, follow the same formula and have 17 bits (log entry 27). -/
def footerBits (slot : Nat) : Nat :=
  if slot < 4 then 0 else min ((slot - 2) / 2) 17

/-- BASE (43_window.md R243). For slots above 50 it rests on the footer bits of log entry 27. -/
def slotBase : Nat → Nat
  | 0 => 0
  | s + 1 => slotBase s + 2 ^ footerBits s

end Sys2Proof
end

