-- ==== Sys2Proof/Machine/Reader.lean ====
section
/-! DEFINITION. The input memory, its words and bits, and the Bitstream Reader (20_memory.md R71 to R75,
40_bitstream_reader.md R140 to R150). Every reader takes the bit cursor and answers the value with the new cursor. -/

namespace Sys2Proof

/-- Why a read of the stream gives no value. `fault`: the fault of 60_exceptions.md R370. `unaligned`: a raw
read at a cursor that is no multiple of 8, which the spec has a model refuse (20_memory.md R79). `absent`: a decode
from a tree that has not been built, which the spec has a model refuse (41_huffman.md R177). -/
inductive ReadStop where
  | fault (k : FaultKind)
  | unaligned
  | absent
  deriving DecidableEq, Repr

/-- `roundup(x, m)` (00_scope.md R30). -/
def roundup (x m : Nat) : Nat := (x + m - 1) / m * m

/-- IN[a], read as 0 past the end; every caller has checked a < L. -/
def Config.byteAt (g : Config) (a : Nat) : Byte := g.input.getD a 0

/-- WORD(w) (20_memory.md R71): the first byte is the low byte. -/
def Config.word (g : Config) (w : Nat) : Nat :=
  (g.byteAt (2 * w)).toNat + 256 * (g.byteAt (2 * w + 1)).toNat

/-- BIT(k) (20_memory.md R73): the most-significant bit of a word comes first. -/
def Config.bit (g : Config) (k : Nat) : Bool := (g.word (k / 16)).testBit (15 - k % 16)

/-- The stream bits pos .. pos + n - 1 as one number, the first bit highest (40_bitstream_reader.md R142). -/
def Config.gather (g : Config) (pos : Nat) : Nat → Nat
  | 0 => 0
  | n + 1 => 2 * g.gather pos n + (g.bit (pos + n)).toNat

/-- ReadBits(n), 1 ≤ n ≤ 16 (40_bitstream_reader.md R142). -/
def readBits (g : Config) (pos n : Nat) : Except ReadStop (Nat × Nat) :=
  if g.avail < pos + n then .error (.fault .inputExhausted) else .ok (g.gather pos n, pos + n)

/-- ReadField(n), 0 ≤ n ≤ 32: reads of at most 16 bits, high part first (40_bitstream_reader.md R144). -/
def readField (g : Config) (pos n : Nat) : Except ReadStop (Nat × Nat) :=
  if n = 0 then .ok (0, pos)
  else if g.avail < pos + n then .error (.fault .inputExhausted)
  else if 16 < n then do
    let (hi, mid) ← readBits g pos 16
    let (lo, stop) ← readBits g mid (n - 16)
    return (hi * 2 ^ (n - 16) + lo, stop)
  else readBits g pos n

/-- PeekBits(n), 1 ≤ n ≤ 16: the value, nothing consumed (40_bitstream_reader.md R145). -/
def peekBits (g : Config) (pos n : Nat) : Except ReadStop Nat :=
  if g.avail < pos + n then .error (.fault .inputExhausted) else .ok (g.gather pos n)

/-- AlignWord (40_bitstream_reader.md R146). -/
def alignWord (pos : Nat) : Nat := roundup pos 16

/-- Align32 (40_bitstream_reader.md R147). -/
def align32 (pos : Nat) : Nat := roundup pos 32

/-- The next word boundary, or the end of the input if that is nearer (44_block.md R334, 45_chunk_driver.md R348). -/
def clampWord (g : Config) (pos : Nat) : Nat := min (roundup pos 16) (8 * g.len)

/-- ReadRawByte (40_bitstream_reader.md R148). -/
def readRawByte (g : Config) (pos : Nat) : Except ReadStop (Byte × Nat) :=
  if pos % 8 ≠ 0 then .error .unaligned
  else if g.len ≤ pos / 8 then .error (.fault .inputExhausted)
  else .ok (g.byteAt (pos / 8), pos + 8)

/-- ReadU32LE (40_bitstream_reader.md R149): four raw bytes, the first lowest. -/
def readU32LE (g : Config) (pos : Nat) : Except ReadStop (U32 × Nat) := do
  let (b0, p0) ← readRawByte g pos
  let (b1, p1) ← readRawByte g p0
  let (b2, p2) ← readRawByte g p1
  let (b3, p3) ← readRawByte g p2
  return (b3 ++ b2 ++ b1 ++ b0, p3)

/-- MemRead(addr, n), n in 1 or 4 (20_memory.md R72): Σ IN[addr + k] × 256^k. -/
def memRead (g : Config) (addr n : Nat) : Except ReadStop Nat :=
  if g.len < addr + n then .error (.fault .inputExhausted)
  else .ok ((List.range n).map fun k => (g.byteAt (addr + k)).toNat * 256 ^ k).sum

/-- InputDone (40_bitstream_reader.md R150). -/
def inputDone (g : Config) (pos : Nat) : Bool := decide (g.avail ≤ roundup pos 16)

/-- The fields of a fixed format: n reads of w bits each (30_encoding.md R105, R106). -/
def readRun (g : Config) (w : Nat) : Nat → Nat → Except ReadStop (List Nat × Nat)
  | pos, 0 => .ok ([], pos)
  | pos, n + 1 => do
    let (v, p) ← readBits g pos w
    let (vs, q) ← readRun g w p n
    return (v :: vs, q)

end Sys2Proof
end

