-- ==== Sys2Proof/Machine/Huffman.lean ====
section
/-! DEFINITION. Canonical Huffman trees: Build and Decode (41_huffman.md R170 to R179). -/

namespace Sys2Proof

/-- One assigned code: its length, its value (most-significant bit first in the stream) and its symbol
(41_huffman.md R173, R174). -/
structure Code where
  len : Nat
  code : Nat
  sym : Nat
  deriving DecidableEq, Repr

/-- A built tree: CODES in increasing symbol order, and LMAX (41_huffman.md R173). -/
structure Tree where
  codes : List Code
  lmax : Nat
  deriving DecidableEq, Repr

/-- K(len), the Kraft sum scaled by 2^16 (41_huffman.md R171). -/
def kraft (lens : List Nat) : Nat :=
  (lens.map fun l => if l = 0 then 0 else 2 ^ (16 - l)).sum

/-- `next[l]` before any symbol is assigned: the first code of length l (41_huffman.md R173). -/
def firstCode (lens : List Nat) : Nat → Nat
  | 0 => 0
  | 1 => 0
  | l + 1 => 2 * (firstCode lens l + lens.count l)

/-- `next[0..16]` before any symbol is assigned (41_huffman.md R173). -/
def firstCodes (lens : List Nat) : List Nat := (List.range 17).map (firstCode lens)

/-- The symbols in increasing order, each used one given `next` of its length, which then counts up
(41_huffman.md R173). -/
def assignCodes (next : List Nat) (sym : Nat) : List Nat → List Code
  | [] => []
  | l :: rest =>
    if l = 0 then assignCodes next (sym + 1) rest
    else ⟨l, next.getD l 0, sym⟩ :: assignCodes (next.set l (next.getD l 0 + 1)) (sym + 1) rest

/-- Build (41_huffman.md R172, R173, R176). -/
def buildTree (lens : List Nat) : Except FaultKind Tree :=
  if 2 ^ 16 < kraft lens then .error .invalidCode
  else .ok ⟨assignCodes (firstCodes lens) 0 lens, lens.foldl max 0⟩

/-- T.CODES[(l, c)] (41_huffman.md R178). -/
def Tree.lookup (t : Tree) (l c : Nat) : Option Nat :=
  (t.codes.find? fun e => e.len == l && e.code == c).map (·.sym)

/-- The loop of Decode: `fuel` more bits may be read after l bits of value c (41_huffman.md R178). -/
def decodeLoop (g : Config) (t : Tree) : Nat → Nat → Nat → Nat → Except ReadStop (Nat × Nat)
  | 0, _, _, _ => .error (.fault .invalidCode)
  | fuel + 1, l, c, pos => do
    let (b, p) ← readBits g pos 1
    match t.lookup (l + 1) (2 * c + b) with
    | some s => return (s, p)
    | none => decodeLoop g t fuel (l + 1) (2 * c + b) p

/-- Decode(T) (41_huffman.md R178), refusing an absent tree (41_huffman.md R177). -/
def decodeSymbol (g : Config) (tree : Option Tree) (pos : Nat) : Except ReadStop (Nat × Nat) :=
  match tree with
  | none => .error .absent
  | some t => decodeLoop g t t.lmax 0 0 pos

end Sys2Proof
end

