-- ==== Sys2Proof/Syntax.lean ====
section
/-! DEFINITION. The instructions: one constructor per row of spec/opcode_table.json (30_encoding.md R101, R114, R115). -/

namespace Sys2Proof

/-- The syntax elements of the stream and the two host commands. -/
inductive Instr where
  /-- `PREAMBLE e8=0` (44_block.md R290). -/
  | preamble0
  /-- `PREAMBLE e8=1, size=n` (44_block.md R290). -/
  | preamble1 (size : U32)
  /-- `BLOCK VERBATIM, n` (44_block.md R296, R300). -/
  | blockVerbatim (n : U24)
  /-- `BLOCK ALIGNED, n` (44_block.md R296, R305). -/
  | blockAligned (n : U24)
  /-- `BLOCK UNCOMP, n` (44_block.md R296, R330). -/
  | blockUncomp (n : U24)
  /-- A block header of type 0 (44_block.md R296). -/
  | blockInvalid0
  /-- A block header of type 4 + t (44_block.md R296). -/
  | blockInvalid4 (t : BitVec 2)
  /-- `PRETREE l0,...,l19` (42_tree_of_trees.md R201). -/
  | pretree (lens : List (BitVec 4))
  /-- `PT.DELTA s`, s in 0..16 (42_tree_of_trees.md R204). -/
  | ptDelta (s : Nat)
  /-- `PT.ZRUN4 z`, z of PT17_BITS bits (42_tree_of_trees.md R206). -/
  | ptZrun4 (z : BitVec 4)
  /-- `PT.ZRUN20 z` (42_tree_of_trees.md R207). -/
  | ptZrun20 (z : BitVec 5)
  /-- `PT.SAME z, s`, s any pretree symbol; above 16 it is illegal (42_tree_of_trees.md R208). -/
  | ptSame (z : BitVec 1) (s : Nat)
  /-- `ALTREE l0,...,l7`, each of ALIGNED_LEN_BITS bits (42_tree_of_trees.md R224). -/
  | altree (lens : List (BitVec 4))
  /-- `LIT b` (44_block.md R311). -/
  | lit (b : Byte)
  /-- `MATCH 0, lh` (43_window.md R260). -/
  | matchRep0 (lh : BitVec 3)
  /-- `MATCH 1, lh` (43_window.md R261). -/
  | matchRep1 (lh : BitVec 3)
  /-- `MATCH 2, lh` (43_window.md R262). -/
  | matchRep2 (lh : BitVec 3)
  /-- `MATCH slot, lh`, slot 3 and up (43_window.md R263). -/
  | matchNew (slot : Nat) (lh : BitVec 3)
  /-- `LEN ls` (44_block.md R313). -/
  | lenSym (ls : Nat)
  /-- The footer of a Verbatim block (44_block.md R314). -/
  | footerVerbatim (f : BitVec 17)
  /-- The literal footer bits of an AlignedOffset block (44_block.md R315). -/
  | footerHi (hi : BitVec 17)
  /-- `ALIGNED lo` (44_block.md R315). -/
  | alignedLo (lo : BitVec 3)
  /-- `EXTLEN 0, v` (44_block.md R316). -/
  | extLen0 (v : BitVec 8)
  /-- `EXTLEN 10, v` (44_block.md R316). -/
  | extLen10 (v : BitVec 10)
  /-- `EXTLEN 110, v` (44_block.md R316). -/
  | extLen110 (v : BitVec 12)
  /-- `EXTLEN 111, v` (44_block.md R316). -/
  | extLen111 (v : BitVec 15)
  /-- `UNCOMP.R r0, r1, r2` (44_block.md R331). -/
  | uncompR (r0 r1 r2 : U32)
  /-- `RAW b` (44_block.md R332). -/
  | raw (b : Byte)
  /-- `ODDPAD`, with the byte it skips (44_block.md R334). -/
  | oddPad (pad : Byte)
  /-- `NEW code, IN, params` (45_chunk_driver.md R341). -/
  | new (code : Nat) (input : List Byte) (params : Params)
  /-- `NEXT_CHUNK` (45_chunk_driver.md R345). -/
  | nextChunk
  deriving DecidableEq, Repr

end Sys2Proof
end

