-- ==== Sys2Proof/WellFormed.lean ====
section
/-! DEFINITION. Which terms of Instr are elements of a session's format (30_encoding.md R101 to R113): every field
within the values its encoding has. An element that the spec calls illegal but that has an encoding (a block of length
0, a PT.SAME value symbol above 16) is well formed: its meaning takes the fault the spec names. -/

namespace Sys2Proof

/-- The decoded symbol number of a coded element (30_encoding.md R107 to R110). -/
def Instr.symbol : Instr → Nat
  | .ptDelta s => s
  | .ptZrun4 _ => 17
  | .ptZrun20 _ => 18
  | .ptSame _ _ => 19
  | .lit b => b.toNat
  | .matchRep0 lh => 256 + lh.toNat
  | .matchRep1 lh => 264 + lh.toNat
  | .matchRep2 lh => 272 + lh.toNat
  | .matchNew slot lh => 256 + 8 * slot + lh.toNat
  | .lenSym ls => ls
  | .alignedLo lo => lo.toNat
  | _ => 0

/-- The element belongs to the format of the session. -/
def wellFormed (g : Config) (i : Instr) : Bool :=
  match i with
  | .preamble0 => g.params.preambleE8
  | .preamble1 _ => g.params.preambleE8
  | .blockVerbatim _ => true
  | .blockAligned _ => true
  | .blockUncomp _ => true
  | .blockInvalid0 => true
  | .blockInvalid4 _ => true
  | .pretree lens => lens.length == pretreeSymbols
  | .ptDelta s => decide (s ≤ 16)
  | .ptZrun4 z => decide (z.toNat < 2 ^ g.params.pt17Bits)
  | .ptZrun20 _ => true
  | .ptSame _ s => decide (s < pretreeSymbols)
  | .altree lens =>
    lens.length == alignedSymbols && lens.all fun l => decide (l.toNat < 2 ^ g.params.alignedLenBits)
  | .lit _ => true
  | .matchRep0 lh => decide (Instr.symbol (.matchRep0 lh) < g.nmain)
  | .matchRep1 lh => decide (Instr.symbol (.matchRep1 lh) < g.nmain)
  | .matchRep2 lh => decide (Instr.symbol (.matchRep2 lh) < g.nmain)
  | .matchNew slot lh => decide (3 ≤ slot) && decide (Instr.symbol (.matchNew slot lh) < g.nmain)
  | .lenSym ls => decide (ls < g.params.numLengthSymbols)
  | .footerVerbatim _ => true
  | .footerHi _ => true
  | .alignedLo _ => true
  | .extLen0 _ => g.params.extLen
  | .extLen10 _ => g.params.extLen
  | .extLen110 _ => g.params.extLen
  | .extLen111 _ => g.params.extLen
  | .uncompR _ _ _ => true
  | .raw _ => true
  | .oddPad _ => true
  | .new _ _ _ => true
  | .nextChunk => true

end Sys2Proof
end

