-- ==== Sys2Proof/Decode.lean ====
section
/-! DEFINITION. The decoder: which element stands at the bit cursor, given the element the grammar calls for
(30_encoding.md R100 to R113). After it, the encoder. -/

namespace Sys2Proof

/-- The format of the next element (30_encoding.md R101): what the grammar calls for, with the tree or the field
width that the state supplies. -/
inductive Format where
  /-- F-PRE (30_encoding.md R102). -/
  | preamble
  /-- F-HDR (30_encoding.md R103, R104). -/
  | header
  /-- F-PTL (30_encoding.md R105). -/
  | pretree
  /-- A pretree op (30_encoding.md R107). -/
  | ptOp (tree : Option Tree)
  /-- F-ALT (30_encoding.md R106). -/
  | altree
  /-- A main-tree symbol (30_encoding.md R108). -/
  | mainSym (tree : Option Tree)
  /-- A length-tree symbol (30_encoding.md R109). -/
  | lenSym (tree : Option Tree)
  /-- The literal footer of a Verbatim block, of fb bits (30_encoding.md R110). -/
  | footerV (fb : Nat)
  /-- The literal footer bits of an AlignedOffset block for FOOTER_BITS fb (30_encoding.md R110). -/
  | footerA (fb : Nat)
  /-- An aligned-offset-tree symbol (30_encoding.md R110). -/
  | alignedLo (tree : Option Tree)
  /-- An extended length (44_block.md R316). -/
  | extLen
  /-- The three raw R values (44_block.md R331). -/
  | uncompR
  /-- One raw byte (44_block.md R332). -/
  | raw
  /-- The pad byte after an odd raw region (44_block.md R334). -/
  | oddPad
  deriving DecidableEq, Repr

/-- The element of a main-tree symbol (30_encoding.md R108). -/
def mainElement (s : Nat) : Instr :=
  if s < 256 then .lit (BitVec.ofNat 8 s)
  else
    let lh := BitVec.ofNat 3 ((s - 256) % 8)
    match (s - 256) / 8 with
    | 0 => .matchRep0 lh
    | 1 => .matchRep1 lh
    | 2 => .matchRep2 lh
    | slot => .matchNew slot lh

/-- How many literal bits the footer of an AlignedOffset block has (44_block.md R315). -/
def literalFooterBits (fb : Nat) : Nat := if 3 ≤ fb then fb - 3 else fb

/-- F-PRE (44_block.md R290). -/
def decodePreamble (g : Config) (pos : Nat) : Except ReadStop (Instr × Nat) := do
  let (flag, p) ← readBits g pos 1
  if flag = 0 then return (.preamble0, p)
  else
    let (n, q) ← readField g p 32
    return (.preamble1 (BitVec.ofNat 32 n), q)

/-- F-HDR (44_block.md R296): the length is read only when the type is valid. -/
def decodeHeader (g : Config) (pos : Nat) : Except ReadStop (Instr × Nat) := do
  let (t, p) ← readBits g pos 3
  if t = 0 then return (.blockInvalid0, p)
  else if 4 ≤ t then return (.blockInvalid4 (BitVec.ofNat 2 (t - 4)), p)
  else
    let (n, q) ← readField g p 24
    let len := BitVec.ofNat 24 n
    return (if t = 1 then .blockVerbatim len else if t = 2 then .blockAligned len else .blockUncomp len, q)

/-- A pretree op (30_encoding.md R107; 42_tree_of_trees.md R202 to R208). -/
def decodePtOp (g : Config) (tree : Option Tree) (pos : Nat) : Except ReadStop (Instr × Nat) := do
  let (s, p) ← decodeSymbol g tree pos
  if s ≤ 16 then return (.ptDelta s, p)
  else if s = 17 then
    let (z, q) ← readBits g p g.params.pt17Bits
    return (.ptZrun4 (BitVec.ofNat 4 z), q)
  else if s = 18 then
    let (z, q) ← readBits g p 5
    return (.ptZrun20 (BitVec.ofNat 5 z), q)
  else
    let (z, q) ← readBits g p 1
    let (v, r) ← decodeSymbol g tree q
    return (.ptSame (BitVec.ofNat 1 z) v, r)

/-- The prefix and the field of an extended length (44_block.md R316). -/
def decodeExtLen (g : Config) (pos : Nat) : Except ReadStop (Instr × Nat) := do
  let (b0, p0) ← readBits g pos 1
  if b0 = 0 then
    let (v, q) ← readBits g p0 8
    return (.extLen0 (BitVec.ofNat 8 v), q)
  else
    let (b1, p1) ← readBits g p0 1
    if b1 = 0 then
      let (v, q) ← readBits g p1 10
      return (.extLen10 (BitVec.ofNat 10 v), q)
    else
      let (b2, p2) ← readBits g p1 1
      if b2 = 0 then
        let (v, q) ← readBits g p2 12
        return (.extLen110 (BitVec.ofNat 12 v), q)
      else
        let (v, q) ← readBits g p2 15
        return (.extLen111 (BitVec.ofNat 15 v), q)

/-- The three raw R values (44_block.md R331). -/
def decodeUncompR (g : Config) (pos : Nat) : Except ReadStop (Instr × Nat) := do
  let (r0, p) ← readU32LE g pos
  let (r1, q) ← readU32LE g p
  let (r2, r) ← readU32LE g q
  return (.uncompR r0 r1 r2, r)

/-- The element of the given format at bit pos, with the bit after it; or why there is none. -/
def decode (g : Config) (fmt : Format) (pos : Nat) : Except ReadStop (Instr × Nat) :=
  match fmt with
  | .preamble => decodePreamble g pos
  | .header => decodeHeader g pos
  | .pretree => do
    let (ls, p) ← readRun g pretreeLenBits pos pretreeSymbols
    return (.pretree (ls.map (BitVec.ofNat 4)), p)
  | .ptOp tree => decodePtOp g tree pos
  | .altree => do
    let (ls, p) ← readRun g g.params.alignedLenBits pos alignedSymbols
    return (.altree (ls.map (BitVec.ofNat 4)), p)
  | .mainSym tree => do
    let (s, p) ← decodeSymbol g tree pos
    return (mainElement s, p)
  | .lenSym tree => do
    let (s, p) ← decodeSymbol g tree pos
    return (.lenSym s, p)
  | .footerV fb => do
    let (f, p) ← readField g pos fb
    return (.footerVerbatim (BitVec.ofNat 17 f), p)
  | .footerA fb => do
    let (f, p) ← readField g pos (literalFooterBits fb)
    return (.footerHi (BitVec.ofNat 17 f), p)
  | .alignedLo tree => do
    let (s, p) ← decodeSymbol g tree pos
    return (.alignedLo (BitVec.ofNat 3 s), p)
  | .extLen => decodeExtLen g pos
  | .uncompR => decodeUncompR g pos
  | .raw => do
    let (b, p) ← readRawByte g pos
    return (.raw b, p)
  | .oddPad => do
    let (b, p) ← readRawByte g pos
    return (.oddPad b, p)

/-! ## The encoder -/

/-- What an element is written as: stream bits in stream order, or raw bytes in address order
(30_encoding.md R100). -/
inductive Encoding where
  | bits (bs : List Bool)
  | bytes (bs : List Byte)
  deriving DecidableEq, Repr

/-- How far an encoding moves the bit cursor. -/
def Encoding.size : Encoding → Nat
  | .bits bs => bs.length
  | .bytes bs => 8 * bs.length

/-- The n low bits of v, most-significant bit first (30_encoding.md R100). -/
def fieldBits (v : Nat) : Nat → List Bool
  | 0 => []
  | n + 1 => v.testBit n :: fieldBits v n

/-- The four bytes of a raw 32-bit value, lowest first (20_memory.md R72). -/
def u32Bytes (v : U32) : List Byte :=
  [v.extractLsb' 0 8, v.extractLsb' 8 8, v.extractLsb' 16 8, v.extractLsb' 24 8]

/-- The bits of a symbol's code, most-significant bit first (41_huffman.md R174); none for a symbol without one. -/
def Tree.codeBits (t : Tree) (sym : Nat) : Option (List Bool) :=
  (t.codes.find? fun e => e.sym == sym).map fun e => fieldBits e.code e.len

/-- The bits of a coded symbol followed by the element's fields. -/
def codedBits (tree : Option Tree) (sym : Nat) (fields : List Bool) : Option Encoding :=
  match tree with
  | none => none
  | some t => (t.codeBits sym).map fun bs => .bits (bs ++ fields)

/-- How an element is written in the place of the given format; none where it cannot stand there. -/
def encode (g : Config) (fmt : Format) (i : Instr) : Option Encoding :=
  match fmt, i with
  | .preamble, .preamble0 => some (.bits [false])
  | .preamble, .preamble1 n => some (.bits (true :: fieldBits n.toNat 32))
  | .header, .blockVerbatim n => some (.bits (fieldBits 1 3 ++ fieldBits n.toNat 24))
  | .header, .blockAligned n => some (.bits (fieldBits 2 3 ++ fieldBits n.toNat 24))
  | .header, .blockUncomp n => some (.bits (fieldBits 3 3 ++ fieldBits n.toNat 24))
  | .header, .blockInvalid0 => some (.bits (fieldBits 0 3))
  | .header, .blockInvalid4 t => some (.bits (fieldBits (4 + t.toNat) 3))
  | .pretree, .pretree ls => some (.bits (ls.flatMap fun l => fieldBits l.toNat pretreeLenBits))
  | .ptOp tree, .ptDelta s => codedBits tree s []
  | .ptOp tree, .ptZrun4 z => codedBits tree 17 (fieldBits z.toNat g.params.pt17Bits)
  | .ptOp tree, .ptZrun20 z => codedBits tree 18 (fieldBits z.toNat 5)
  | .ptOp tree, .ptSame z s =>
    match tree with
    | none => none
    | some t => (t.codeBits s).bind fun bs => codedBits tree 19 (fieldBits z.toNat 1 ++ bs)
  | .altree, .altree ls => some (.bits (ls.flatMap fun l => fieldBits l.toNat g.params.alignedLenBits))
  | .mainSym tree, .lit b => codedBits tree (Instr.symbol (.lit b)) []
  | .mainSym tree, .matchRep0 lh => codedBits tree (Instr.symbol (.matchRep0 lh)) []
  | .mainSym tree, .matchRep1 lh => codedBits tree (Instr.symbol (.matchRep1 lh)) []
  | .mainSym tree, .matchRep2 lh => codedBits tree (Instr.symbol (.matchRep2 lh)) []
  | .mainSym tree, .matchNew slot lh => codedBits tree (Instr.symbol (.matchNew slot lh)) []
  | .lenSym tree, .lenSym ls => codedBits tree ls []
  | .footerV fb, .footerVerbatim f =>
    if f.toNat < 2 ^ fb then some (.bits (fieldBits f.toNat fb)) else none
  | .footerA fb, .footerHi hi =>
    if hi.toNat < 2 ^ literalFooterBits fb then some (.bits (fieldBits hi.toNat (literalFooterBits fb))) else none
  | .alignedLo tree, .alignedLo lo => codedBits tree lo.toNat []
  | .extLen, .extLen0 v => some (.bits (false :: fieldBits v.toNat 8))
  | .extLen, .extLen10 v => some (.bits (true :: false :: fieldBits v.toNat 10))
  | .extLen, .extLen110 v => some (.bits (true :: true :: false :: fieldBits v.toNat 12))
  | .extLen, .extLen111 v => some (.bits (true :: true :: true :: fieldBits v.toNat 15))
  | .uncompR, .uncompR r0 r1 r2 => some (.bytes (u32Bytes r0 ++ u32Bytes r1 ++ u32Bytes r2))
  | .raw, .raw b => some (.bytes [b])
  | .oddPad, .oddPad b => some (.bytes [b])
  | _, _ => none

/-- The encoding stands at bit pos of the input: as bits the bit reader sees, or as bytes at a byte address. -/
def Encoding.standsAt (g : Config) (pos : Nat) : Encoding → Prop
  | .bits bs => ∀ k, (h : k < bs.length) → pos + k < g.avail ∧ g.bit (pos + k) = bs[k]
  | .bytes bs => pos % 8 = 0 ∧ pos / 8 + bs.length ≤ g.len
      ∧ ∀ k, (h : k < bs.length) → g.byteAt (pos / 8 + k) = bs[k]

/-- A tree that Build made of an array of n code lengths in 0..16 (41_huffman.md R170). -/
def treeOver (n : Nat) (tree : Option Tree) : Prop :=
  ∃ lens t, lens.length = n ∧ (∀ l ∈ lens, l ≤ maxCodeLen) ∧ buildTree lens = .ok t ∧ tree = some t

/-- The format belongs to the session: its element exists under the parameters, its tree is built over its alphabet
(30_encoding.md R101 to R110), and its footer has at most 17 bits (43_window.md R242). -/
def Format.fits (g : Config) : Format → Prop
  | .preamble => g.params.preambleE8 = true
  | .header => True
  | .pretree => True
  | .ptOp tree => treeOver pretreeSymbols tree
  | .altree => True
  | .mainSym tree => treeOver g.nmain tree
  | .lenSym tree => treeOver g.params.numLengthSymbols tree
  | .footerV fb => fb ≤ 17
  | .footerA fb => fb ≤ 17
  | .alignedLo tree => treeOver alignedSymbols tree
  | .extLen => g.params.extLen = true
  | .uncompR => True
  | .raw => True
  | .oddPad => True

/-! ## Words of the opcode table -/

/-- The tree in which symbol s has the n-bit code s, for every s < count ≤ 2^n: what Build makes of count lengths n. -/
def uniformTree (n count : Nat) : Option Tree := some ⟨(List.range count).map fun s => ⟨n, s, s⟩, n⟩

/-- The format a word of spec/opcode_table.json belongs to. The table numbers a row by a field value or a decoded
symbol (30_encoding.md R115), and the same number stands in several formats: this choice of one (log entry 5) takes
16-bit words as main-tree symbols, 17 to 19 as pretree symbols, 6 and 7 as extended-length prefixes, 0 as the preamble
flag and the other bytes as block types; longer words by their width. -/
def tableFormat (nbits w : Nat) : Format :=
  if nbits = 16 then .mainSym (uniformTree 10 656)
  else if nbits = 24 then .altree
  else if nbits = 80 then .pretree
  else if nbits = 96 then .uncompR
  else if w % 32 = 17 ∨ w % 32 = 18 ∨ w % 32 = 19 then .ptOp (uniformTree 5 20)
  else if w = 6 ∨ w = 7 then .extLen
  else if w = 0 then .preamble
  else .header

/-- The stream bits of a table word in its format: its fields in stream order, each most-significant bit first. -/
def tableBits (nbits w : Nat) : List Bool :=
  match tableFormat nbits w with
  | .mainSym _ => fieldBits (w % 1024) 10
  | .ptOp _ => fieldBits (w % 32) 5 ++ fieldBits (w / 32) 3
  | .extLen => fieldBits (w % 8) 3
  | .preamble => fieldBits (w % 2) 1 ++ fieldBits (w / 2) 32
  | .header => fieldBits (w % 8) 3 ++ fieldBits (w / 8) 24
  | _ => []

/-- Bits laid out as the hardware stores them: 16-bit words, the first bit highest, low byte first
(20_memory.md R71, R73); `fuel` words, zeros after the last bit. -/
def packWords : Nat → List Bool → List Byte
  | 0, _ => []
  | fuel + 1, bs =>
    let word := (List.range 16).foldl (fun v k => 2 * v + (bs.getD k false).toNat) 0
    BitVec.ofNat 8 word :: BitVec.ofNat 8 (word / 256) :: packWords fuel (bs.drop 16)

/-- Sixteen input bytes that hold a table word at bit 0: longer than any element with operand words of zeros. -/
def tableInput (nbits w : Nat) : List Byte :=
  match tableFormat nbits w with
  | .altree => packWords 8 ((List.range 8).flatMap fun i => fieldBits (w / 8 ^ i % 8) 3)
  | .pretree => packWords 8 ((List.range 20).flatMap fun i => fieldBits (w / 16 ^ i % 16) 4)
  | .uncompR => (List.range 16).map fun i => BitVec.ofNat 8 (w / 256 ^ i)
  | _ => packWords 8 (tableBits nbits w)

/-- The parameters a table word is read under: the defaults, with extended lengths on for an extended length. -/
def tableParams (nbits w : Nat) : Params :=
  match tableFormat nbits w with
  | .extLen => { Params.defaults with extLen := true }
  | _ => Params.defaults

/-- The instruction the decoder reads from a table word laid out at bit 0; no bits at all stand for the host's
NEXT_CHUNK. -/
def decodeTableWord (nbits w : Nat) : Option Instr :=
  if nbits = 0 then some .nextChunk
  else
    match decode ⟨0, tableInput nbits w, tableParams nbits w⟩ (tableFormat nbits w) 0 with
    | .ok (i, _) => some i
    | .error _ => none

end Sys2Proof
end

