-- ==== Sys2Proof/Machine/State.lean ====
section
/-! DEFINITION. The state of the core as plain data (10_state.md R40 to R62), the stops of the model, and the state
right after reset. -/

namespace Sys2Proof.Machine

/-- STATE, the block machine's state (10_state.md R54). -/
inductive BlockState where
  | preamble | await | verbatim | aligned | uncomp | terminal
  deriving DecidableEq, Repr

/-- A range of a persistent length array that one ReadLengths fills (42_tree_of_trees.md R202, R220, R222):
MAIN_LEN whole, its literal part, its match part, or LEN_LEN. -/
inductive Target where
  | mainWhole | mainLiterals | mainMatches | lengths
  deriving DecidableEq, Repr

/-- The element the grammar calls for next (30_encoding.md R101), with the pseudocode's locals: the range being filled
and the running index of ReadLengths (42_tree_of_trees.md R202); the slot, length, high footer bits and footer of a main
item (44_block.md R310). -/
inductive Phase where
  | preamble
  | header
  | altree
  | pretree (t : Target)
  | ptOp (t : Target) (i : Nat)
  | uncompR
  | mainSym
  | lenSym (slot : Nat)
  | footerV (slot n : Nat)
  | footerA (slot n : Nat)
  | alignedLo (slot n hi : Nat)
  | extLen (slot n f : Nat)
  | raw
  | oddPad
  deriving DecidableEq, Repr

/-- The registers and memories of 10_state.md R62. An unlisted cell of `win` is `unwritten` (R46). `fault` is FAULT:
`none` is code 0 (R57). A tree of `none` is `absent` (R53). -/
structure Regs where
  /-- BITPOS (R41). -/
  bitpos : Nat
  /-- R0 (R44). -/
  r0 : U32
  /-- R1 (R44). -/
  r1 : U32
  /-- R2 (R44). -/
  r2 : U32
  /-- WIN (R46). -/
  win : List Host.Cell
  /-- WPOS (R47). -/
  wpos : Nat
  /-- PRODUCED (R48). -/
  produced : Nat
  /-- MAIN_LEN (R49). -/
  mainLen : List Nat
  /-- LEN_LEN (R50). -/
  lenLen : List Nat
  /-- AL_LEN (R51). -/
  alLen : List Nat
  /-- PT_LEN (R52). -/
  ptLen : List Nat
  /-- MAIN_TREE (R53). -/
  mainTree : Option Tree
  /-- LENGTH_TREE (R53). -/
  lengthTree : Option Tree
  /-- ALIGNED_TREE (R53). -/
  alignedTree : Option Tree
  /-- PRETREE (R53). -/
  preTree : Option Tree
  /-- STATE (R54). -/
  state : BlockState
  /-- BTYPE (R55). -/
  btype : BitVec 3
  /-- BLOCK_LEN (R55). -/
  blockLen : U24
  /-- REMAINING (R55). -/
  remaining : U24
  /-- E8_FLAG (R56). -/
  e8Flag : Bool
  /-- E8_SIZE (R56). -/
  e8Size : U32
  /-- FAULT (R57). -/
  fault : Option FaultKind
  /-- CHUNK_FILL (R58). -/
  chunkFill : Nat
  /-- CHUNK_BUF (R58). -/
  chunkBuf : List Byte
  deriving DecidableEq, Repr

/-- A Step in progress: the working copy of the registers, which a fault discards (60_exceptions.md R372), and the
element that comes next. -/
structure Work where
  regs : Regs
  phase : Phase
  deriving DecidableEq, Repr

/-- What NEXT_CHUNK hands back (45_chunk_driver.md R346). -/
inductive Result where
  | chunk (bytes : List Byte)
  | none
  | error (k : FaultKind)
  deriving DecidableEq, Repr

/-- The host's commands (45_chunk_driver.md R340). -/
inductive Command where
  | new (code : Nat) (input : List Byte) (params : Params)
  | nextChunk
  deriving DecidableEq, Repr

/-- The model's own stops. The faults of the spec are no stops: the core takes them as its next state
(60_exceptions.md R372). -/
inductive Fault where
  /-- Raised by the fetch between commands when the host has issued none: the core makes no step of its own
  (70_reset_and_hazards.md R441). Safe. -/
  | noCommand
  /-- Raised by the fetch for a NEXT_CHUNK in progress with STATE = TERMINAL or FAULT ≠ 0, where no step is defined
  (45_chunk_driver.md R343); no run reaches it. Safe. -/
  | noStep
  deriving DecidableEq, Repr

/-- Why an instruction has no meaning in a state. -/
inductive Refusal where
  /-- Raised by exec's arm of an instruction that has no meaning yet. Safe. -/
  | notModelled (mnemonic : String)
  /-- Raised by the meaning of an element in a state whose grammar does not call for it, and of a NEXT_CHUNK while
  one is in progress; the fetch never gives exec such an element. Safe. -/
  | notExpected
  /-- Raised by the fetch for a raw read at a cursor that is no multiple of 8, which 20_memory.md R79 has a model refuse;
  no run reaches it. Safe. -/
  | rawReadUnaligned
  /-- Raised by the fetch for a decode from a tree that has not been built, which 41_huffman.md R177 has a model refuse;
  no run reaches it. Safe. -/
  | treeAbsent
  deriving DecidableEq, Repr

/-- The machine: the session's configuration and the implementation's codes, the registers as the host sees them, the
Step in progress, and the command interface. -/
structure State where
  /-- The configuration NEW fixed (10_state.md R40). -/
  cfg : Config
  /-- The fault codes the implementation reports (93_implementation_defined.md I2). -/
  impl : Impl
  /-- The registers after the last completed Step. -/
  regs : Regs
  /-- The Step in progress, none at a Step boundary. -/
  work : Option Work
  /-- A NEXT_CHUNK is in progress (45_chunk_driver.md R345). -/
  running : Bool
  /-- What NEXT_CHUNK has handed back since NEW, oldest first (45_chunk_driver.md R346). -/
  results : List Result
  /-- The host's commands not yet taken, oldest first: the model's own field. -/
  port : List Command
  deriving DecidableEq, Repr

/-- The machine after NEW of window code 0, an empty input and the default parameters: every register at its value of
10_state.md R62 (MAIN_LEN has NMAIN = 496 entries and LEN_LEN 249). -/
def State.reset : State where
  cfg := ⟨0, [], Params.defaults⟩
  impl := ⟨.blockOverrun, .chunkOverrun, .emptyBlock⟩
  regs := {
    bitpos := 0
    r0 := 1
    r1 := 1
    r2 := 1
    win := []
    wpos := 0
    produced := 0
    mainLen := List.replicate 496 0
    lenLen := List.replicate 249 0
    alLen := List.replicate 8 0
    ptLen := List.replicate 20 0
    mainTree := none
    lengthTree := none
    alignedTree := none
    preTree := none
    state := .preamble
    btype := 0
    blockLen := 0
    remaining := 0
    e8Flag := false
    e8Size := 0
    fault := none
    chunkFill := 0
    chunkBuf := [] }
  work := none
  running := false
  results := []
  port := []

end Sys2Proof.Machine
end

