-- ==== Sys2Proof/Machine/Ops.lean ====
section
/-! DEFINITION. The named operations over the window, the registers and the command interface; the end of a Step, and
taking a fault. -/

namespace Sys2Proof.Machine

/-! ## The window memory -/

/-- The canonical form of the window: indices strictly rising (an unlisted index is `unwritten`). -/
def Memory.wf : List Host.Cell → Bool
  | [] => true
  | [_] => true
  | a :: b :: rest => decide (a.1 < b.1) && Memory.wf (b :: rest)

/-- The content of WIN[i], none for `unwritten` (20_memory.md R76). -/
def winRead : List Host.Cell → Nat → Option Byte
  | [], _ => none
  | (j, b) :: rest, i => if j = i then some b else winRead rest i

/-- WinWrite(i, b) (20_memory.md R77). -/
def winWrite : List Host.Cell → Nat → Byte → List Host.Cell
  | [], i, b => [(i, b)]
  | (j, x) :: rest, i, b =>
    if i < j then (i, b) :: (j, x) :: rest
    else if i = j then (i, b) :: rest
    else (j, x) :: winWrite rest i b

/-- The index at distance d behind the write cursor, 1 ≤ d ≤ W (20_memory.md R78). -/
def behind (g : Config) (wpos d : Nat) : Nat := (wpos + g.capacity - d) % g.capacity

/-- HIST = min(PRODUCED, W) (10_state.md R48). -/
def Regs.hist (g : Config) (c : Regs) : Nat := min c.produced g.capacity

/-- EmitByte(b) (43_window.md R250). -/
def emitByte (g : Config) (c : Regs) (b : Byte) : Regs :=
  { c with
    win := winWrite c.win c.wpos b
    wpos := (c.wpos + 1) % g.capacity
    produced := c.produced + 1
    remaining := c.remaining - 1
    chunkBuf := c.chunkBuf ++ [b]
    chunkFill := c.chunkFill + 1 }

/-! ## Registers -/

/-- The registers with the bit cursor at p (10_state.md R42). -/
def Regs.at (c : Regs) (p : Nat) : Regs := { c with bitpos := p }

/-- The registers with STATE = x (10_state.md R54). -/
def Regs.enter (c : Regs) (x : BlockState) : Regs := { c with state := x }

/-- The registers with the offset cache (a, b, d) (10_state.md R45). -/
def Regs.setCache (c : Regs) (a b d : U32) : Regs := { c with r0 := a, r1 := b, r2 := d }

/-- The registers after NEW (10_state.md R62). -/
def freshRegs (g : Config) : Regs where
  bitpos := 0
  r0 := 1
  r1 := 1
  r2 := 1
  win := []
  wpos := 0
  produced := 0
  mainLen := List.replicate g.nmain 0
  lenLen := List.replicate g.params.numLengthSymbols 0
  alLen := List.replicate alignedSymbols 0
  ptLen := List.replicate pretreeSymbols 0
  mainTree := none
  lengthTree := none
  alignedTree := none
  preTree := none
  state := .preamble
  btype := 0
  blockLen := 0
  remaining := 0
  e8Flag := false
  e8Size := 0
  fault := none
  chunkFill := 0
  chunkBuf := []

/-! ## The Step in progress and the command interface -/

/-- The Step goes on: working registers c, the next element of phase ph. -/
def State.working (s : State) (c : Regs) (ph : Phase) : State := { s with work := some ⟨c, ph⟩ }

/-- NEXT_CHUNK hands back r and ends (45_chunk_driver.md R346). -/
def State.answer (s : State) (r : Result) : State :=
  { s with running := false, results := s.results ++ [r] }

/-- The Step ends and its writes take effect; in TERMINAL the NEXT_CHUNK ends with what it has, or with None
(45_chunk_driver.md R345). -/
def State.commit (s : State) (c : Regs) : State :=
  let s' := { s with regs := c, work := none }
  if c.state = .terminal then s'.answer (if 0 < c.chunkFill then .chunk c.chunkBuf else .none) else s'

/-- The kind an implementation reports for a fault (60_exceptions.md R370, 93_implementation_defined.md I2). -/
def reportedAs (m : Impl) : FaultKind → FaultKind
  | .blockOverrun => m.blockOverrunAs
  | .chunkOverrun => m.chunkOverrunAs
  | .emptyBlock => m.emptyBlockAs
  | .inputExhausted => .inputExhausted
  | .invalidCode => .invalidCode
  | .invalidBlockType => .invalidBlockType
  | .invalidOffset => .invalidOffset
  | .invalidLength => .invalidLength
  | .invalidConfig => .invalidConfig

/-- Fault entry (60_exceptions.md R372): the Step's writes are discarded, FAULT is set and NEXT_CHUNK returns the Error.
There is no handler and no return from a fault (60_exceptions.md R374): only NEW leaves FAULT. -/
def State.takeFault (s : State) (k : FaultKind) : State :=
  { s with regs := { s.regs with fault := some (reportedAs s.impl k) }, work := none }.answer (.error (reportedAs s.impl k))

/-- The outcome of an element that raises fault k. -/
def raise (s : State) (k : FaultKind) : Host.Outcome State Fault Refusal := .next (s.takeFault k)

/-- The end of a main item: AWAIT when the block is complete (44_block.md R312). -/
def endOfItem (c : Regs) : Regs := if c.remaining = 0 then c.enter .await else c

/-- ChunkRealign (45_chunk_driver.md R348). -/
def chunkRealign (g : Config) (c : Regs) : Regs :=
  if g.params.chunkRealign ∧ (c.state = .await ∨ c.state = .verbatim ∨ c.state = .aligned) then
    c.at (clampWord g c.bitpos)
  else c

/-- A full chunk: realign and return it (45_chunk_driver.md R345). -/
def State.returnChunk (s : State) : State :=
  { s with regs := chunkRealign s.cfg s.regs }.answer (.chunk s.regs.chunkBuf)

/-- What a Step begins with (44_block.md R280, R290, R294, R296, R310, R332): an element, or a transition that reads none,
or nothing in TERMINAL. -/
inductive Begin where
  | element (ph : Phase)
  | silent (c : Regs)
  | nothing
  deriving DecidableEq, Repr

/-- The beginning of the Step that STATE chooses (45_chunk_driver.md R343). -/
def beginStep (g : Config) (c : Regs) : Begin :=
  match c.state with
  | .preamble =>
    if g.avail = 0 then .silent (c.enter .terminal)
    else if g.params.preambleE8 then .element .preamble
    else .silent (c.enter .await)
  | .await => if inputDone g c.bitpos then .silent (c.enter .terminal) else .element .header
  | .verbatim => .element .mainSym
  | .aligned => .element .mainSym
  | .uncomp => .element .raw
  | .terminal => .nothing

end Sys2Proof.Machine
end

