-- ==== Sys2Proof/Machine/Operands.lean ====
section
/-! DEFINITION. Operand forms: the length arrays and their ranges, match lengths, footers, offsets and the cache updates
(30_encoding.md R107 to R111, 42_tree_of_trees.md R202 to R222, 43_window.md R260 to R268, 44_block.md R313 to R316). -/

namespace Sys2Proof.Machine

/-! ## Length arrays -/

/-- Where the main-tree read begins (42_tree_of_trees.md R220). -/
def firstTarget (g : Config) : Target := if g.params.mainTreeParts = 2 then .mainLiterals else .mainWhole

/-- The first index of a range (42_tree_of_trees.md R220, R222). -/
def Target.first : Target → Nat
  | .mainWhole => 0
  | .mainLiterals => 0
  | .mainMatches => numChars
  | .lengths => 0

/-- The index after the last of a range (42_tree_of_trees.md R220, R222). -/
def Target.last (g : Config) : Target → Nat
  | .mainWhole => g.nmain
  | .mainLiterals => numChars
  | .mainMatches => g.nmain
  | .lengths => g.params.numLengthSymbols

/-- The length array a range belongs to. -/
def Target.array (c : Regs) : Target → List Nat
  | .mainWhole => c.mainLen
  | .mainLiterals => c.mainLen
  | .mainMatches => c.mainLen
  | .lengths => c.lenLen

/-- The registers with the length array of a range replaced. -/
def Target.put (c : Regs) (arr : List Nat) : Target → Regs
  | .mainWhole => { c with mainLen := arr }
  | .mainLiterals => { c with mainLen := arr }
  | .mainMatches => { c with mainLen := arr }
  | .lengths => { c with lenLen := arr }

/-- The delta rule (42_tree_of_trees.md R204): (prev + 17 - s) mod 17. -/
def deltaLen (prev s : Nat) : Nat := (prev + 17 - s) % 17

/-- arr[i + k] <- v for k in 0..n-1, in increasing order (42_tree_of_trees.md R206 to R208). -/
def fillRun (arr : List Nat) (i : Nat) (v : Nat) : Nat → List Nat
  | 0 => arr
  | n + 1 => fillRun (arr.set i v) (i + 1) v n

/-! ## Matches -/

/-- The match length of length header lh < 7 (44_block.md R313). -/
def shortLength (lh : BitVec 3) : Nat := lh.toNat + 2

/-- The match length of length symbol ls (44_block.md R313). -/
def longLength (ls : Nat) : Nat := 9 + ls

/-- The footer of an AlignedOffset block with an aligned symbol (44_block.md R315). -/
def alignedFooter (hi lo : Nat) : Nat := hi * 8 + lo

/-- The explicit offset of slot ≥ 3 with footer f (43_window.md R243). -/
def explicitOffset (slot f : Nat) : Nat := slotBase slot + f - 2

/-- The offset of a match (43_window.md R260 to R263). -/
def matchOffset (c : Regs) (slot f : Nat) : Nat :=
  match slot with
  | 0 => c.r0.toNat
  | 1 => c.r1.toNat
  | 2 => c.r2.toNat
  | _ => explicitOffset slot f

/-- The cache after a match (43_window.md R260 to R263); the swap policy of slot 2 is R262's other setting. -/
def updateCache (g : Config) (c : Regs) (slot f : Nat) : Regs :=
  match slot with
  | 0 => c.setCache c.r0 c.r1 c.r2
  | 1 => c.setCache c.r1 c.r0 c.r2
  | 2 =>
    if g.params.rep2Policy = .rotate then c.setCache c.r2 c.r0 c.r1 else c.setCache c.r2 c.r1 c.r0
  | _ => c.setCache (BitVec.ofNat 32 (explicitOffset slot f)) c.r0 c.r1

/-- CheckOffset, then CheckLength (43_window.md R266, R267, R269). -/
def checkMatch (g : Config) (c : Regs) (off n : Nat) : Except FaultKind Unit :=
  if off < 1 ∨ c.hist g < off then .error .invalidOffset
  else if c.remaining.toNat < n then .error .blockOverrun
  else if g.params.chunkSize < c.chunkFill + n then .error .chunkOverrun
  else .ok ()

/-- CopyMatch(off, n) (43_window.md R268): one byte at a time; an unwritten cell is InvalidOffset
(60_exceptions.md R382). -/
def copyMatch (g : Config) (off : Nat) : Nat → Regs → Except FaultKind Regs
  | 0, c => .ok c
  | n + 1, c =>
    match winRead c.win (behind g c.wpos off) with
    | none => .error .invalidOffset
    | some b => copyMatch g off n (emitByte g c b)

/-- DoMatch (43_window.md R269) with the offset and the cache of the slot. -/
def doMatch (g : Config) (c : Regs) (slot n f : Nat) : Except FaultKind Regs := do
  checkMatch g c (matchOffset c slot f) n
  copyMatch g (matchOffset c slot f) n (updateCache g c slot f)

/-! ## Uncompressed blocks -/

/-- The alignment of an Uncompressed header (44_block.md R330). -/
def uncompAlign (g : Config) (pos : Nat) : Except FaultKind Nat :=
  let padded : Except FaultKind Nat :=
    if g.params.uncompPad16IfAligned ∧ pos % 16 = 0 then
      if g.avail < pos + 16 then .error .inputExhausted else .ok (pos + 16)
    else .ok (alignWord pos)
  padded.map fun p => if g.params.uncompAlign32 then align32 p else p

end Sys2Proof.Machine
end

