-- ==== Sys2Proof/Machine/Headers.lean ====
section
/-! DEFINITION. Block headers (44_block.md R294 to R305, R330). -/

namespace Sys2Proof.Machine

/-- A header of block type t and length n, which goes on as `k` says; a length of 0 is EmptyBlock (44_block.md R296). -/
def blockHeader (t : BitVec 3) (n : U24) (s : State) (k : Regs → Host.Outcome State Fault Refusal) :
    Host.Outcome State Fault Refusal :=
  match s.work with
  | some ⟨c, .header⟩ => if n = 0 then raise s .emptyBlock else k { c with btype := t, blockLen := n }
  | _ => .refused .notExpected

/-- An invalid block type, whose length is not read (44_block.md R296, 60_exceptions.md R380). -/
def invalidType (s : State) : Host.Outcome State Fault Refusal :=
  match s.work with
  | some ⟨_, .header⟩ => raise s .invalidBlockType
  | _ => .refused .notExpected

/-- `BLOCK VERBATIM, n` (44_block.md R296, R300): the main tree comes next. -/
def execBlockVerbatim (n : U24) (s : State) : Host.Outcome State Fault Refusal :=
  blockHeader 1 n s fun c => .next (s.working c (.pretree (firstTarget s.cfg)))

/-- `BLOCK ALIGNED, n` (44_block.md R296, R305): the aligned tree comes next. -/
def execBlockAligned (n : U24) (s : State) : Host.Outcome State Fault Refusal :=
  blockHeader 2 n s fun c => .next (s.working c .altree)

/-- `BLOCK UNCOMP, n` (44_block.md R296, R330): the alignment, and the R values come next. -/
def execBlockUncomp (n : U24) (s : State) : Host.Outcome State Fault Refusal :=
  blockHeader 3 n s fun c =>
    match uncompAlign s.cfg c.bitpos with
    | .ok p => .next (s.working (c.at p) .uncompR)
    | .error k => raise s k

/-- A header of type 0 (44_block.md R296). -/
def execBlockInvalid0 (s : State) : Host.Outcome State Fault Refusal := invalidType s

/-- A header of type 4 + t (44_block.md R296): every such type is the same fault. -/
def execBlockInvalid4 (_t : BitVec 2) (s : State) : Host.Outcome State Fault Refusal := invalidType s

end Sys2Proof.Machine
end

