-- ==== Sys2Proof/Machine/HostCommands.lean ====
section
/-! DEFINITION. The host's commands (45_chunk_driver.md R340 to R346). -/

namespace Sys2Proof.Machine

/-- `NEW code, IN, params` (45_chunk_driver.md R341): a new instance in the reset state, with FAULT = InvalidConfig where
the configuration is invalid. The host's commands not yet taken stay. -/
def execNew (code : Nat) (input : List Byte) (params : Params) (s : State) : Host.Outcome State Fault Refusal :=
  let g : Config := ⟨code, input, params⟩
  .next { s with
    cfg := g
    regs := { freshRegs g with fault := if g.valid then none else some .invalidConfig }
    work := none
    running := false
    results := [] }

/-- `NEXT_CHUNK` (45_chunk_driver.md R345): the sticky Error, or None in TERMINAL, or the chunk loop begins. The passes
of the loop are the steps that follow. -/
def execNextChunk (s : State) : Host.Outcome State Fault Refusal :=
  if s.running then .refused .notExpected
  else
    match s.regs.fault with
    | some k => .next (s.answer (.error k))
    | none =>
      if s.regs.state = .terminal then .next (s.answer .none)
      else .next { s with regs := { s.regs with chunkFill := 0, chunkBuf := [] }, running := true }

end Sys2Proof.Machine
end

