-- ==== Sys2Proof/Machine/Match.lean ====
section
/-! DEFINITION. The main items of Verbatim and AlignedOffset blocks (44_block.md R310 to R317, 43_window.md R250 to R269). -/

namespace Sys2Proof.Machine

/-- The match is decoded: check, update the cache and copy (43_window.md R269), then test the block's end
(44_block.md R312). -/
def finishMatch (s : State) (c : Regs) (slot n f : Nat) : Host.Outcome State Fault Refusal :=
  match doMatch s.cfg c slot n f with
  | .ok c' => .next (s.commit (endOfItem c'))
  | .error k => raise s k

/-- The footer is known: an extended length follows a length of 257 when EXT_LEN is on (44_block.md R310, R316). -/
def afterFooter (s : State) (c : Regs) (slot n f : Nat) : Host.Outcome State Fault Refusal :=
  if s.cfg.params.extLen ∧ n = 257 then .next (s.working c (.extLen slot n f))
  else finishMatch s c slot n f

/-- The length is known: slots 0 to 2 have no footer, the others one of the block's kind (44_block.md R310, R314, R315). -/
def afterLength (s : State) (c : Regs) (slot n : Nat) : Host.Outcome State Fault Refusal :=
  if slot < 3 then afterFooter s c slot n 0
  else if c.state = .aligned then .next (s.working c (.footerA slot n))
  else .next (s.working c (.footerV slot n))

/-- The main symbol of a match: a length header of 7 calls for a length symbol (44_block.md R310, R313). -/
def matchSymbol (slot : Nat) (lh : BitVec 3) (s : State) : Host.Outcome State Fault Refusal :=
  match s.work with
  | some ⟨c, .mainSym⟩ =>
    if lh = 7 then .next (s.working c (.lenSym slot)) else afterLength s c slot (shortLength lh)
  | _ => .refused .notExpected

/-- An extended length adds v to the match length (44_block.md R316). -/
def extended (v : Nat) (s : State) : Host.Outcome State Fault Refusal :=
  match s.work with
  | some ⟨c, .extLen slot n f⟩ => finishMatch s c slot (n + v) f
  | _ => .refused .notExpected

/-- `LIT b` (44_block.md R311, 43_window.md R251). -/
def execLit (b : Byte) (s : State) : Host.Outcome State Fault Refusal :=
  match s.work with
  | some ⟨c, .mainSym⟩ => .next (s.commit (endOfItem (emitByte s.cfg c b)))
  | _ => .refused .notExpected

/-- `MATCH 0, lh` (43_window.md R260). -/
def execMatchRep0 (lh : BitVec 3) (s : State) : Host.Outcome State Fault Refusal := matchSymbol 0 lh s

/-- `MATCH 1, lh` (43_window.md R261). -/
def execMatchRep1 (lh : BitVec 3) (s : State) : Host.Outcome State Fault Refusal := matchSymbol 1 lh s

/-- `MATCH 2, lh` (43_window.md R262). -/
def execMatchRep2 (lh : BitVec 3) (s : State) : Host.Outcome State Fault Refusal := matchSymbol 2 lh s

/-- `MATCH slot, lh` (43_window.md R263). -/
def execMatchNew (slot : Nat) (lh : BitVec 3) (s : State) : Host.Outcome State Fault Refusal := matchSymbol slot lh s

/-- `LEN ls` (44_block.md R313). -/
def execLenSym (ls : Nat) (s : State) : Host.Outcome State Fault Refusal :=
  match s.work with
  | some ⟨c, .lenSym slot⟩ => afterLength s c slot (longLength ls)
  | _ => .refused .notExpected

/-- The footer of a Verbatim block (44_block.md R314). -/
def execFooterVerbatim (f : BitVec 17) (s : State) : Host.Outcome State Fault Refusal :=
  match s.work with
  | some ⟨c, .footerV slot n⟩ => afterFooter s c slot n f.toNat
  | _ => .refused .notExpected

/-- The literal footer bits of an AlignedOffset block (44_block.md R315): an aligned symbol follows when FOOTER_BITS is
3 or more. -/
def execFooterHi (hi : BitVec 17) (s : State) : Host.Outcome State Fault Refusal :=
  match s.work with
  | some ⟨c, .footerA slot n⟩ =>
    if 3 ≤ footerBits slot then .next (s.working c (.alignedLo slot n hi.toNat))
    else afterFooter s c slot n hi.toNat
  | _ => .refused .notExpected

/-- `ALIGNED lo` (44_block.md R315). -/
def execAlignedLo (lo : BitVec 3) (s : State) : Host.Outcome State Fault Refusal :=
  match s.work with
  | some ⟨c, .alignedLo slot n hi⟩ => afterFooter s c slot n (alignedFooter hi lo.toNat)
  | _ => .refused .notExpected

/-- `EXTLEN 0, v` (44_block.md R316). -/
def execExtLen0 (v : BitVec 8) (s : State) : Host.Outcome State Fault Refusal := extended v.toNat s

/-- `EXTLEN 10, v` (44_block.md R316). -/
def execExtLen10 (v : BitVec 10) (s : State) : Host.Outcome State Fault Refusal := extended (v.toNat + 0x100) s

/-- `EXTLEN 110, v` (44_block.md R316). -/
def execExtLen110 (v : BitVec 12) (s : State) : Host.Outcome State Fault Refusal := extended (v.toNat + 0x500) s

/-- `EXTLEN 111, v` (44_block.md R316). -/
def execExtLen111 (v : BitVec 15) (s : State) : Host.Outcome State Fault Refusal := extended v.toNat s

end Sys2Proof.Machine
end

