-- ==== Sys2Proof/Machine/Preamble.lean ====
section
/-! DEFINITION. The stream preamble (44_block.md R290 to R292). -/

namespace Sys2Proof.Machine

/-- `PREAMBLE e8=0` (44_block.md R290). -/
def execPreamble0 (s : State) : Host.Outcome State Fault Refusal :=
  match s.work with
  | some ⟨c, .preamble⟩ => .next (s.commit { c with e8Flag := false, state := .await })
  | _ => .refused .notExpected

/-- `PREAMBLE e8=1, size=n` (44_block.md R290): reported, not applied (R292). -/
def execPreamble1 (size : U32) (s : State) : Host.Outcome State Fault Refusal :=
  match s.work with
  | some ⟨c, .preamble⟩ => .next (s.commit { c with e8Flag := true, e8Size := size, state := .await })
  | _ => .refused .notExpected

end Sys2Proof.Machine
end

