-- ==== Sys2Proof/Machine/Trees.lean ====
section
/-! DEFINITION. The tree reads: the pretree, its ops, the aligned-offset tree (42_tree_of_trees.md R200 to R225). -/

namespace Sys2Proof.Machine

/-- The block the trees belong to begins (44_block.md R296, R300, R305): REMAINING <- n and STATE of the block type. -/
def enterBlock (c : Regs) : Regs :=
  { c with state := if c.btype = 2 then .aligned else .verbatim, remaining := c.blockLen }

/-- The range t is full (42_tree_of_trees.md R220, R222): the next range, or Build and the next tree, or the end of the
header. -/
def rangeDone (s : State) (c : Regs) (t : Target) : Host.Outcome State Fault Refusal :=
  match t with
  | .mainLiterals => .next (s.working c (.pretree .mainMatches))
  | .mainWhole =>
    match buildTree c.mainLen with
    | .ok tree => .next (s.working { c with mainTree := some tree } (.pretree .lengths))
    | .error k => raise s k
  | .mainMatches =>
    match buildTree c.mainLen with
    | .ok tree => .next (s.working { c with mainTree := some tree } (.pretree .lengths))
    | .error k => raise s k
  | .lengths =>
    match buildTree c.lenLen with
    | .ok tree => .next (s.commit (enterBlock { c with lengthTree := some tree }))
    | .error k => raise s k

/-- The loop test of ReadLengths at index i (42_tree_of_trees.md R202). -/
def rangeAt (s : State) (c : Regs) (t : Target) (i : Nat) : Host.Outcome State Fault Refusal :=
  if i < t.last s.cfg then .next (s.working c (.ptOp t i)) else rangeDone s c t

/-- A run of n entries of value v, which must not pass the end of the range (42_tree_of_trees.md R206 to R208). -/
def runOf (s : State) (c : Regs) (t : Target) (i n v : Nat) : Host.Outcome State Fault Refusal :=
  if t.last s.cfg < i + n then raise s .invalidLength
  else rangeAt s (t.put c (fillRun (t.array c) i v n)) t (i + n)

/-- `PRETREE l0,...,l19` (42_tree_of_trees.md R201). -/
def execPretree (lens : List (BitVec 4)) (s : State) : Host.Outcome State Fault Refusal :=
  match s.work with
  | some ⟨c, .pretree t⟩ =>
    match buildTree (lens.map BitVec.toNat) with
    | .ok tree => rangeAt s { c with ptLen := lens.map BitVec.toNat, preTree := some tree } t t.first
    | .error k => raise s k
  | _ => .refused .notExpected

/-- `PT.DELTA s` (42_tree_of_trees.md R204). -/
def execPtDelta (sym : Nat) (s : State) : Host.Outcome State Fault Refusal :=
  match s.work with
  | some ⟨c, .ptOp t i⟩ =>
    rangeAt s (t.put c ((t.array c).set i (deltaLen ((t.array c).getD i 0) sym))) t (i + 1)
  | _ => .refused .notExpected

/-- `PT.ZRUN4 z` (42_tree_of_trees.md R206). -/
def execPtZrun4 (z : BitVec 4) (s : State) : Host.Outcome State Fault Refusal :=
  match s.work with
  | some ⟨c, .ptOp t i⟩ => runOf s c t i (4 + z.toNat) 0
  | _ => .refused .notExpected

/-- `PT.ZRUN20 z` (42_tree_of_trees.md R207). -/
def execPtZrun20 (z : BitVec 5) (s : State) : Host.Outcome State Fault Refusal :=
  match s.work with
  | some ⟨c, .ptOp t i⟩ => runOf s c t i (20 + z.toNat) 0
  | _ => .refused .notExpected

/-- `PT.SAME z, s` (42_tree_of_trees.md R208): one value, from the previous length at the run's first entry only. -/
def execPtSame (z : BitVec 1) (sym : Nat) (s : State) : Host.Outcome State Fault Refusal :=
  match s.work with
  | some ⟨c, .ptOp t i⟩ =>
    if 16 < sym then raise s .invalidLength
    else runOf s c t i (4 + z.toNat) (deltaLen ((t.array c).getD i 0) sym)
  | _ => .refused .notExpected

/-- `ALTREE l0,...,l7` (42_tree_of_trees.md R224): absolute lengths; the main tree comes next (44_block.md R305). -/
def execAltree (lens : List (BitVec 4)) (s : State) : Host.Outcome State Fault Refusal :=
  match s.work with
  | some ⟨c, .altree⟩ =>
    match buildTree (lens.map BitVec.toNat) with
    | .ok tree =>
      .next (s.working { c with alLen := lens.map BitVec.toNat, alignedTree := some tree }
        (.pretree (firstTarget s.cfg)))
    | .error k => raise s k
  | _ => .refused .notExpected

end Sys2Proof.Machine
end

