-- ==== Sys2Proof/Machine/Uncompressed.lean ====
section
/-! DEFINITION. The elements of an Uncompressed block (44_block.md R330 to R335). -/

namespace Sys2Proof.Machine

/-- `UNCOMP.R r0, r1, r2` (44_block.md R331), which ends the header (R296, R330): the values are not checked
(43_window.md R264). -/
def execUncompR (v0 v1 v2 : U32) (s : State) : Host.Outcome State Fault Refusal :=
  match s.work with
  | some ⟨c, .uncompR⟩ =>
    .next (s.commit { c.setCache v0 v1 v2 with state := .uncomp, remaining := c.blockLen })
  | _ => .refused .notExpected

/-- EndUncomp (44_block.md R334). -/
def endUncomp (g : Config) (c : Regs) : Regs := { c with bitpos := clampWord g c.bitpos, state := .await }

/-- `RAW b` (44_block.md R332). The last byte of the block ends it (R334); where the end skips a byte, that byte is the
ODDPAD element of the same Step. -/
def execRaw (b : Byte) (s : State) : Host.Outcome State Fault Refusal :=
  match s.work with
  | some ⟨c, .raw⟩ =>
    let c' := emitByte s.cfg c b
    if c'.remaining = 0 then
      if c'.bitpos < clampWord s.cfg c'.bitpos then .next (s.working c' .oddPad)
      else .next (s.commit (endUncomp s.cfg c'))
    else .next (s.commit c')
  | _ => .refused .notExpected

/-- `ODDPAD` (44_block.md R334): the byte read is skipped, and the cursor stands where EndUncomp puts it. Its value is
ignored. -/
def execOddPad (_pad : Byte) (s : State) : Host.Outcome State Fault Refusal :=
  match s.work with
  | some ⟨c, .oddPad⟩ => .next (s.commit (endUncomp s.cfg c))
  | _ => .refused .notExpected

end Sys2Proof.Machine
end

