-- ==== Sys2Proof/Machine/Dispatch.lean ====
section
/-! DEFINITION. The meaning of every instruction: one arm per constructor of Instr. -/

namespace Sys2Proof.Machine

def exec (i : Instr) (s : State) : Host.Outcome State Fault Refusal :=
  match i with
  | .preamble0 => Sys2Proof.Machine.execPreamble0 s
  | .preamble1 size => Sys2Proof.Machine.execPreamble1 size s
  | .blockVerbatim n => Sys2Proof.Machine.execBlockVerbatim n s
  | .blockAligned n => Sys2Proof.Machine.execBlockAligned n s
  | .blockUncomp n => Sys2Proof.Machine.execBlockUncomp n s
  | .blockInvalid0 => Sys2Proof.Machine.execBlockInvalid0 s
  | .blockInvalid4 t => Sys2Proof.Machine.execBlockInvalid4 t s
  | .pretree lens => Sys2Proof.Machine.execPretree lens s
  | .ptDelta sym => Sys2Proof.Machine.execPtDelta sym s
  | .ptZrun4 z => Sys2Proof.Machine.execPtZrun4 z s
  | .ptZrun20 z => Sys2Proof.Machine.execPtZrun20 z s
  | .ptSame z sym => Sys2Proof.Machine.execPtSame z sym s
  | .altree lens => Sys2Proof.Machine.execAltree lens s
  | .lit b => Sys2Proof.Machine.execLit b s
  | .matchRep0 lh => Sys2Proof.Machine.execMatchRep0 lh s
  | .matchRep1 lh => Sys2Proof.Machine.execMatchRep1 lh s
  | .matchRep2 lh => Sys2Proof.Machine.execMatchRep2 lh s
  | .matchNew slot lh => Sys2Proof.Machine.execMatchNew slot lh s
  | .lenSym ls => Sys2Proof.Machine.execLenSym ls s
  | .footerVerbatim f => Sys2Proof.Machine.execFooterVerbatim f s
  | .footerHi hi => Sys2Proof.Machine.execFooterHi hi s
  | .alignedLo lo => Sys2Proof.Machine.execAlignedLo lo s
  | .extLen0 v => Sys2Proof.Machine.execExtLen0 v s
  | .extLen10 v => Sys2Proof.Machine.execExtLen10 v s
  | .extLen110 v => Sys2Proof.Machine.execExtLen110 v s
  | .extLen111 v => Sys2Proof.Machine.execExtLen111 v s
  | .uncompR v0 v1 v2 => Sys2Proof.Machine.execUncompR v0 v1 v2 s
  | .raw b => Sys2Proof.Machine.execRaw b s
  | .oddPad pad => Sys2Proof.Machine.execOddPad pad s
  | .new code input params => Sys2Proof.Machine.execNew code input params s
  | .nextChunk => Sys2Proof.Machine.execNextChunk s

end Sys2Proof.Machine
end

