-- ==== Sys2Proof/Machine/Fetch.lean ====
section
/-! DEFINITION. What a step runs: the host's next command between commands; in a NEXT_CHUNK one pass of the chunk loop
(45_chunk_driver.md R345, R353), cut into its stream elements, each read at the bit cursor. -/

namespace Sys2Proof.Machine

/-- What the fetch finds. `run`: an instruction, and the state with its bits consumed. `quiet`: a transition without an
instruction. -/
inductive Fetched where
  | run (i : Instr) (s : State)
  | quiet (s : State)
  | stop (f : Fault)
  | refuse (r : Refusal)
  deriving DecidableEq, Repr

/-- The format of the element a phase calls for (30_encoding.md R101, R112). -/
def formatOf (c : Regs) : Phase → Format
  | .preamble => .preamble
  | .header => .header
  | .altree => .altree
  | .pretree _ => .pretree
  | .ptOp _ _ => .ptOp c.preTree
  | .uncompR => .uncompR
  | .mainSym => .mainSym c.mainTree
  | .lenSym _ => .lenSym c.lengthTree
  | .footerV slot _ => .footerV (footerBits slot)
  | .footerA slot _ => .footerA (footerBits slot)
  | .alignedLo _ _ _ => .alignedLo c.alignedTree
  | .extLen _ _ _ => .extLen
  | .raw => .raw
  | .oddPad => .oddPad

/-- The element of phase ph at the cursor of c: its bits are consumed, and a read that fails takes its fault. -/
def fetchElement (s : State) (c : Regs) (ph : Phase) : Fetched :=
  match decode s.cfg (formatOf c ph) c.bitpos with
  | .ok (i, p) => .run i (s.working (c.at p) ph)
  | .error (.fault k) => .quiet (s.takeFault k)
  | .error .unaligned => .refuse .rawReadUnaligned
  | .error .absent => .refuse .treeAbsent

/-- A pass of the chunk loop at a Step boundary (45_chunk_driver.md R345): the size test, then the Step's beginning. -/
def fetchPass (s : State) : Fetched :=
  if s.regs.fault ≠ none then .stop .noStep
  else if s.regs.chunkFill = s.cfg.params.chunkSize then .quiet s.returnChunk
  else
    match beginStep s.cfg s.regs with
    | .element ph => fetchElement s s.regs ph
    | .silent c => .quiet (s.commit c)
    | .nothing => .stop .noStep

/-- The instruction of a host command. -/
def Command.instr : Command → Instr
  | .new code input params => .new code input params
  | .nextChunk => .nextChunk

/-- The host's oldest command (45_chunk_driver.md R340). -/
def fetchCommand (s : State) : Fetched :=
  match s.port with
  | [] => .stop .noCommand
  | cmd :: rest => .run cmd.instr { s with port := rest }

/-- What the next step runs. -/
def fetch (s : State) : Fetched :=
  if s.running then
    match s.work with
    | some w => fetchElement s w.regs w.phase
    | none => fetchPass s
  else fetchCommand s

/-! ## Placing a word of the opcode table -/

/-- The phase and the registers under which the fetch reads an element of the given format: the STATE, the tree and the
block that the format needs. -/
def placePhase (c : Regs) : Format → Regs × Option Phase
  | .preamble => (c.enter .preamble, none)
  | .header => (c.enter .await, none)
  | .pretree => (c.enter .await, some (.pretree .mainLiterals))
  | .ptOp tree => ({ c.enter .await with preTree := tree }, some (.ptOp .mainLiterals 0))
  | .altree => (c.enter .await, some .altree)
  | .mainSym tree => ({ c.enter .verbatim with mainTree := tree, blockLen := 1, remaining := 1 }, none)
  | .lenSym tree => ({ c.enter .verbatim with lengthTree := tree }, some (.lenSym 0))
  | .footerV _ => (c.enter .verbatim, some (.footerV 3 2))
  | .footerA _ => (c.enter .aligned, some (.footerA 3 2))
  | .alignedLo tree => ({ c.enter .aligned with alignedTree := tree }, some (.alignedLo 8 2 0))
  | .extLen => (c.enter .verbatim, some (.extLen 0 257 0))
  | .uncompR => (c.enter .await, some .uncompR)
  | .raw => ({ c.enter .uncomp with blockLen := 1, remaining := 1 }, none)
  | .oddPad => (c.enter .uncomp, some .oddPad)

/-- The state in which the next step reads a table word (log entry 5): its bits are the input from bit 0, a NEXT_CHUNK is
in progress, and the grammar calls for the word's format; a word of no bits is a NEXT_CHUNK the host has issued. -/
def placeWord (s : State) (nbits w : Nat) : State :=
  if nbits = 0 then { s with running := false, port := [.nextChunk] }
  else
    let (c, ph) := placePhase { s.regs with bitpos := 0, fault := none, chunkFill := 0 } (tableFormat nbits w)
    { s with
      cfg := ⟨s.cfg.windowCode, tableInput nbits w, tableParams nbits w⟩
      regs := c
      work := ph.map fun ph => ⟨c, ph⟩
      running := true }

end Sys2Proof.Machine
end

