-- ==== Sys2Proof/Machine/Atomic.lean ====
section
/-! DEFINITION. The Step and the commands at the spec's own grain (45_chunk_driver.md R343, R345, R353). First the
machine's steps taken together: all the elements of a Step, all the passes of a command. Then the pseudocode of the spec
for one Step as one function of the registers, written over the readers and operations the elements use; obligations say
that the two agree. -/

namespace Sys2Proof.Machine

/-! ## The machine's steps taken together -/

/-- Steps until the Step in progress is over, at most `fuel`. -/
def settle : Nat → State → Host.Outcome State Fault Refusal
  | 0, s => .next s
  | fuel + 1, s =>
    match s.work with
    | none => .next s
    | some _ =>
      match step s with
      | .next t => settle fuel t
      | o => o

/-- More elements than any Step has: a header's are at most two lead elements, three pretrees and one op an entry. -/
def stepFuel (g : Config) : Nat := g.nmain + g.params.numLengthSymbols + 16

/-- One pass of the chunk loop (45_chunk_driver.md R353). -/
def pass (s : State) : Host.Outcome State Fault Refusal :=
  match step s with
  | .next t => settle (stepFuel s.cfg) t
  | o => o

/-- Steps until the NEXT_CHUNK in progress has handed back its result, at most `fuel`. -/
def runCommand : Nat → State → Host.Outcome State Fault Refusal
  | 0, s => .next s
  | fuel + 1, s =>
    if s.running then
      match step s with
      | .next t => runCommand fuel t
      | o => o
    else .next s

/-- A bound on the steps of one NEXT_CHUNK: every element but an empty footer consumes a bit (45_chunk_driver.md R344). -/
def commandFuel (g : Config) : Nat := 16 * g.len + 4

/-- NEXT_CHUNK as one host transaction (00_scope.md R10, 45_chunk_driver.md R345). -/
def nextChunkCall (s : State) : Host.Outcome State Fault Refusal :=
  match exec .nextChunk s with
  | .next t => runCommand (commandFuel s.cfg) t
  | o => o

/-! ## The spec's pseudocode for one Step -/

/-- A fault of an operation that reads no bits, as the end of a read. -/
def liftFault {α : Type} : Except FaultKind α → Except ReadStop α
  | .ok a => .ok a
  | .error k => .error (.fault k)

/-- ReadPretree (42_tree_of_trees.md R201). -/
def readPretree (g : Config) (c : Regs) : Except ReadStop Regs := do
  let (ls, p) ← readRun g pretreeLenBits c.bitpos pretreeSymbols
  let tree ← liftFault (buildTree ls)
  return { c with bitpos := p, ptLen := ls, preTree := some tree }

/-- One run of n entries of value v (42_tree_of_trees.md R206 to R208). -/
def fillChecked (g : Config) (t : Target) (c : Regs) (i n v : Nat) : Except ReadStop Regs :=
  if t.last g < i + n then .error (.fault .invalidLength) else .ok (t.put c (fillRun (t.array c) i v n))

/-- One op of ReadLengths at index i, with the index after it (42_tree_of_trees.md R202 to R208). -/
def ptOpStep (g : Config) (t : Target) (i : Nat) (c : Regs) : Except ReadStop (Regs × Nat) := do
  let (s, p) ← decodeSymbol g c.preTree c.bitpos
  if s ≤ 16 then
    return (t.put (c.at p) ((t.array c).set i (deltaLen ((t.array c).getD i 0) s)), i + 1)
  else if s = 17 then
    let (z, q) ← readBits g p g.params.pt17Bits
    let c' ← fillChecked g t (c.at q) i (4 + z) 0
    return (c', i + (4 + z))
  else if s = 18 then
    let (z, q) ← readBits g p 5
    let c' ← fillChecked g t (c.at q) i (20 + z) 0
    return (c', i + (20 + z))
  else
    let (z, q) ← readBits g p 1
    let (v, r) ← decodeSymbol g c.preTree q
    if 16 < v then .error (.fault .invalidLength)
    else
      let c' ← fillChecked g t (c.at r) i (4 + z) (deltaLen ((t.array c).getD i 0) v)
      return (c', i + (4 + z))

/-- The loop of ReadLengths (42_tree_of_trees.md R202); every op fills at least one entry, so `fuel` = last - i suffices. -/
def ptLoop (g : Config) (t : Target) : Nat → Nat → Regs → Except ReadStop Regs
  | 0, _, c => .ok c
  | fuel + 1, i, c =>
    if i < t.last g then do
      let (c', j) ← ptOpStep g t i c
      ptLoop g t fuel j c'
    else .ok c

/-- ReadLengths (42_tree_of_trees.md R202). -/
def readLengths (g : Config) (t : Target) (c : Regs) : Except ReadStop Regs := do
  let c' ← readPretree g c
  ptLoop g t (t.last g - t.first) t.first c'

/-- ReadMainTree (42_tree_of_trees.md R220). -/
def readMainTree (g : Config) (c : Regs) : Except ReadStop Regs := do
  let c' ←
    if g.params.mainTreeParts = 2 then do
      let c1 ← readLengths g .mainLiterals c
      readLengths g .mainMatches c1
    else readLengths g .mainWhole c
  let tree ← liftFault (buildTree c'.mainLen)
  return { c' with mainTree := some tree }

/-- ReadLengthTree (42_tree_of_trees.md R222). -/
def readLengthTree (g : Config) (c : Regs) : Except ReadStop Regs := do
  let c' ← readLengths g .lengths c
  let tree ← liftFault (buildTree c'.lenLen)
  return { c' with lengthTree := some tree }

/-- ReadAlignedTree (42_tree_of_trees.md R224). -/
def readAlignedTree (g : Config) (c : Regs) : Except ReadStop Regs := do
  let (ls, p) ← readRun g g.params.alignedLenBits c.bitpos alignedSymbols
  let tree ← liftFault (buildTree ls)
  return { c with bitpos := p, alLen := ls, alignedTree := some tree }

/-- VerbatimHeader (44_block.md R300). -/
def verbatimHeader (g : Config) (c : Regs) : Except ReadStop Regs := do
  let c1 ← readMainTree g c
  let c2 ← readLengthTree g c1
  return c2.enter .verbatim

/-- AlignedHeader (44_block.md R305). -/
def alignedHeader (g : Config) (c : Regs) : Except ReadStop Regs := do
  let c0 ← readAlignedTree g c
  let c1 ← readMainTree g c0
  let c2 ← readLengthTree g c1
  return c2.enter .aligned

/-- UncompHeader and LoadR (44_block.md R330, R331). -/
def uncompHeader (g : Config) (c : Regs) : Except ReadStop Regs := do
  let p ← liftFault (uncompAlign g c.bitpos)
  let (v0, p0) ← readU32LE g p
  let (v1, p1) ← readU32LE g p0
  let (v2, p2) ← readU32LE g p1
  return ((c.at p2).setCache v0 v1 v2).enter .uncomp

/-- PreambleStep (44_block.md R290). -/
def preambleStep (g : Config) (c : Regs) : Except ReadStop Regs :=
  if g.avail = 0 then .ok (c.enter .terminal)
  else if g.params.preambleE8 then do
    let (flag, p) ← readBits g c.bitpos 1
    if flag = 0 then return { c.at p with e8Flag := false, state := .await }
    else
      let (n, q) ← readField g p 32
      return { c.at q with e8Flag := true, e8Size := BitVec.ofNat 32 n, state := .await }
  else .ok (c.enter .await)

/-- AwaitStep (44_block.md R296). -/
def awaitStep (g : Config) (c : Regs) : Except ReadStop Regs :=
  if inputDone g c.bitpos then .ok (c.enter .terminal)
  else do
    let (t, p) ← readBits g c.bitpos 3
    if t = 0 ∨ 4 ≤ t then .error (.fault .invalidBlockType)
    else
      let (n, q) ← readField g p 24
      if n = 0 then .error (.fault .emptyBlock)
      else
        let c0 := { c.at q with btype := BitVec.ofNat 3 t, blockLen := BitVec.ofNat 24 n }
        let c' ←
          if t = 1 then verbatimHeader g c0
          else if t = 2 then alignedHeader g c0
          else uncompHeader g c0
        return { c' with remaining := BitVec.ofNat 24 n }

/-- The length of a match with length header lh (44_block.md R310, R313). -/
def readMatchLength (g : Config) (c : Regs) (lh pos : Nat) : Except ReadStop (Nat × Nat) :=
  if lh = 7 then do
    let (ls, p) ← decodeSymbol g c.lengthTree pos
    return (9 + ls, p)
  else .ok (lh + 2, pos)

/-- ReadFooter (44_block.md R314, R315). -/
def readFooter (g : Config) (c : Regs) (slot pos : Nat) : Except ReadStop (Nat × Nat) :=
  let fb := footerBits slot
  if c.state = .aligned ∧ 3 ≤ fb then do
    let (hi, p) ← readField g pos (fb - 3)
    let (lo, q) ← decodeSymbol g c.alignedTree p
    return (hi * 8 + lo, q)
  else readField g pos fb

/-- ReadExtLen (44_block.md R316). -/
def readExtLen (g : Config) (pos : Nat) : Except ReadStop (Nat × Nat) := do
  let (b0, p0) ← readBits g pos 1
  if b0 = 0 then readBits g p0 8
  else
    let (b1, p1) ← readBits g p0 1
    if b1 = 0 then
      let (v, q) ← readBits g p1 10
      return (v + 0x100, q)
    else
      let (b2, p2) ← readBits g p1 1
      if b2 = 0 then
        let (v, q) ← readBits g p2 12
        return (v + 0x500, q)
      else readBits g p2 15

/-- MainStep (44_block.md R310). -/
def mainStep (g : Config) (c : Regs) : Except ReadStop Regs := do
  let (s, p) ← decodeSymbol g c.mainTree c.bitpos
  if s < 256 then return endOfItem (emitByte g (c.at p) (BitVec.ofNat 8 s))
  else
    let slot := (s - 256) / 8
    let (n, p1) ← readMatchLength g c ((s - 256) % 8) p
    let (f, p2) ← if slot < 3 then .ok (0, p1) else readFooter g c slot p1
    let (ext, p3) ← if g.params.extLen ∧ n = 257 then readExtLen g p2 else .ok (0, p2)
    let c' ← liftFault (doMatch g (c.at p3) slot (n + ext) f)
    return endOfItem c'

/-- UncompStep (44_block.md R332, R334). -/
def uncompStep (g : Config) (c : Regs) : Except ReadStop Regs := do
  let (b, p) ← readRawByte g c.bitpos
  let c' := emitByte g (c.at p) b
  return if c'.remaining = 0 then { c' with bitpos := clampWord g c'.bitpos, state := .await } else c'

/-- Step(S) (45_chunk_driver.md R343); none in TERMINAL. -/
def specStep (g : Config) (c : Regs) : Option (Except ReadStop Regs) :=
  match c.state with
  | .preamble => some (preambleStep g c)
  | .await => some (awaitStep g c)
  | .verbatim => some (mainStep g c)
  | .aligned => some (mainStep g c)
  | .uncomp => some (uncompStep g c)
  | .terminal => none

/-- What a Step's result makes of the machine (45_chunk_driver.md R345, 60_exceptions.md R372). -/
def stepResult (s : State) : Except ReadStop Regs → Host.Outcome State Fault Refusal
  | .ok c => .next (s.commit c)
  | .error (.fault k) => .next (s.takeFault k)
  | .error .unaligned => .refused .rawReadUnaligned
  | .error .absent => .refused .treeAbsent

end Sys2Proof.Machine
end

