-- ==== Sys2Proof/Machine/Flags.lean ====
section
/-! DEFINITION. The core has no condition codes (10_state.md R60). Its status is the read-only view of 10_state.md R61,
with the codes of STATE (R54) and FAULT (60_exceptions.md R370). -/

namespace Sys2Proof.Machine

/-- The status encoding of STATE (10_state.md R54). -/
def BlockState.code : BlockState → Nat
  | .preamble => 0
  | .await => 1
  | .verbatim => 2
  | .aligned => 3
  | .uncomp => 4
  | .terminal => 5

/-- The fault codes 1 to 9 (60_exceptions.md R370). -/
def faultCode : FaultKind → BitVec 4
  | .inputExhausted => 1
  | .invalidCode => 2
  | .invalidBlockType => 3
  | .invalidOffset => 4
  | .invalidLength => 5
  | .blockOverrun => 6
  | .chunkOverrun => 7
  | .emptyBlock => 8
  | .invalidConfig => 9

/-- FAULT as a 4-bit register: 0 for no fault (10_state.md R57). -/
def Regs.faultReg (c : Regs) : BitVec 4 :=
  match c.fault with
  | none => 0
  | some k => faultCode k

/-- The named read-only status fields (10_state.md R61). -/
structure Status where
  state : Nat
  fault : BitVec 4
  e8Flag : Bool
  e8Size : U32
  bitpos : Nat
  produced : Nat
  r0 : U32
  r1 : U32
  r2 : U32
  btype : BitVec 3
  blockLen : U24
  remaining : U24
  deriving DecidableEq, Repr

/-- What the host reads between commands (10_state.md R61, 45_chunk_driver.md R340): the registers after the last
completed Step. -/
def statusView (s : State) : Status where
  state := s.regs.state.code
  fault := s.regs.faultReg
  e8Flag := s.regs.e8Flag
  e8Size := s.regs.e8Size
  bitpos := s.regs.bitpos
  produced := s.regs.produced
  r0 := s.regs.r0
  r1 := s.regs.r1
  r2 := s.regs.r2
  btype := s.regs.btype
  blockLen := s.regs.blockLen
  remaining := s.regs.remaining

/-- The output delivered so far: the chunks in order (20_memory.md R85, 45_chunk_driver.md R346). -/
def output (s : State) : List Byte :=
  s.results.flatMap fun r =>
    match r with
    | .chunk bytes => bytes
    | .none => []
    | .error _ => []

end Sys2Proof.Machine
end

