-- ==== Sys2Proof/Safety.lean ====
section
/-! DEFINITION. What counts as a safe run: the invariants of 10_state.md R59 with what makes every step keep them, and
the two ends of a run (70_reset_and_hazards.md R440). -/

namespace Sys2Proof.Machine

/-- Every tree that is present is what Build makes of the array (10_state.md R53). -/
def builtFrom (lens : List Nat) (tree : Option Tree) : Prop := ∀ t, tree = some t → buildTree lens = .ok t

/-- What holds of the registers at a Step boundary and inside a Step: the canonical window, 10_state.md R59 (b), (c), (f),
(g) and (h), and the sizes and ranges of the length arrays (R49 to R52). -/
structure Regs.Ok (g : Config) (c : Regs) : Prop where
  window : Memory.wf c.win = true
  cursor : c.wpos = c.produced % g.capacity
  history : ∀ d, 1 ≤ d → d ≤ c.hist g → (winRead c.win (behind g c.wpos d)).isSome = true
  owed : c.remaining.toNat ≤ c.blockLen.toNat
  nothingOwed : c.state = .preamble ∨ c.state = .await ∨ c.state = .terminal → c.remaining = 0
  filled : c.chunkFill = c.chunkBuf.length
  room : c.chunkFill ≤ g.params.chunkSize
  mainLens : c.mainLen.length = g.nmain ∧ ∀ l ∈ c.mainLen, l ≤ maxCodeLen
  lengthLens : c.lenLen.length = g.params.numLengthSymbols ∧ ∀ l ∈ c.lenLen, l ≤ maxCodeLen
  alignedLens : c.alLen.length = alignedSymbols ∧ ∀ l ∈ c.alLen, l < 2 ^ g.params.alignedLenBits
  pretreeLens : c.ptLen.length = pretreeSymbols ∧ ∀ l ∈ c.ptLen, l < 2 ^ pretreeLenBits
  alignedBuilt : builtFrom c.alLen c.alignedTree
  pretreeBuilt : builtFrom c.ptLen c.preTree

/-- What holds of the registers at a Step boundary: 10_state.md R59 (a), (c), (d), (e), R43 and R53. -/
structure Regs.Inv (g : Config) (c : Regs) : Prop where
  ok : c.Ok g
  inInput : c.bitpos ≤ 8 * g.len
  mainBuilt : builtFrom c.mainLen c.mainTree
  lengthBuilt : builtFrom c.lenLen c.lengthTree
  inBlock : c.state = .verbatim ∨ c.state = .aligned ∨ c.state = .uncomp → c.remaining ≠ 0
  trees : c.state = .verbatim ∨ c.state = .aligned → c.mainTree.isSome = true ∧ c.lengthTree.isSome = true
  alignedTree : c.state = .aligned → c.alignedTree.isSome = true
  byteAligned : c.state = .uncomp → c.bitpos % 8 = 0

/-- Inside a header (44_block.md R296) the working registers c differ from the committed ones in the cursor, the block's
type and length, the length arrays and the trees only. -/
structure HeaderWork (g : Config) (base c : Regs) : Prop where
  waiting : base.state = .await
  ok : c.Ok g
  blockLen : c.blockLen ≠ 0
  same : c = { base with
    bitpos := c.bitpos, btype := c.btype, blockLen := c.blockLen, mainLen := c.mainLen, lenLen := c.lenLen,
    alLen := c.alLen, ptLen := c.ptLen, mainTree := c.mainTree, lengthTree := c.lengthTree,
    alignedTree := c.alignedTree, preTree := c.preTree }

/-- Inside a tree read: the block's type is Verbatim, or AlignedOffset with its aligned tree built, and the length tree
is read after the main tree is built (44_block.md R300, R305). -/
structure TreeWork (g : Config) (base c : Regs) (t : Target) : Prop where
  header : HeaderWork g base c
  block : c.btype = 1 ∨ (c.btype = 2 ∧ c.alignedTree.isSome = true)
  main : t = .lengths → c.mainTree.isSome = true ∧ builtFrom c.mainLen c.mainTree
  inInput : c.bitpos ≤ 8 * g.len

/-- Inside a main item (44_block.md R310) only the cursor has moved. -/
structure ItemWork (g : Config) (base c : Regs) : Prop where
  block : base.state = .verbatim ∨ base.state = .aligned
  same : c = base.at c.bitpos
  inInput : c.bitpos ≤ 8 * g.len

/-- The working registers c fit the phase of a Step that began at the committed registers `base`. -/
def phaseInv (g : Config) (base c : Regs) : Phase → Prop
  | .preamble => base.state = .preamble ∧ c = base.at c.bitpos ∧ c.bitpos ≤ 8 * g.len
  | .header => base.state = .await ∧ c = base.at c.bitpos ∧ c.bitpos ≤ 8 * g.len
  | .altree => HeaderWork g base c ∧ c.btype = 2 ∧ c.bitpos ≤ 8 * g.len
  | .pretree t => TreeWork g base c t
  | .ptOp t i => TreeWork g base c t ∧ c.preTree.isSome = true ∧ t.first ≤ i ∧ i < t.last g
  | .uncompR => HeaderWork g base c ∧ c.btype = 3 ∧ c.mainLen = base.mainLen ∧ c.lenLen = base.lenLen
      ∧ c.mainTree = base.mainTree ∧ c.lengthTree = base.lengthTree ∧ c.bitpos % 8 = 0
  | .mainSym => ItemWork g base c
  | .lenSym _ => ItemWork g base c
  | .footerV slot _ => ItemWork g base c ∧ base.state = .verbatim ∧ 3 ≤ slot
  | .footerA slot _ => ItemWork g base c ∧ base.state = .aligned ∧ 3 ≤ slot
  | .alignedLo slot _ _ => ItemWork g base c ∧ base.state = .aligned ∧ 3 ≤ footerBits slot
  | .extLen _ n _ => ItemWork g base c ∧ g.params.extLen = true ∧ n = 257
  | .raw => base.state = .uncomp ∧ c = base.at c.bitpos ∧ c.bitpos ≤ 8 * g.len ∧ c.bitpos % 8 = 0
  | .oddPad => base.state = .uncomp ∧ c.Ok g ∧ c.remaining = 0 ∧ c.bitpos % 8 = 0 ∧ c.bitpos < clampWord g c.bitpos
      ∧ c = { base with
          bitpos := c.bitpos, win := c.win, wpos := c.wpos, produced := c.produced, remaining := c.remaining,
          chunkFill := c.chunkFill, chunkBuf := c.chunkBuf }

/-- The invariant of the machine: 10_state.md R59 at every Step boundary, and inside a Step what carries it to the next. -/
structure State.Inv (s : State) : Prop where
  regs : s.regs.Inv s.cfg
  valid : s.regs.fault = none → s.cfg.valid = true
  idle : s.running = false → s.work = none
  live : s.running = true → s.regs.fault = none ∧ s.regs.state ≠ .terminal
  inStep : ∀ w, s.work = some w →
    s.regs.chunkFill < s.cfg.params.chunkSize ∧ phaseInv s.cfg s.regs w.regs w.phase

/-- The bit cursor of a Step in progress is not before the one the Step began at (10_state.md R42). -/
def State.Forward (s : State) : Prop := ∀ w, s.work = some w → s.regs.bitpos ≤ w.regs.bitpos

/-- The checks of DoMatch pass (43_window.md R266, R267). -/
def matchFits (g : Config) (c : Regs) (off n : Nat) : Prop :=
  1 ≤ off ∧ off ≤ c.hist g ∧ n ≤ c.remaining.toNat ∧ c.chunkFill + n ≤ g.params.chunkSize

/-- Instruction i ends a match of the given slot, length and footer: the cache is updated, the copy made, and the block's
end tested (43_window.md R269, 44_block.md R312). -/
def completesMatch (i : Instr) (s : State) (c : Regs) (slot n f : Nat) : Prop :=
  ∃ c', copyMatch s.cfg (matchOffset c slot f) n (updateCache s.cfg c slot f) = .ok c'
    ∧ exec i s = .next { s with regs := if c'.remaining = 0 then { c' with state := .await } else c', work := none }

/-- The registers' window is the end of the output `out`: PRODUCED bytes, of which the last HIST stand behind the write
cursor (10_state.md R46, R48, 20_memory.md R78, R85). -/
def historyOk (g : Config) (out : List Byte) (c : Regs) : Prop :=
  out.length = c.produced
    ∧ ∀ d, 1 ≤ d → d ≤ c.hist g → ∃ b, winRead c.win (behind g c.wpos d) = some b ∧ out[out.length - d]? = some b

/-- The output delivered, with the chunk in progress, is what the window and PRODUCED say (20_memory.md R85). -/
def State.History (s : State) : Prop :=
  s.regs.fault = none →
    historyOk s.cfg (output s ++ if s.running then s.regs.chunkBuf else []) s.regs
      ∧ ∀ w, s.work = some w → historyOk s.cfg (output s ++ w.regs.chunkBuf) w.regs

/-- The registers with the translation registers at (flag, size) (10_state.md R56). -/
def Regs.withE8 (c : Regs) (flag : Bool) (size : U32) : Regs := { c with e8Flag := flag, e8Size := size }

/-- The machine with the translation registers at (flag, size), in the Step in progress too. -/
def State.withE8 (s : State) (flag : Bool) (size : U32) : State :=
  { s with
    regs := s.regs.withE8 flag size
    work := s.work.map fun w => ⟨w.regs.withE8 flag size, w.phase⟩ }

/-- A normal end of a run (70_reset_and_hazards.md R440): None has been handed back. -/
def endedNormally (s : State) : Prop :=
  s.running = false ∧ s.regs.state = .terminal ∧ s.regs.fault = none ∧ s.results.getLast? = some .none

/-- An abnormal end of a run (70_reset_and_hazards.md R440): Error(k) has been handed back, and FAULT is k. -/
def endedAbnormally (s : State) : Prop :=
  s.running = false ∧ ∃ k, s.regs.fault = some k ∧ s.results.getLast? = some (.error k)

end Sys2Proof.Machine
end

