-- ==== Sys2Proof/Certificates/Slice0/Obligations.lean ====
section
/-! DEFINITION. The statements for the provers. Each docstring names the rules of spec/ it rests on. An element's meaning
acts on the working registers c of the Step in progress; a statement about an element gives the machine it leaves in full,
so that whatever it does not name is unchanged. -/

open Sys2Proof Sys2Proof.Machine

/-! ## Reset and the host's commands -/

/-- NEW with a valid configuration puts every state element at its value of 10_state.md R62. The model's own part: the
command queue stays (log entry 3), the results kept are emptied (log entry 8), a NEW in the middle of a NEXT_CHUNK does the
same (log entry 25), and a window code without an entry in the NSLOTS table has no slot (log entry 9). -/
def Obligations.NewResetsEveryElement : Prop :=
  ∀ (code : Nat) (input : List Byte) (params : Params) (s : State),
    (⟨code, input, params⟩ : Config).valid = true →
    ∃ t, exec (.new code input params) s = .next t
      ∧ t.cfg = ⟨code, input, params⟩ ∧ t.impl = s.impl ∧ t.port = s.port
      ∧ t.work = none ∧ t.running = false ∧ t.results = []
      ∧ t.regs.bitpos = 0 ∧ t.regs.r0 = 1 ∧ t.regs.r1 = 1 ∧ t.regs.r2 = 1
      ∧ (∀ i, winRead t.regs.win i = none) ∧ t.regs.wpos = 0 ∧ t.regs.produced = 0
      ∧ t.regs.mainLen = List.replicate (256 + 8 * params.nslotsTable.getD code 0) 0
      ∧ t.regs.lenLen = List.replicate params.numLengthSymbols 0
      ∧ t.regs.alLen = List.replicate 8 0 ∧ t.regs.ptLen = List.replicate 20 0
      ∧ t.regs.mainTree = none ∧ t.regs.lengthTree = none ∧ t.regs.alignedTree = none ∧ t.regs.preTree = none
      ∧ t.regs.state = .preamble ∧ t.regs.btype = 0 ∧ t.regs.blockLen = 0 ∧ t.regs.remaining = 0
      ∧ t.regs.e8Flag = false ∧ t.regs.e8Size = 0 ∧ t.regs.fault = none
      ∧ t.regs.chunkFill = 0 ∧ t.regs.chunkBuf = []

/-- NEW with an invalid configuration leaves the reset state but for FAULT = InvalidConfig, and every NEXT_CHUNK on such
registers answers that error; a valid one has no fault; a session without input answers None at once
(45_chunk_driver.md R341). The model's own part: a window code without an entry in the NSLOTS table has no slot, a refused
code above 6 among them (log entry 9), and the results are kept (log entry 8). -/
def Obligations.NewChecksItsConfiguration : Prop :=
  ∀ (code : Nat) (input : List Byte) (params : Params) (s : State),
    let g : Config := ⟨code, input, params⟩
    let bad := 6 < code ∨ params.chunkSize = 0 ∨ (params.pt17Bits ≠ 3 ∧ params.pt17Bits ≠ 4)
      ∨ (params.rep2Policy ≠ .rotate ∧ params.rep2Policy ≠ .swap)
      ∨ (params.mainTreeParts ≠ 1 ∧ params.mainTreeParts ≠ 2) ∨ params.numLengthSymbols = 0
      ∨ params.alignedLenBits < 1 ∨ 4 < params.alignedLenBits
    g.capacity = 2 ^ (15 + code) ∧ g.nmain = 256 + 8 * params.nslotsTable.getD code 0 ∧ g.len = input.length
      ∧ g.avail = 16 * (input.length / 2)
      ∧ (bad → ∃ t, exec (.new code input params) s = .next t ∧ t.cfg = g
          ∧ t.regs = { freshRegs g with fault := some .invalidConfig } ∧ t.regs.faultReg = 9
          ∧ ∀ u : State, u.regs = t.regs → u.running = false →
              exec .nextChunk u = .next { u with results := u.results ++ [.error .invalidConfig] })
      ∧ (¬ bad → ∃ t, exec (.new code input params) s = .next t ∧ t.cfg = g ∧ t.regs = freshRegs g ∧ t.regs.faultReg = 0
          ∧ (input = [] → nextChunkCall t =
              .next { t with regs := { freshRegs g with state := .terminal }, results := [.none] }))

/-- NEXT_CHUNK between commands (45_chunk_driver.md R345): the sticky error, None in TERMINAL, else the chunk registers
are cleared and the loop begins. -/
def Obligations.NextChunkBegins : Prop :=
  ∀ s : State, s.running = false →
    (∀ k, s.regs.fault = some k → exec .nextChunk s = .next { s with results := s.results ++ [.error k] })
      ∧ (s.regs.fault = none → s.regs.state = .terminal →
          exec .nextChunk s = .next { s with results := s.results ++ [.none] })
      ∧ (s.regs.fault = none → s.regs.state ≠ .terminal →
          exec .nextChunk s =
            .next { s with regs := { s.regs with chunkFill := 0, chunkBuf := [] }, running := true })

/-- A full chunk is returned by the size test before the next Step, after ChunkRealign (45_chunk_driver.md R345, R348). -/
def Obligations.FullChunkIsReturned : Prop :=
  ∀ s : State, s.running = true → s.work = none → s.regs.fault = none →
    s.regs.chunkFill = s.cfg.params.chunkSize →
    step s = .next { s with
      regs := { s.regs with
        bitpos :=
          if s.cfg.params.chunkRealign = true
              ∧ (s.regs.state = .await ∨ s.regs.state = .verbatim ∨ s.regs.state = .aligned) then
            min (roundup s.regs.bitpos 16) (8 * s.cfg.len)
          else s.regs.bitpos }
      running := false
      results := s.results ++ [.chunk s.regs.chunkBuf] }

/-- What a step inside a NEXT_CHUNK hands back (45_chunk_driver.md R345, R346): nothing while the command goes on; a Chunk
of 1 to CHUNK_SIZE bytes when the chunk is full or the stream has ended; None at the end of the stream with no byte pending;
the Error that FAULT names. -/
def Obligations.ResultsOfNextChunk : Prop :=
  ∀ s t : State, s.Inv → s.running = true → step s = .next t →
    (t.running = true ∧ t.results = s.results)
      ∨ (t.running = false
          ∧ ((t.results = s.results ++ [.chunk t.regs.chunkBuf] ∧ 1 ≤ t.regs.chunkBuf.length
                ∧ t.regs.chunkBuf.length ≤ s.cfg.params.chunkSize ∧ t.regs.fault = none
                ∧ (t.regs.chunkBuf.length = s.cfg.params.chunkSize ∨ t.regs.state = .terminal))
            ∨ (t.results = s.results ++ [.none] ∧ t.regs.state = .terminal ∧ t.regs.fault = none
                ∧ t.regs.chunkBuf = [])
            ∨ ∃ k, t.results = s.results ++ [.error k] ∧ t.regs.fault = some k))

/-- Quiescence (70_reset_and_hazards.md R441): in TERMINAL or with FAULT ≠ 0 no NEXT_CHUNK is in progress, so no Step is
taken, and a NEXT_CHUNK changes nothing but the result it hands back. -/
def Obligations.QuiescentStateStays : Prop :=
  ∀ s : State, s.Inv → (s.regs.state = .terminal ∨ s.regs.fault ≠ none) →
    s.running = false
      ∧ exec .nextChunk s = .next { s with
          results := s.results ++ [match s.regs.fault with | some k => .error k | none => .none] }

/-- Faults are sticky and final (60_exceptions.md R373): after a fault no Step is taken, every NEXT_CHUNK answers the same
error, and only NEW changes a register; a NEW of a valid configuration has no fault. A faulted state is no normal end. -/
def Obligations.FaultsAreSticky : Prop :=
  ∀ (s : State) (k : FaultKind), s.Inv → s.regs.fault = some k →
    s.running = false
      ∧ exec .nextChunk s = .next { s with results := s.results ++ [.error k] }
      ∧ (∀ i t, exec i s = .next t → t.regs = s.regs ∨ ∃ code input params, i = .new code input params)
      ∧ (∀ code input params, (⟨code, input, params⟩ : Config).valid = true →
          ∃ t, exec (.new code input params) s = .next t ∧ t.regs.fault = none)
      ∧ ¬ endedNormally s

/-! ## The step -/

/-- A step runs the decoded instruction: the element that the grammar calls for at the bit cursor, read past its bits,
in a Step in progress and at a Step boundary; or the host's oldest command, taken from the queue. -/
def Obligations.StepRunsTheDecodedInstruction : Prop :=
  (∀ (s : State) (c : Regs) (ph : Phase) (i : Instr) (p : Nat),
      s.running = true → s.work = some ⟨c, ph⟩ → decode s.cfg (formatOf c ph) c.bitpos = .ok (i, p) →
      step s = exec i { s with work := some ⟨{ c with bitpos := p }, ph⟩ })
    ∧ (∀ (s : State) (ph : Phase) (i : Instr) (p : Nat),
        s.running = true → s.work = none → s.regs.fault = none → s.regs.chunkFill ≠ s.cfg.params.chunkSize →
        beginStep s.cfg s.regs = .element ph → decode s.cfg (formatOf s.regs ph) s.regs.bitpos = .ok (i, p) →
        step s = exec i { s with work := some ⟨{ s.regs with bitpos := p }, ph⟩ })
    ∧ ∀ (s : State) (cmd : Command) (rest : List Command),
        s.running = false → s.port = cmd :: rest → step s = exec cmd.instr { s with port := rest }

/-- A read that fails takes its fault (60_exceptions.md R372, R380), inside a Step and at the first element of one. -/
def Obligations.FailedReadTakesItsFault : Prop :=
  ∀ (s : State) (k : FaultKind), s.running = true →
    let faulted : State := { s with
      regs := { s.regs with fault := some (reportedAs s.impl k) }
      work := none
      running := false
      results := s.results ++ [.error (reportedAs s.impl k)] }
    (∀ (c : Regs) (ph : Phase), s.work = some ⟨c, ph⟩ →
        decode s.cfg (formatOf c ph) c.bitpos = .error (.fault k) → step s = .next faulted)
      ∧ ∀ ph : Phase, s.work = none → s.regs.fault = none → s.regs.chunkFill ≠ s.cfg.params.chunkSize →
          beginStep s.cfg s.regs = .element ph →
          decode s.cfg (formatOf s.regs ph) s.regs.bitpos = .error (.fault k) → step s = .next faulted

/-- The Steps that read nothing: PREAMBLE with no input word, PREAMBLE without a preamble, and AWAIT at the end of the
stream (44_block.md R290, R291, R294); a Step into TERMINAL ends the NEXT_CHUNK (45_chunk_driver.md R345). -/
def Obligations.StepsThatReadNothing : Prop :=
  ∀ s : State, s.running = true → s.work = none → s.regs.fault = none →
    s.regs.chunkFill ≠ s.cfg.params.chunkSize →
    let ended : State := { s with
      regs := { s.regs with state := .terminal }
      running := false
      results := s.results ++ [if 0 < s.regs.chunkFill then .chunk s.regs.chunkBuf else .none] }
    (s.regs.state = .preamble → s.cfg.avail = 0 → step s = .next ended)
      ∧ (s.regs.state = .preamble → s.cfg.avail ≠ 0 → s.cfg.params.preambleE8 = false →
          step s = .next { s with regs := { s.regs with state := .await } })
      ∧ (s.regs.state = .await → s.cfg.avail ≤ roundup s.regs.bitpos 16 → step s = .next ended)

/-! ## The bitstream reader -/

/-- ReadBits (40_bitstream_reader.md R142), and PeekBits (R145), which answers the sum of the same bits and no cursor. -/
def Obligations.ReadBitsTakesTheNextBits : Prop :=
  ∀ (g : Config) (pos n : Nat), 1 ≤ n → n ≤ 16 →
    (g.avail < pos + n → readBits g pos n = .error (.fault .inputExhausted))
      ∧ (pos + n ≤ g.avail → ∃ v, readBits g pos n = .ok (v, pos + n) ∧ v < 2 ^ n
          ∧ (∀ i, i < n → v.testBit (n - 1 - i) = g.bit (pos + i))
          ∧ (n = 16 → pos % 16 = 0 → v = g.word (pos / 16)))
      ∧ peekBits g pos n =
          if g.avail < pos + n then .error (.fault .inputExhausted)
          else .ok ((List.range n).map fun i => (g.bit (pos + i)).toNat * 2 ^ (n - 1 - i)).sum

/-- ReadField (40_bitstream_reader.md R144): the next n bits as one number, however the read is split. -/
def Obligations.ReadFieldIsOneNumber : Prop :=
  ∀ (g : Config) (pos n : Nat), n ≤ 32 →
    (n = 0 → readField g pos n = .ok (0, pos))
      ∧ (n ≠ 0 → g.avail < pos + n → readField g pos n = .error (.fault .inputExhausted))
      ∧ (n ≠ 0 → pos + n ≤ g.avail → ∃ v, readField g pos n = .ok (v, pos + n) ∧ v < 2 ^ n
          ∧ (∀ i, i < n → v.testBit (n - 1 - i) = g.bit (pos + i))
          ∧ ∀ m, 1 ≤ m → m < n → m ≤ 16 → n - m ≤ 16 →
              ∃ hi lo, readBits g pos m = .ok (hi, pos + m) ∧ readBits g (pos + m) (n - m) = .ok (lo, pos + n)
                ∧ v = hi * 2 ^ (n - m) + lo)

/-- AlignWord and Align32 (40_bitstream_reader.md R146, R147, 00_scope.md R30): the least multiple that is not before the
cursor; and InputDone (R150): no complete unread word remains. -/
def Obligations.AlignmentAndInputDone : Prop :=
  ∀ (g : Config) (pos : Nat),
    alignWord pos % 16 = 0 ∧ pos ≤ alignWord pos ∧ (∀ m, m % 16 = 0 → pos ≤ m → alignWord pos ≤ m)
      ∧ align32 pos % 32 = 0 ∧ pos ≤ align32 pos ∧ (∀ m, m % 32 = 0 → pos ≤ m → align32 pos ≤ m)
      ∧ (pos % 16 = 0 → align32 pos = pos ∨ align32 pos = pos + 16)
      ∧ (inputDone g pos = true ↔ g.avail ≤ roundup pos 16)
      ∧ (inputDone g pos = true ↔ ¬ ∃ w, pos ≤ 16 * w ∧ 16 * w + 16 ≤ g.avail)

/-- The raw reads are reads of the input memory (40_bitstream_reader.md R148, R149, 20_memory.md R72), and a cursor
that is no multiple of 8 is refused (20_memory.md R79). -/
def Obligations.RawReadsAreMemoryReads : Prop :=
  ∀ (g : Config) (pos : Nat),
    (pos % 8 ≠ 0 → readRawByte g pos = .error .unaligned ∧ readU32LE g pos = .error .unaligned)
      ∧ (pos % 8 = 0 → readRawByte g pos = (memRead g (pos / 8) 1).map fun v => (BitVec.ofNat 8 v, pos + 8))
      ∧ (pos % 8 = 0 → readU32LE g pos = (memRead g (pos / 8) 4).map fun v => (BitVec.ofNat 32 v, pos + 32))
      ∧ (∀ a, g.len < a + 1 → memRead g a 1 = .error (.fault .inputExhausted))
      ∧ (∀ a, g.len < a + 4 → memRead g a 4 = .error (.fault .inputExhausted))
      ∧ (∀ a, a + 1 ≤ g.len → memRead g a 1 = .ok (g.byteAt a).toNat)
      ∧ ∀ a, a + 4 ≤ g.len → memRead g a 4 =
          .ok ((g.byteAt a).toNat + 256 * (g.byteAt (a + 1)).toNat + 256 ^ 2 * (g.byteAt (a + 2)).toNat
            + 256 ^ 3 * (g.byteAt (a + 3)).toNat)

/-- The bit view and the byte view of one word (20_memory.md R71, R73, R75): the first eight bits are the byte at the odd
address, most-significant bit first, and the last eight the byte at the even address; a raw read at the word's address
gives the byte at the even address. -/
def Obligations.BitViewOfAWord : Prop :=
  ∀ (g : Config) (w k : Nat), k < 8 →
    g.word w = (g.byteAt (2 * w)).toNat + 256 * (g.byteAt (2 * w + 1)).toNat
      ∧ g.bit (16 * w + k) = (g.byteAt (2 * w + 1)).getLsbD (7 - k)
      ∧ g.bit (16 * w + 8 + k) = (g.byteAt (2 * w)).getLsbD (7 - k)
      ∧ (2 * w < g.len → readRawByte g (16 * w) = .ok (g.byteAt (2 * w), 16 * w + 8))

/-! ## Huffman trees -/

/-- Build accepts every array whose Kraft sum is at most 2^16 and rejects the others (41_huffman.md R171, R172). -/
def Obligations.BuildAcceptsByKraftSum : Prop :=
  ∀ lens : List Nat, (∀ l ∈ lens, l ≤ 16) →
    let sum := ((lens.filter fun l => l ≠ 0).map fun l => 2 ^ (16 - l)).sum
    (2 ^ 16 < sum → buildTree lens = .error .invalidCode) ∧ (sum ≤ 2 ^ 16 → ∃ t, buildTree lens = .ok t)

/-- The codes Build assigns (41_huffman.md R173, R175): one for each used symbol, of its length, consecutive in symbol
order within a length from the first code of that length; and no code is a prefix of another. -/
def Obligations.BuildAssignsCanonicalCodes : Prop :=
  ∀ (lens : List Nat) (t : Tree), (∀ l ∈ lens, l ≤ 16) → buildTree lens = .ok t →
    (∀ i, i < lens.length → lens.getD i 0 ≠ 0 → ∃ e ∈ t.codes, e.sym = i)
      ∧ (∀ e ∈ t.codes, lens[e.sym]? = some e.len ∧ e.len ≠ 0 ∧ e.code < 2 ^ e.len
          ∧ e.code = firstCode lens e.len + (lens.take e.sym).count e.len)
      ∧ firstCode lens 1 = 0
      ∧ (∀ l, 1 ≤ l → firstCode lens (l + 1) = 2 * (firstCode lens l + lens.count l))
      ∧ (∀ e ∈ t.codes, ∀ e' ∈ t.codes, e ≠ e' → e.len ≤ e'.len → e'.code / 2 ^ (e'.len - e.len) ≠ e.code)
      ∧ (∀ l ∈ lens, l ≤ t.lmax) ∧ (t.lmax = 0 ∨ t.lmax ∈ lens)

/-- Decode (41_huffman.md R178): the symbol whose code stands at the cursor; no code within LMAX bits is InvalidCode, and
the end of the stream before a code is InputExhausted. An absent tree is refused (41_huffman.md R177). -/
def Obligations.DecodeFindsTheCodeAtTheCursor : Prop :=
  ∀ (g : Config) (lens : List Nat) (t : Tree) (pos : Nat), (∀ l ∈ lens, l ≤ 16) → buildTree lens = .ok t →
    let stands := fun e : Code => (Encoding.bits (fieldBits e.code e.len)).standsAt g pos
    (∀ e ∈ t.codes, stands e → decodeSymbol g (some t) pos = .ok (e.sym, pos + e.len))
      ∧ (t.lmax = 0 → decodeSymbol g (some t) pos = .error (.fault .invalidCode))
      ∧ (t.lmax ≠ 0 → (∀ e ∈ t.codes, ¬ stands e) →
          decodeSymbol g (some t) pos =
            .error (.fault (if pos + t.lmax ≤ g.avail then .invalidCode else .inputExhausted)))
      ∧ decodeSymbol g none pos = .error .absent

/-! ## Decoding and encoding -/

/-- Decode and encode agree: for every element of a session's format, at every value of its fields, decoding its encoding
gives it back and moves the cursor past it (30_encoding.md R100 to R112). -/
def Obligations.DecodeOfEncode : Prop :=
  ∀ (g : Config) (fmt : Format) (i : Instr) (e : Encoding) (pos : Nat),
    g.valid = true → fmt.fits g → wellFormed g i = true → encode g fmt i = some e → e.standsAt g pos →
    decode g fmt pos = .ok (i, pos + e.size)

/-- Whatever decodes is an element of the session's format, and its encoding is what stands at the cursor
(30_encoding.md R100 to R113). -/
def Obligations.EncodeOfDecode : Prop :=
  ∀ (g : Config) (fmt : Format) (i : Instr) (pos p : Nat),
    g.valid = true → fmt.fits g → decode g fmt pos = .ok (i, p) →
    wellFormed g i = true ∧ ∃ e, encode g fmt i = some e ∧ e.standsAt g pos ∧ p = pos + e.size

/-- Words written out from the spec's encodings decode to their elements: F-PRE, F-HDR, an extended length, and raw bytes
(30_encoding.md R102 to R104, 44_block.md R316, R331, R332). -/
def Obligations.KnownWordsDecode : Prop :=
  let g : List Byte → Config := fun input => ⟨0, input, { Params.defaults with extLen := true }⟩
  decode (g [0x1a, 0x89, 0x3c, 0x2b, 0x00, 0x30]) .preamble 0 = .ok (.preamble1 0x12345678, 33)
    ∧ decode (g [0x00, 0x30, 0x40, 0x00]) .header 1 = .ok (.blockUncomp 4, 28)
    ∧ decode (g [0x00, 0x50, 0x50, 0x00]) .header 1 = .ok (.blockInvalid4 1, 4)
    ∧ decode (g [0x80, 0x08]) .extLen 0 = .ok (.extLen0 0x11, 9)
    ∧ decode (g [2, 0, 0, 0, 3, 0, 0, 0, 4, 0, 0, 0]) .uncompR 0 = .ok (.uncompR 2 3 4, 96)
    ∧ decode (g [0x34, 0x12]) .raw 0 = .ok (.raw 0x34, 8)

/-! ## Preamble and block headers -/

/-- `PREAMBLE` (44_block.md R290): E8_FLAG, with E8_SIZE where the flag is 1, and STATE AWAIT; the Step ends. -/
def Obligations.PreambleSetsTheTranslationRegisters : Prop :=
  ∀ (s : State) (c : Regs), s.work = some ⟨c, .preamble⟩ →
    exec .preamble0 s = .next { s with regs := { c with e8Flag := false, state := .await }, work := none }
      ∧ ∀ size, exec (.preamble1 size) s =
          .next { s with regs := { c with e8Flag := true, e8Size := size, state := .await }, work := none }

/-- A valid compressed header (44_block.md R296, R300, R305): BTYPE and BLOCK_LEN in the working registers, and the first
tree comes next; the committed registers stay. -/
def Obligations.CompressedHeadersGoOn : Prop :=
  ∀ (s : State) (c : Regs) (n : U24), s.work = some ⟨c, .header⟩ → n ≠ 0 →
    exec (.blockVerbatim n) s =
        .next { s with work := some ⟨{ c with btype := 1, blockLen := n },
          .pretree (if s.cfg.params.mainTreeParts = 2 then .mainLiterals else .mainWhole)⟩ }
      ∧ exec (.blockAligned n) s = .next { s with work := some ⟨{ c with btype := 2, blockLen := n }, .altree⟩ }

/-- An Uncompressed header (44_block.md R330): the cursor goes to a word boundary, or past a whole word where the session
says so and it stands on one, then to a 32-bit boundary where the session says so; skipping past AVAIL is
InputExhausted. That the alignment belongs to this element and not to `UNCOMP.R` is the model's (log entry 19). -/
def Obligations.UncompressedHeaderAligns : Prop :=
  ∀ (s : State) (c : Regs) (n : U24), s.work = some ⟨c, .header⟩ → n ≠ 0 →
    let skip := s.cfg.params.uncompPad16IfAligned = true ∧ c.bitpos % 16 = 0
    let word := if skip then c.bitpos + 16 else roundup c.bitpos 16
    let aligned := if s.cfg.params.uncompAlign32 = true then roundup word 32 else word
    (¬ skip ∨ c.bitpos + 16 ≤ s.cfg.avail →
        exec (.blockUncomp n) s =
          .next { s with work := some ⟨{ c with btype := 3, blockLen := n, bitpos := aligned }, .uncompR⟩ })
      ∧ (skip → s.cfg.avail < c.bitpos + 16 →
          exec (.blockUncomp n) s = .next (s.takeFault .inputExhausted))

/-- The illegal headers (44_block.md R296): a block type of 0 or of 4 and up is InvalidBlockType, and a length of 0 is
EmptyBlock; the fault entry changes no register but FAULT. -/
def Obligations.IllegalHeadersFault : Prop :=
  ∀ (s : State) (c : Regs), s.work = some ⟨c, .header⟩ →
    let faulted : FaultKind → State := fun k => { s with
      regs := { s.regs with fault := some k }
      work := none
      running := false
      results := s.results ++ [.error k] }
    exec .blockInvalid0 s = .next (faulted .invalidBlockType)
      ∧ (∀ t, exec (.blockInvalid4 t) s = .next (faulted .invalidBlockType))
      ∧ exec (.blockVerbatim 0) s = .next (faulted s.impl.emptyBlockAs)
      ∧ exec (.blockAligned 0) s = .next (faulted s.impl.emptyBlockAs)
      ∧ exec (.blockUncomp 0) s = .next (faulted s.impl.emptyBlockAs)

/-! ## Trees -/

/-- `PRETREE` (42_tree_of_trees.md R201, R202): PT_LEN and PRETREE, and the first op of its range comes next, or the end of
a range that is empty; over-subscribed lengths are InvalidCode. -/
def Obligations.PretreeIsBuilt : Prop :=
  ∀ (s : State) (c : Regs) (t : Target) (lens : List (BitVec 4)), s.work = some ⟨c, .pretree t⟩ →
    let ls := lens.map BitVec.toNat
    (kraft ls ≤ 2 ^ 16 → ∃ tree, buildTree ls = .ok tree
        ∧ (t.first < t.last s.cfg → exec (.pretree lens) s =
            .next { s with work := some ⟨{ c with ptLen := ls, preTree := some tree }, .ptOp t t.first⟩ })
        ∧ (t.last s.cfg ≤ t.first → exec (.pretree lens) s =
            rangeDone s { c with ptLen := ls, preTree := some tree } t))
      ∧ (2 ^ 16 < kraft ls → exec (.pretree lens) s = .next (s.takeFault .invalidCode))

/-- `PT.DELTA s` (42_tree_of_trees.md R202 to R205): one entry, from its previous length; every other entry and register
stays. The next op follows, or the range ends. The new length is in 0..16, s = 0 leaves it, and every length is reachable
from every length. -/
def Obligations.PtDeltaUpdatesOneEntry : Prop :=
  ∀ (s : State) (c : Regs) (t : Target) (i sym : Nat),
    s.work = some ⟨c, .ptOp t i⟩ → c.Ok s.cfg → i < t.last s.cfg →
    ∃ arr u, exec (.ptDelta sym) s = .next u
      ∧ arr.length = (t.array c).length
      ∧ (∀ k, arr.getD k 0 = if k = i then ((t.array c).getD i 0 + 17 - sym) % 17 else (t.array c).getD k 0)
      ∧ (i + 1 < t.last s.cfg → u = { s with work := some ⟨t.put c arr, .ptOp t (i + 1)⟩ })
      ∧ (i + 1 = t.last s.cfg → rangeDone s (t.put c arr) t = .next u)
      ∧ arr.getD i 0 ≤ 16
      ∧ (sym = 0 → arr = t.array c)
      ∧ ∀ v, v ≤ 16 → ∃ x, x ≤ 16 ∧ ((t.array c).getD i 0 + 17 - x) % 17 = v

/-- `PT.ZRUN4 z` and `PT.ZRUN20 z` (42_tree_of_trees.md R206, R207): 4 + z or 20 + z zeros from index i on, every other
entry and register unchanged; a run past the end of its range is InvalidLength. -/
def Obligations.ZeroRunsClearTheirEntries : Prop :=
  ∀ (s : State) (c : Regs) (t : Target) (i n : Nat) (op : Instr),
    s.work = some ⟨c, .ptOp t i⟩ → c.Ok s.cfg →
    ((∃ z, op = .ptZrun4 z ∧ n = 4 + z.toNat) ∨ ∃ z, op = .ptZrun20 z ∧ n = 20 + z.toNat) →
    (i + n ≤ t.last s.cfg → ∃ arr u, exec op s = .next u
        ∧ arr.length = (t.array c).length
        ∧ (∀ k, arr.getD k 0 = if i ≤ k ∧ k < i + n then 0 else (t.array c).getD k 0)
        ∧ (i + n < t.last s.cfg → u = { s with work := some ⟨t.put c arr, .ptOp t (i + n)⟩ })
        ∧ (i + n = t.last s.cfg → rangeDone s (t.put c arr) t = .next u))
      ∧ (t.last s.cfg < i + n → exec op s = .next (s.takeFault .invalidLength))

/-- `PT.SAME z, s` (42_tree_of_trees.md R208, 70_reset_and_hazards.md R423): 4 + z entries of one value, from the previous
length at the first of them only; a value symbol above 16, then a run past the end, is InvalidLength. -/
def Obligations.SameRunRepeatsOneLength : Prop :=
  ∀ (s : State) (c : Regs) (t : Target) (i sym : Nat) (z : BitVec 1),
    s.work = some ⟨c, .ptOp t i⟩ → c.Ok s.cfg →
    let n := 4 + z.toNat
    (sym ≤ 16 → i + n ≤ t.last s.cfg → ∃ arr u, exec (.ptSame z sym) s = .next u
        ∧ arr.length = (t.array c).length
        ∧ (∀ k, arr.getD k 0 =
            if i ≤ k ∧ k < i + n then ((t.array c).getD i 0 + 17 - sym) % 17 else (t.array c).getD k 0)
        ∧ (i + n < t.last s.cfg → u = { s with work := some ⟨t.put c arr, .ptOp t (i + n)⟩ })
        ∧ (i + n = t.last s.cfg → rangeDone s (t.put c arr) t = .next u))
      ∧ (16 < sym ∨ t.last s.cfg < i + n → exec (.ptSame z sym) s = .next (s.takeFault .invalidLength))

/-- The end of a range (42_tree_of_trees.md R220, R222, 44_block.md R296, R300, R305): the literal part is followed by
the match part; a whole main array is built and the length tree follows; the length array is built and the block begins,
its REMAINING at its length; an over-subscribed array is InvalidCode. -/
def Obligations.FullRangesAreBuilt : Prop :=
  ∀ (s : State) (c : Regs),
    rangeDone s c .mainLiterals = .next { s with work := some ⟨c, .pretree .mainMatches⟩ }
      ∧ (∀ tree, buildTree c.mainLen = .ok tree →
          rangeDone s c .mainMatches = .next { s with work := some ⟨{ c with mainTree := some tree }, .pretree .lengths⟩ }
            ∧ rangeDone s c .mainWhole =
                .next { s with work := some ⟨{ c with mainTree := some tree }, .pretree .lengths⟩ })
      ∧ (∀ tree, buildTree c.lenLen = .ok tree →
          rangeDone s c .lengths = .next { s with
            regs := { c with
              lengthTree := some tree
              remaining := c.blockLen
              state := if c.btype = 2 then .aligned else .verbatim }
            work := none })
      ∧ (2 ^ 16 < kraft c.mainLen →
          rangeDone s c .mainMatches = .next (s.takeFault .invalidCode)
            ∧ rangeDone s c .mainWhole = .next (s.takeFault .invalidCode))
      ∧ (2 ^ 16 < kraft c.lenLen → rangeDone s c .lengths = .next (s.takeFault .invalidCode))

/-- `ALTREE` (42_tree_of_trees.md R224): AL_LEN and ALIGNED_TREE anew from the eight absolute lengths, and the main tree
comes next; over-subscribed lengths are InvalidCode. -/
def Obligations.AlignedTreeIsBuilt : Prop :=
  ∀ (s : State) (c : Regs) (lens : List (BitVec 4)), s.work = some ⟨c, .altree⟩ →
    let ls := lens.map BitVec.toNat
    (kraft ls ≤ 2 ^ 16 → ∃ tree, buildTree ls = .ok tree
        ∧ exec (.altree lens) s =
            .next { s with work := some ⟨{ c with alLen := ls, alignedTree := some tree },
              .pretree (if s.cfg.params.mainTreeParts = 2 then .mainLiterals else .mainWhole)⟩ })
      ∧ (2 ^ 16 < kraft ls → exec (.altree lens) s = .next (s.takeFault .invalidCode))

/-- MAIN_LEN and LEN_LEN persist (42_tree_of_trees.md R221, R223, 70_reset_and_hazards.md R422): inside a session only the
end of a compressed header, the last op of the length tree, changes them. -/
def Obligations.LengthArraysPersist : Prop :=
  ∀ s t : State, s.Inv → s.running = true → step s = .next t →
    (t.regs.mainLen = s.regs.mainLen ∧ t.regs.lenLen = s.regs.lenLen
        ∧ t.regs.mainTree = s.regs.mainTree ∧ t.regs.lengthTree = s.regs.lengthTree)
      ∨ ∃ c i, s.work = some ⟨c, .ptOp .lengths i⟩ ∧ (t.regs.state = .verbatim ∨ t.regs.state = .aligned)

/-! ## Window, cache and main items -/

/-- The slot table (43_window.md R242 to R244): FOOTER_BITS and BASE of slots 0 to 49, the offsets a slot encodes, and the
largest explicit offset of every window, W - 3; and the window size table (R241). That the formula of FOOTER_BITS goes on
above slot 49, and the bases and offsets with it, is the model's (log entry 27). -/
def Obligations.SlotAndWindowTables : Prop :=
  ((List.range 50).map footerBits =
      [0, 0, 0, 0, 1, 1, 2, 2, 3, 3, 4, 4, 5, 5, 6, 6, 7, 7, 8, 8, 9, 9, 10, 10, 11, 11, 12, 12, 13, 13, 14, 14, 15, 15,
        16, 16, 17, 17, 17, 17, 17, 17, 17, 17, 17, 17, 17, 17, 17, 17])
    ∧ ((List.range 50).map slotBase =
        [0, 1, 2, 3, 4, 6, 8, 12, 16, 24, 32, 48, 64, 96, 128, 192, 256, 384, 512, 768, 1024, 1536, 2048, 3072, 4096,
          6144, 8192, 12288, 16384, 24576, 32768, 49152, 65536, 98304, 131072, 196608, 262144, 393216, 524288, 655360,
          786432, 917504, 1048576, 1179648, 1310720, 1441792, 1572864, 1703936, 1835008, 1966080])
    ∧ (∀ slot, footerBits slot = if slot < 4 then 0 else min ((slot - 2) / 2) 17)
    ∧ slotBase 0 = 0 ∧ (∀ slot, slotBase (slot + 1) = slotBase slot + 2 ^ footerBits slot)
    ∧ (∀ slot f, explicitOffset slot f = slotBase slot + f - 2)
    ∧ (∀ slot f, 3 ≤ slot → f < 2 ^ footerBits slot →
        slotBase slot - 2 ≤ explicitOffset slot f ∧ explicitOffset slot f < slotBase (slot + 1) - 2
          ∧ 1 ≤ explicitOffset slot f)
    ∧ ∀ code input, code ≤ 6 →
        slotBase (⟨code, input, Params.defaults⟩ : Config).nslots - 3 = 2 ^ (15 + code) - 3
          ∧ ((List.range 7).map fun code =>
              let g : Config := ⟨code, input, Params.defaults⟩
              (g.capacity, g.nslots, g.nmain)) =
            [(32768, 30, 496), (65536, 32, 512), (131072, 34, 528), (262144, 36, 544), (524288, 38, 560),
              (1048576, 42, 592), (2097152, 50, 656)]

/-- The main symbols, the offset and the cache of slots 0 to 2 and of a new offset (43_window.md R260 to R263, R265); a
cache update keeps what a match copy needs. The model's own part: a new offset is stored modulo 2^32 (log entry 11), and
above slot 49 its base rests on log entry 27. -/
def Obligations.OffsetCacheRules : Prop :=
  ∀ (g : Config) (c : Regs) (f : Nat),
    matchOffset c 0 f = c.r0.toNat ∧ updateCache g c 0 f = c
      ∧ matchOffset c 1 f = c.r1.toNat ∧ updateCache g c 1 f = { c with r0 := c.r1, r1 := c.r0, r2 := c.r2 }
      ∧ matchOffset c 2 f = c.r2.toNat
      ∧ (g.params.rep2Policy = .rotate → updateCache g c 2 f = { c with r0 := c.r2, r1 := c.r0, r2 := c.r1 })
      ∧ (g.params.rep2Policy = .swap → updateCache g c 2 f = { c with r0 := c.r2, r1 := c.r1, r2 := c.r0 })
      ∧ (∀ slot, c.Ok g → (updateCache g c slot f).Ok g)
      ∧ (∀ lh : BitVec 3, mainElement (256 + lh.toNat) = .matchRep0 lh ∧ mainElement (264 + lh.toNat) = .matchRep1 lh
          ∧ mainElement (272 + lh.toNat) = .matchRep2 lh
          ∧ ∀ slot, 3 ≤ slot → mainElement (256 + 8 * slot + lh.toNat) = .matchNew slot lh)
      ∧ ∀ slot, 3 ≤ slot →
          matchOffset c slot f = slotBase slot + f - 2
            ∧ updateCache g c slot f = { c with r0 := BitVec.ofNat 32 (slotBase slot + f - 2), r1 := c.r0, r2 := c.r1 }
            ∧ (slot < 50 → f < 2 ^ footerBits slot → (updateCache g c slot f).r0.toNat = slotBase slot + f - 2)

/-- `LIT b` (44_block.md R311, R312, 43_window.md R250, R251): one byte at the write cursor, every other cell and every
other register unchanged, and AWAIT at the end of the block. -/
def Obligations.LiteralEmitsItsByte : Prop :=
  ∀ (s : State) (c : Regs) (b : Byte),
    s.work = some ⟨c, .mainSym⟩ → c.state = .verbatim ∨ c.state = .aligned →
    ∃ win, exec (.lit b) s = .next { s with
        regs := { c with
          win := win
          wpos := (c.wpos + 1) % s.cfg.capacity
          produced := c.produced + 1
          remaining := c.remaining - 1
          chunkBuf := c.chunkBuf ++ [b]
          chunkFill := c.chunkFill + 1
          state := if c.remaining - 1 = 0 then .await else c.state }
        work := none }
      ∧ ∀ a, winRead win a = if a = c.wpos then some b else winRead c.win a

/-- The match copy (43_window.md R268, 20_memory.md R84, 70_reset_and_hazards.md R421, R427): byte k is the byte at the
offset behind it, a byte of the same match where the offset is at most k; the n cells from the write cursor on hold the
bytes, every other cell is unchanged, and no other register changes. -/
def Obligations.CopyRepeatsItsSource : Prop :=
  ∀ (g : Config) (c : Regs) (off n : Nat), c.Ok g → matchFits g c off n →
    ∃ c' bytes, copyMatch g off n c = .ok c' ∧ bytes.length = n
      ∧ (∀ k, k < n →
          bytes[k]? = if off ≤ k then bytes[k - off]? else winRead c.win (behind g c.wpos (off - k)))
      ∧ c' = { c with
          win := c'.win
          wpos := (c.wpos + n) % g.capacity
          produced := c.produced + n
          remaining := c.remaining - BitVec.ofNat 24 n
          chunkBuf := c.chunkBuf ++ bytes
          chunkFill := c.chunkFill + n }
      ∧ (∀ k, k < n → n ≤ k + g.capacity → winRead c'.win ((c.wpos + k) % g.capacity) = bytes[k]?)
      ∧ ∀ a, (∀ k, k < n → a ≠ (c.wpos + k) % g.capacity) → winRead c'.win a = winRead c.win a

/-- The order of a match's checks (43_window.md R266, R267, R269, 44_block.md R317): InvalidOffset, then BlockOverrun, then
ChunkOverrun; the fault entry discards the match. -/
def Obligations.MatchChecksInOrder : Prop :=
  ∀ (s : State) (c : Regs) (slot n f : Nat),
    let off := matchOffset c slot f
    (off < 1 ∨ min c.produced s.cfg.capacity < off →
        finishMatch s c slot n f = .next (s.takeFault .invalidOffset))
      ∧ (1 ≤ off → off ≤ min c.produced s.cfg.capacity → c.remaining.toNat < n →
          finishMatch s c slot n f = .next (s.takeFault .blockOverrun))
      ∧ (1 ≤ off → off ≤ min c.produced s.cfg.capacity → n ≤ c.remaining.toNat →
          s.cfg.params.chunkSize < c.chunkFill + n →
          finishMatch s c slot n f = .next (s.takeFault .chunkOverrun))

/-- `MATCH 0`, `MATCH 1` and `MATCH 2` (44_block.md R310, R312, R313, 43_window.md R260 to R262): a length header of 7
calls for a length symbol, any other makes the match of length lh + 2 at R0, R1 or R2. -/
def Obligations.RepeatMatchesComplete : Prop :=
  ∀ (s : State) (c : Regs) (lh : BitVec 3),
    s.work = some ⟨c, .mainSym⟩ → c.Ok s.cfg → c.state = .verbatim ∨ c.state = .aligned →
    (lh = 7 →
        exec (.matchRep0 lh) s = .next { s with work := some ⟨c, .lenSym 0⟩ }
          ∧ exec (.matchRep1 lh) s = .next { s with work := some ⟨c, .lenSym 1⟩ }
          ∧ exec (.matchRep2 lh) s = .next { s with work := some ⟨c, .lenSym 2⟩ })
      ∧ (lh ≠ 7 →
          (matchFits s.cfg c c.r0.toNat (lh.toNat + 2) → completesMatch (.matchRep0 lh) s c 0 (lh.toNat + 2) 0)
            ∧ (matchFits s.cfg c c.r1.toNat (lh.toNat + 2) → completesMatch (.matchRep1 lh) s c 1 (lh.toNat + 2) 0)
            ∧ (matchFits s.cfg c c.r2.toNat (lh.toNat + 2) → completesMatch (.matchRep2 lh) s c 2 (lh.toNat + 2) 0))

/-- `MATCH slot` of slot 3 and up (44_block.md R310, R313): the length symbol comes next for a length header of 7, else
the footer of the block's kind with the length lh + 2; no register changes. -/
def Obligations.NewOffsetMatchGoesOn : Prop :=
  ∀ (s : State) (c : Regs) (slot : Nat) (lh : BitVec 3), s.work = some ⟨c, .mainSym⟩ → 3 ≤ slot →
    exec (.matchNew slot lh) s = .next { s with work := some ⟨c,
      if lh = 7 then .lenSym slot
      else if c.state = .aligned then .footerA slot (lh.toNat + 2)
      else .footerV slot (lh.toNat + 2)⟩ }

/-- `LEN ls` (44_block.md R313): the length 9 + ls; the footer comes next for slot 3 and up, an extended length for a
repeat slot where EXT_LEN is on and the length is 257, else the match is made. -/
def Obligations.LengthSymbolGivesTheLength : Prop :=
  ∀ (s : State) (c : Regs) (slot ls : Nat),
    s.work = some ⟨c, .lenSym slot⟩ → c.Ok s.cfg → c.state = .verbatim ∨ c.state = .aligned →
    (3 ≤ slot → exec (.lenSym ls) s = .next { s with work := some ⟨c,
        if c.state = .aligned then .footerA slot (9 + ls) else .footerV slot (9 + ls)⟩ })
      ∧ (slot < 3 → s.cfg.params.extLen = true → 9 + ls = 257 →
          exec (.lenSym ls) s = .next { s with work := some ⟨c, .extLen slot 257 0⟩ })
      ∧ (slot < 3 → (s.cfg.params.extLen = false ∨ 9 + ls ≠ 257) →
          matchFits s.cfg c (matchOffset c slot 0) (9 + ls) → completesMatch (.lenSym ls) s c slot (9 + ls) 0)

/-- The footer of a Verbatim block (44_block.md R310, R314, R316): its value is f; an extended length comes next where
EXT_LEN is on and the length is 257, else the match is made. Above slot 49 the base is the model's (log entry 27). -/
def Obligations.VerbatimFooterGivesTheOffset : Prop :=
  ∀ (s : State) (c : Regs) (slot n : Nat) (f : BitVec 17),
    s.work = some ⟨c, .footerV slot n⟩ → c.Ok s.cfg → c.state = .verbatim ∨ c.state = .aligned →
    (s.cfg.params.extLen = true → n = 257 →
        exec (.footerVerbatim f) s = .next { s with work := some ⟨c, .extLen slot n f.toNat⟩ })
      ∧ ((s.cfg.params.extLen = false ∨ n ≠ 257) → matchFits s.cfg c (matchOffset c slot f.toNat) n →
          completesMatch (.footerVerbatim f) s c slot n f.toNat)

/-- The footer of an AlignedOffset block (44_block.md R315): with FOOTER_BITS 3 or more an aligned symbol follows the
literal bits and the footer is hi * 8 + lo, else the literal bits are the footer. Above slot 49 FOOTER_BITS and the base
are the model's (log entry 27). -/
def Obligations.AlignedFooterGivesTheOffset : Prop :=
  ∀ (s : State) (c : Regs) (slot n hi : Nat), c.Ok s.cfg → c.state = .verbatim ∨ c.state = .aligned →
    (∀ f : BitVec 17, s.work = some ⟨c, .footerA slot n⟩ →
        (3 ≤ footerBits slot →
            exec (.footerHi f) s = .next { s with work := some ⟨c, .alignedLo slot n f.toNat⟩ })
          ∧ (footerBits slot < 3 → s.cfg.params.extLen = true → n = 257 →
              exec (.footerHi f) s = .next { s with work := some ⟨c, .extLen slot n f.toNat⟩ })
          ∧ (footerBits slot < 3 → (s.cfg.params.extLen = false ∨ n ≠ 257) →
              matchFits s.cfg c (matchOffset c slot f.toNat) n →
              completesMatch (.footerHi f) s c slot n f.toNat))
      ∧ (∀ lo : BitVec 3, s.work = some ⟨c, .alignedLo slot n hi⟩ →
          (s.cfg.params.extLen = true → n = 257 →
              exec (.alignedLo lo) s = .next { s with work := some ⟨c, .extLen slot n (hi * 8 + lo.toNat)⟩ })
            ∧ ((s.cfg.params.extLen = false ∨ n ≠ 257) → matchFits s.cfg c (matchOffset c slot (hi * 8 + lo.toNat)) n →
                completesMatch (.alignedLo lo) s c slot n (hi * 8 + lo.toNat)))

/-- The extended lengths (44_block.md R316): the prefix 0 adds v, 10 adds v + 0x100, 110 adds v + 0x500 and 111 adds v to
the length, and the match is made. Above slot 49 the base is the model's (log entry 27). -/
def Obligations.ExtendedLengthsAreAdded : Prop :=
  ∀ (s : State) (c : Regs) (slot n f v : Nat) (i : Instr),
    s.work = some ⟨c, .extLen slot n f⟩ → c.Ok s.cfg → c.state = .verbatim ∨ c.state = .aligned →
    ((∃ x, i = .extLen0 x ∧ v = x.toNat) ∨ (∃ x, i = .extLen10 x ∧ v = x.toNat + 0x100)
      ∨ (∃ x, i = .extLen110 x ∧ v = x.toNat + 0x500) ∨ ∃ x, i = .extLen111 x ∧ v = x.toNat) →
    matchFits s.cfg c (matchOffset c slot f) (n + v) → completesMatch i s c slot (n + v) f

/-! ## Uncompressed blocks -/

/-- `UNCOMP.R` (44_block.md R331, R296, 43_window.md R264): the three values, whatever they are, and the block begins. -/
def Obligations.UncompressedHeaderLoadsTheCache : Prop :=
  ∀ (s : State) (c : Regs) (v0 v1 v2 : U32), s.work = some ⟨c, .uncompR⟩ →
    exec (.uncompR v0 v1 v2) s = .next { s with
      regs := { c with r0 := v0, r1 := v1, r2 := v2, state := .uncomp, remaining := c.blockLen }
      work := none }

/-- `RAW b` (44_block.md R332, R334): the byte is emitted, every other cell and register unchanged; the last byte of the
block ends it with the cursor rounded up to a word within the input, by way of the pad byte where there is one. `ODDPAD`
then ends the block, whatever its value. -/
def Obligations.RawBytesEndTheirBlock : Prop :=
  (∀ (s : State) (c : Regs) (b : Byte), s.work = some ⟨c, .raw⟩ → c.state = .uncomp →
    ∃ win, (∀ a, winRead win a = if a = c.wpos then some b else winRead c.win a) ∧
      let emitted : Regs := { c with
        win := win
        wpos := (c.wpos + 1) % s.cfg.capacity
        produced := c.produced + 1
        remaining := c.remaining - 1
        chunkBuf := c.chunkBuf ++ [b]
        chunkFill := c.chunkFill + 1 }
      let stop := min (roundup c.bitpos 16) (8 * s.cfg.len)
      exec (.raw b) s =
        if c.remaining - 1 ≠ 0 then .next { s with regs := emitted, work := none }
        else if c.bitpos < stop then .next { s with work := some ⟨emitted, .oddPad⟩ }
        else .next { s with regs := { emitted with bitpos := stop, state := .await }, work := none })
    ∧ ∀ (s : State) (c : Regs) (pad : Byte), s.work = some ⟨c, .oddPad⟩ →
        exec (.oddPad pad) s = .next { s with
          regs := { c with bitpos := min (roundup c.bitpos 16) (8 * s.cfg.len), state := .await }
          work := none }


/-! ## The whole machine -/

/-- The invariant holds at reset. -/
def Obligations.ResetMeetsTheInvariant : Prop := State.reset.Inv ∧ State.reset.Forward ∧ State.reset.History

/-- The invariants of 10_state.md R59, with what carries them through a Step, are kept by every step. -/
def Obligations.StepKeepsTheInvariant : Prop := ∀ s t : State, s.Inv → step s = .next t → t.Inv

/-- A NEXT_CHUNK in progress always goes on: no step of it stops (44_block.md R281, 41_huffman.md R177, 20_memory.md R79,
60_exceptions.md R381). -/
def Obligations.RunningStepNeverStops : Prop :=
  ∀ s : State, s.Inv → s.running = true → ∃ t, step s = .next t

/-- Every NEXT_CHUNK ends (45_chunk_driver.md R344): within the bound it hands back exactly one result. -/
def Obligations.EveryNextChunkEnds : Prop :=
  ∀ s : State, s.Inv → s.running = false →
    ∃ t r, nextChunkCall s = .next t ∧ t.running = false ∧ t.work = none ∧ t.results = s.results ++ [r]

/-- A fault commits nothing (60_exceptions.md R372): the registers are those before the Step but for FAULT, and NEXT_CHUNK
ends with the Error. -/
def Obligations.FaultCommitsNothing : Prop :=
  ∀ s t : State, s.Inv → s.running = true → step s = .next t → t.regs.fault ≠ none →
    ∃ k, t = { s with
      regs := { s.regs with fault := some k }
      work := none
      running := false
      results := s.results ++ [.error k] }

/-- The transitions of STATE are those of 44_block.md R280; a fault, and an element inside a Step, leave STATE. -/
def Obligations.StateGraph : Prop :=
  ∀ s t : State, s.Inv → s.running = true → step s = .next t →
    (t.regs.state = .verbatim ∨ t.regs.state = .aligned ∨ t.regs.state = .uncomp → t.regs.remaining ≠ 0) ∧
    (t.regs.state = s.regs.state
      ∨ (s.regs.state = .preamble ∧ s.cfg.avail = 0 ∧ t.regs.state = .terminal)
      ∨ (s.regs.state = .preamble ∧ s.cfg.avail ≠ 0 ∧ t.regs.state = .await)
      ∨ (s.regs.state = .await ∧ inputDone s.cfg s.regs.bitpos = true ∧ t.regs.state = .terminal)
      ∨ (s.regs.state = .await ∧ t.regs.btype = 1 ∧ t.regs.remaining ≠ 0 ∧ t.regs.state = .verbatim)
      ∨ (s.regs.state = .await ∧ t.regs.btype = 2 ∧ t.regs.remaining ≠ 0 ∧ t.regs.state = .aligned)
      ∨ (s.regs.state = .await ∧ t.regs.btype = 3 ∧ t.regs.remaining ≠ 0 ∧ t.regs.state = .uncomp)
      ∨ ((s.regs.state = .verbatim ∨ s.regs.state = .aligned ∨ s.regs.state = .uncomp) ∧ t.regs.remaining = 0
          ∧ t.regs.state = .await))

/-- Only NEW writes the configuration and the implementation's codes stay (10_state.md R40, 20_memory.md R87). -/
def Obligations.ConfigurationIsFixed : Prop :=
  ∀ s t : State, step s = .next t →
    t.impl = s.impl
      ∧ (t.cfg = s.cfg
          ∨ ∃ code input params rest, s.running = false ∧ s.port = .new code input params :: rest
              ∧ t.cfg = ⟨code, input, params⟩)

/-- BITPOS never decreases inside a session and never passes 8 L (10_state.md R41, R42, R59). -/
def Obligations.CursorNeverGoesBack : Prop :=
  ∀ s t : State, s.Inv → s.Forward → s.running = true → step s = .next t →
    t.Forward ∧ s.regs.bitpos ≤ t.regs.bitpos ∧ t.regs.bitpos ≤ 8 * t.cfg.len

/-- The window is the end of the output (10_state.md R46, R48, 20_memory.md R83, R85, 45_chunk_driver.md R346): PRODUCED
counts the bytes delivered and pending, and the last HIST of them stand behind the write cursor; every step keeps it. -/
def Obligations.WindowHoldsTheOutput : Prop :=
  ∀ s t : State, s.Inv → s.History → step s = .next t → t.History

/-- The preamble is reported and not applied (44_block.md R292): whatever the translation registers hold, every step
leaves the same machine but for those registers, and past the preamble it leaves them too. -/
def Obligations.TranslationRegistersAreNotRead : Prop :=
  ∀ (s t : State) (flag : Bool) (size : U32), step s = .next t →
    (∃ flag' size', step (s.withE8 flag size) = .next (t.withE8 flag' size'))
      ∧ (s.running = true → s.regs.state ≠ .preamble → (∀ w, s.work = some w → w.phase ≠ .preamble) →
          step (s.withE8 flag size) = .next (t.withE8 flag size))

/-- The elements of a Step taken together are the spec's Step in PREAMBLE and UNCOMP (44_block.md R290, R332, R334). -/
def Obligations.ShortStepsAreTheSpecs : Prop :=
  ∀ s : State, s.Inv → s.running = true → s.work = none → s.regs.chunkFill ≠ s.cfg.params.chunkSize →
    (s.regs.state = .preamble → pass s = stepResult s (preambleStep s.cfg s.regs))
      ∧ (s.regs.state = .uncomp → pass s = stepResult s (uncompStep s.cfg s.regs))

/-- The elements of a main item taken together are the spec's MainStep (44_block.md R310 to R317). Above slot 49 both take
FOOTER_BITS and the base of log entry 27. -/
def Obligations.MainItemIsTheSpecsMainStep : Prop :=
  ∀ s : State, s.Inv → s.running = true → s.work = none → s.regs.chunkFill ≠ s.cfg.params.chunkSize →
    s.regs.state = .verbatim ∨ s.regs.state = .aligned → pass s = stepResult s (mainStep s.cfg s.regs)

/-- The elements of a header and its trees taken together are the spec's AwaitStep (44_block.md R296 to R305, R330,
42_tree_of_trees.md R201 to R224). -/
def Obligations.HeaderIsTheSpecsAwaitStep : Prop :=
  ∀ s : State, s.Inv → s.running = true → s.work = none → s.regs.chunkFill ≠ s.cfg.params.chunkSize →
    s.regs.state = .await → pass s = stepResult s (awaitStep s.cfg s.regs)

/-- The host's view (10_state.md R54, R57, R61, 60_exceptions.md R370): the codes of STATE and FAULT, the registers it
shows, and that they are the registers of the last completed Step. -/
def Obligations.StatusView : Prop :=
  ([BlockState.preamble, .await, .verbatim, .aligned, .uncomp, .terminal].map BlockState.code = [0, 1, 2, 3, 4, 5])
    ∧ ([FaultKind.inputExhausted, .invalidCode, .invalidBlockType, .invalidOffset, .invalidLength, .blockOverrun,
          .chunkOverrun, .emptyBlock, .invalidConfig].map faultCode = [1, 2, 3, 4, 5, 6, 7, 8, 9])
    ∧ ∀ s : State, statusView s =
        { state := s.regs.state.code, fault := (s.regs.fault.map faultCode).getD 0, e8Flag := s.regs.e8Flag,
          e8Size := s.regs.e8Size, bitpos := s.regs.bitpos, produced := s.regs.produced, r0 := s.regs.r0,
          r1 := s.regs.r1, r2 := s.regs.r2, btype := s.regs.btype, blockLen := s.regs.blockLen,
          remaining := s.regs.remaining }

/-- The ends of a run (70_reset_and_hazards.md R440): a NEXT_CHUNK ends the run normally exactly when it hands back None,
with STATE TERMINAL and no fault, and abnormally exactly when it hands back an Error, which FAULT then names; a Chunk ends
none. A new instance has ended in neither way, be its configuration invalid. -/
def Obligations.RunEndsByItsLastResult : Prop :=
  (∀ s t : State, s.Inv → s.running = false → nextChunkCall s = .next t →
      (endedNormally t ↔ t.results = s.results ++ [.none])
        ∧ (endedAbnormally t ↔ ∃ k, t.results = s.results ++ [.error k])
        ∧ (∀ k, t.results = s.results ++ [.error k] → t.regs.fault = some k)
        ∧ (t.results = s.results ++ [.none] → t.regs.state = .terminal ∧ t.regs.fault = none)
        ∧ ∀ bytes, t.results = s.results ++ [.chunk bytes] → output t = output s ++ bytes)
    ∧ ∀ (s : State) code input params, ∃ t, exec (.new code input params) s = .next t
        ∧ ¬ endedNormally t ∧ ¬ endedAbnormally t ∧ output t = []
end

