-- ==== Sys2Proof/Laws/Reader.lean ====
section
/-! SUPPORT. The readers: what a read that answers says of the stream and of the cursor. -/

namespace Sys2Proof

/-- A sequence of reads answers when each part does. -/
theorem except_bind_ok {ε α β : Type} {x : Except ε α} {f : α → Except ε β} {b : β} :
    (x >>= f) = .ok b ↔ ∃ a, x = .ok a ∧ f a = .ok b := by
  cases x with
  | ok a => exact ⟨fun h => ⟨a, rfl, h⟩, fun ⟨_, ha, h⟩ => (by cases ha; exact h)⟩
  | error e => exact ⟨fun h => (nomatch h), fun ⟨_, ha, _⟩ => (nomatch ha)⟩

/-- A sequence of reads stops at its first part that stops. -/
theorem except_bind_error {ε α β : Type} {x : Except ε α} {f : α → Except ε β} {e : ε} :
    (x >>= f) = .error e ↔ x = .error e ∨ ∃ a, x = .ok a ∧ f a = .error e := by
  cases x with
  | ok a =>
    constructor
    · exact fun h => .inr ⟨a, rfl, h⟩
    · rintro (h | ⟨_, ha, h⟩)
      · cases h
      · cases ha; exact h
  | error e' =>
    constructor
    · exact fun h => .inl (by cases h; rfl)
    · rintro (h | ⟨_, ha, _⟩)
      · cases h; rfl
      · cases ha

/-- The bit reader sees no more than the input. -/
theorem avail_le_len (g : Config) : g.avail ≤ 8 * g.len := by unfold Config.avail; omega

/-- A read of n bits is below 2^n. -/
theorem gather_lt (g : Config) (pos n : Nat) : g.gather pos n < 2 ^ n := by
  induction n with
  | zero => simp [Config.gather]
  | succ n ih =>
    have : (g.bit (pos + n)).toNat ≤ 1 := Bool.toNat_le _
    simp only [Config.gather, Nat.pow_succ]; omega

/-- A read of n bits, split in two: the high part first (40_bitstream_reader.md R144). -/
theorem gather_add (g : Config) (pos m n : Nat) :
    g.gather pos (m + n) = g.gather pos m * 2 ^ n + g.gather (pos + m) n := by
  induction n with
  | zero => simp [Config.gather]
  | succ n ih =>
    rw [← Nat.add_assoc]
    simp only [Config.gather, ih, Nat.pow_succ, Nat.add_assoc, Nat.mul_add]
    rw [Nat.mul_comm 2 (_ * _), Nat.mul_assoc]

/-- ReadBits answers exactly when n bits remain (40_bitstream_reader.md R142). -/
theorem readBits_ok {g : Config} {pos n : Nat} {r : Nat × Nat} :
    readBits g pos n = .ok r ↔ pos + n ≤ g.avail ∧ r = (g.gather pos n, pos + n) := by
  unfold readBits; split
  · constructor
    · intro h; cases h
    · rintro ⟨h, _⟩; omega
  · constructor
    · intro h; cases h; exact ⟨by omega, rfl⟩
    · rintro ⟨_, rfl⟩; rfl

/-- ReadBits stops in one way only (40_bitstream_reader.md R142). -/
theorem readBits_error {g : Config} {pos n : Nat} {e : ReadStop} :
    readBits g pos n = .error e ↔ g.avail < pos + n ∧ e = .fault .inputExhausted := by
  unfold readBits; split
  · exact ⟨fun h => (by cases h; exact ⟨by assumption, rfl⟩), fun ⟨_, h⟩ => by rw [h]⟩
  · exact ⟨fun h => (nomatch h), fun ⟨h, _⟩ => by omega⟩

/-- What ReadField consumes (40_bitstream_reader.md R144): n bits within AVAIL, or nothing for n = 0. -/
theorem readField_ok_pos {g : Config} {pos n v p : Nat} (h : readField g pos n = .ok (v, p)) :
    p = pos + n ∧ (n = 0 ∨ p ≤ g.avail) := by
  unfold readField at h
  split at h
  · cases h; omega
  · split at h
    · cases h
    · split at h
      · obtain ⟨⟨hi, m⟩, h1, h⟩ := except_bind_ok.1 h
        obtain ⟨⟨lo, q⟩, h2, h⟩ := except_bind_ok.1 h
        cases h
        obtain ⟨-, h1⟩ := readBits_ok.1 h1
        obtain ⟨h3, h2⟩ := readBits_ok.1 h2
        cases h1; cases h2; omega
      · obtain ⟨h3, h2⟩ := readBits_ok.1 h
        cases h2; omega

/-- ReadField stops in one way only (40_bitstream_reader.md R144). -/
theorem readField_error {g : Config} {pos n : Nat} {e : ReadStop} (h : readField g pos n = .error e) :
    e = .fault .inputExhausted := by
  unfold readField at h
  split at h
  · cases h
  · split at h
    · cases h; rfl
    · split at h
      · rcases except_bind_error.1 h with h | ⟨⟨hi, m⟩, -, h⟩
        · exact (readBits_error.1 h).2
        · rcases except_bind_error.1 h with h | ⟨⟨lo, q⟩, -, h⟩
          · exact (readBits_error.1 h).2
          · cases h
      · exact (readBits_error.1 h).2

/-- A raw byte read (40_bitstream_reader.md R148). -/
theorem readRawByte_ok {g : Config} {pos : Nat} {r : Byte × Nat} :
    readRawByte g pos = .ok r ↔ pos % 8 = 0 ∧ pos / 8 < g.len ∧ r = (g.byteAt (pos / 8), pos + 8) := by
  unfold readRawByte; split
  · exact ⟨fun h => (nomatch h), fun ⟨h, _⟩ => by omega⟩
  · split
    · exact ⟨fun h => (nomatch h), fun ⟨_, h, _⟩ => by omega⟩
    · exact ⟨fun h => (by cases h; exact ⟨by omega, by omega, rfl⟩), fun ⟨_, _, h⟩ => by rw [h]⟩

/-- Why a raw byte is not read. -/
theorem readRawByte_error {g : Config} {pos : Nat} {e : ReadStop} (h : readRawByte g pos = .error e)
    (ha : pos % 8 = 0) : e = .fault .inputExhausted := by
  unfold readRawByte at h
  split at h
  · omega
  · split at h <;> cases h; rfl

/-- A raw 32-bit read takes four bytes (40_bitstream_reader.md R149). -/
theorem readU32LE_ok_pos {g : Config} {pos p : Nat} {v : U32} (h : readU32LE g pos = .ok (v, p)) :
    pos % 8 = 0 ∧ p = pos + 32 ∧ p ≤ 8 * g.len := by
  unfold readU32LE at h
  obtain ⟨⟨b0, p0⟩, h0, h⟩ := except_bind_ok.1 h
  obtain ⟨⟨b1, p1⟩, h1, h⟩ := except_bind_ok.1 h
  obtain ⟨⟨b2, p2⟩, h2, h⟩ := except_bind_ok.1 h
  obtain ⟨⟨b3, p3⟩, h3, h⟩ := except_bind_ok.1 h
  cases h
  obtain ⟨ha, -, e0⟩ := readRawByte_ok.1 h0
  obtain ⟨-, -, e1⟩ := readRawByte_ok.1 h1
  obtain ⟨-, -, e2⟩ := readRawByte_ok.1 h2
  obtain ⟨-, hl, e3⟩ := readRawByte_ok.1 h3
  cases e0; cases e1; cases e2; cases e3
  omega

/-- Why a raw 32-bit value is not read. -/
theorem readU32LE_error {g : Config} {pos : Nat} {e : ReadStop} (h : readU32LE g pos = .error e)
    (ha : pos % 8 = 0) : e = .fault .inputExhausted := by
  unfold readU32LE at h
  rcases except_bind_error.1 h with h | ⟨⟨b0, p0⟩, h0, h⟩
  · exact readRawByte_error h ha
  obtain ⟨-, -, e0⟩ := readRawByte_ok.1 h0; cases e0
  rcases except_bind_error.1 h with h | ⟨⟨b1, p1⟩, h1, h⟩
  · exact readRawByte_error h (by omega)
  obtain ⟨-, -, e1⟩ := readRawByte_ok.1 h1; cases e1
  rcases except_bind_error.1 h with h | ⟨⟨b2, p2⟩, h2, h⟩
  · exact readRawByte_error h (by omega)
  obtain ⟨-, -, e2⟩ := readRawByte_ok.1 h2; cases e2
  rcases except_bind_error.1 h with h | ⟨⟨b3, p3⟩, h3, h⟩
  · exact readRawByte_error h (by omega)
  · cases h

/-- A run of n fields of w bits: n values below 2^w. -/
theorem readRun_ok {g : Config} {w n pos p : Nat} {ls : List Nat} (h : readRun g w pos n = .ok (ls, p)) :
    ls.length = n ∧ p = pos + w * n ∧ (n = 0 ∨ p ≤ g.avail) ∧ ∀ l ∈ ls, l < 2 ^ w := by
  induction n generalizing pos ls with
  | zero => cases h; simp
  | succ n ih =>
    obtain ⟨⟨v, q⟩, h1, h⟩ := except_bind_ok.1 h
    obtain ⟨⟨vs, r⟩, h2, h⟩ := except_bind_ok.1 h
    cases h
    obtain ⟨hq, e⟩ := readBits_ok.1 h1
    cases e
    obtain ⟨i1, i2, i3, i4⟩ := ih h2
    refine ⟨by simp [i1], ?_, .inr ?_, ?_⟩
    · rw [i2, Nat.mul_add]; omega
    · rcases i3 with rfl | i3
      · simp at i2; omega
      · exact i3
    · intro l hl
      rcases List.mem_cons.1 hl with rfl | hl
      · exact gather_lt g pos w
      · exact i4 l hl

/-- Why a run of fields is not read. -/
theorem readRun_error {g : Config} {w n pos : Nat} {e : ReadStop} (h : readRun g w pos n = .error e) :
    e = .fault .inputExhausted := by
  induction n generalizing pos with
  | zero => cases h
  | succ n ih =>
    rcases except_bind_error.1 h with h | ⟨⟨v, q⟩, -, h⟩
    · exact (readBits_error.1 h).2
    · rcases except_bind_error.1 h with h | ⟨⟨vs, r⟩, -, h⟩
      · exact ih h
      · cases h

/-! ## Huffman symbols -/

/-- Build assigns codes to symbols of its array only (41_huffman.md R173). -/
theorem assignCodes_sym {next : List Nat} {k : Nat} {lens : List Nat} {e : Code}
    (h : e ∈ assignCodes next k lens) : k ≤ e.sym ∧ e.sym < k + lens.length := by
  induction lens generalizing next k with
  | nil => cases h
  | cons l rest ih =>
    simp only [assignCodes] at h
    split at h
    · have := ih h; simp only [List.length_cons]; omega
    · rcases List.mem_cons.1 h with rfl | h
      · simp only [List.length_cons]; omega
      · have := ih h; simp only [List.length_cons]; omega

/-- What Build makes of an array it accepts. -/
theorem buildTree_ok {lens : List Nat} {t : Tree} (h : buildTree lens = .ok t) :
    kraft lens ≤ 2 ^ 16 ∧ t = ⟨assignCodes (firstCodes lens) 0 lens, lens.foldl max 0⟩ := by
  unfold buildTree at h
  split at h
  · cases h
  · cases h; exact ⟨by omega, rfl⟩

/-- A symbol found belongs to a code of the tree. -/
theorem lookup_some {t : Tree} {l c s : Nat} (h : t.lookup l c = some s) :
    ∃ e ∈ t.codes, e.len = l ∧ e.code = c ∧ e.sym = s := by
  unfold Tree.lookup at h
  obtain ⟨e, he, rfl⟩ := Option.map_eq_some_iff.1 h
  have := List.find?_some he
  simp only [Bool.and_eq_true, beq_iff_eq] at this
  exact ⟨e, List.mem_of_find?_eq_some he, this.1, this.2, rfl⟩

/-- A symbol decoded belongs to a code of the tree, and a bit is consumed. -/
theorem decodeLoop_ok {g : Config} {t : Tree} {fuel l c pos s p : Nat}
    (h : decodeLoop g t fuel l c pos = .ok (s, p)) :
    pos < p ∧ p ≤ g.avail ∧ ∃ e ∈ t.codes, e.sym = s := by
  induction fuel generalizing l c pos with
  | zero => cases h
  | succ fuel ih =>
    obtain ⟨⟨b, q⟩, h1, h⟩ := except_bind_ok.1 h
    obtain ⟨hq, e⟩ := readBits_ok.1 h1
    cases e
    simp only at h
    split at h
    · next s' hs =>
      cases h
      obtain ⟨e, he, -, -, hes⟩ := lookup_some hs
      exact ⟨by omega, hq, e, he, hes⟩
    · obtain ⟨h1, h2⟩ := ih h
      exact ⟨by omega, h2⟩

/-- Why no symbol is decoded. -/
theorem decodeLoop_error {g : Config} {t : Tree} {fuel l c pos : Nat} {e : ReadStop}
    (h : decodeLoop g t fuel l c pos = .error e) : ∃ k, e = .fault k := by
  induction fuel generalizing l c pos with
  | zero => cases h; exact ⟨_, rfl⟩
  | succ fuel ih =>
    rcases except_bind_error.1 h with h | ⟨⟨b, q⟩, -, h⟩
    · exact ⟨_, (readBits_error.1 h).2⟩
    · simp only at h
      split at h
      · cases h
      · exact ih h

/-- Decode consumes at least one bit and answers a symbol the tree has (41_huffman.md R178). -/
theorem decodeSymbol_ok {g : Config} {tree : Option Tree} {pos s p : Nat}
    (h : decodeSymbol g tree pos = .ok (s, p)) :
    pos < p ∧ p ≤ g.avail ∧ ∃ t, tree = some t ∧ ∃ e ∈ t.codes, e.sym = s := by
  unfold decodeSymbol at h
  split at h
  · cases h
  · obtain ⟨h1, h2, h3⟩ := decodeLoop_ok h
    exact ⟨h1, h2, _, rfl, h3⟩

/-- Decode from a present tree stops only by a fault (41_huffman.md R177, R178). -/
theorem decodeSymbol_error {g : Config} {tree : Option Tree} {pos : Nat} {e : ReadStop}
    (h : decodeSymbol g tree pos = .error e) (ht : tree.isSome = true) : ∃ k, e = .fault k := by
  unfold decodeSymbol at h
  split at h
  · cases ht
  · exact decodeLoop_error h

/-- A symbol decoded from a tree built from an array is an index of the array. -/
theorem decodeSymbol_lt {g : Config} {tree : Option Tree} {lens : List Nat} {pos s p : Nat}
    (h : decodeSymbol g tree pos = .ok (s, p)) (hb : ∀ t, tree = some t → buildTree lens = .ok t) :
    s < lens.length := by
  obtain ⟨-, -, t, ht, e, he, rfl⟩ := decodeSymbol_ok h
  obtain ⟨-, rfl⟩ := buildTree_ok (hb t ht)
  have := assignCodes_sym he
  omega

end Sys2Proof
end

