-- ==== Sys2Proof/Laws/Decode.lean ====
section
/-! SUPPORT. The decoder, said once: which elements each format gives, how far the cursor moves, and how a decode stops. -/

namespace Sys2Proof

/-- What the decoder can answer at bit pos in the place of a format: the element i, and the bit p after it. -/
def DecodesTo (g : Config) (pos : Nat) (i : Instr) (p : Nat) : Format → Prop
  | .preamble => (i = .preamble0 ∨ ∃ n, i = .preamble1 n) ∧ pos < p ∧ p ≤ g.avail
  | .header =>
    ((∃ n, i = .blockVerbatim n) ∨ (∃ n, i = .blockAligned n) ∨ (∃ n, i = .blockUncomp n) ∨ i = .blockInvalid0
      ∨ ∃ t, i = .blockInvalid4 t) ∧ pos < p ∧ p ≤ g.avail
  | .pretree => (∃ ls, i = .pretree ls ∧ ls.length = pretreeSymbols) ∧ pos < p ∧ p ≤ g.avail
  | .ptOp _ =>
    ((∃ s, s ≤ 16 ∧ i = .ptDelta s) ∨ (∃ z, i = .ptZrun4 z) ∨ (∃ z, i = .ptZrun20 z) ∨ ∃ z s, i = .ptSame z s)
      ∧ pos < p ∧ p ≤ g.avail
  | .altree =>
    (∃ ls, i = .altree ls ∧ ls.length = alignedSymbols ∧ ∀ l ∈ ls, l.toNat < 2 ^ g.params.alignedLenBits)
      ∧ pos ≤ p ∧ (0 < g.params.alignedLenBits → pos < p) ∧ p ≤ g.avail
  | .mainSym _ =>
    ((∃ b, i = .lit b) ∨ (∃ lh, i = .matchRep0 lh) ∨ (∃ lh, i = .matchRep1 lh) ∨ (∃ lh, i = .matchRep2 lh)
      ∨ ∃ slot lh, 3 ≤ slot ∧ i = .matchNew slot lh) ∧ pos < p ∧ p ≤ g.avail
  | .lenSym _ => (∃ ls, i = .lenSym ls) ∧ pos < p ∧ p ≤ g.avail
  | .footerV fb => (∃ f, i = .footerVerbatim f) ∧ p = pos + fb ∧ (fb = 0 ∨ p ≤ g.avail)
  | .footerA fb =>
    (∃ hi, i = .footerHi hi) ∧ p = pos + literalFooterBits fb ∧ (literalFooterBits fb = 0 ∨ p ≤ g.avail)
  | .alignedLo _ => (∃ lo, i = .alignedLo lo) ∧ pos < p ∧ p ≤ g.avail
  | .extLen =>
    ((∃ v, i = .extLen0 v) ∨ (∃ v, i = .extLen10 v) ∨ (∃ v, i = .extLen110 v) ∨ ∃ v, i = .extLen111 v)
      ∧ pos < p ∧ p ≤ g.avail
  | .uncompR => (∃ a b d, i = .uncompR a b d) ∧ pos % 8 = 0 ∧ p = pos + 96 ∧ p ≤ 8 * g.len
  | .raw => (∃ b, i = .raw b) ∧ pos % 8 = 0 ∧ p = pos + 8 ∧ p ≤ 8 * g.len
  | .oddPad => (∃ b, i = .oddPad b) ∧ pos % 8 = 0 ∧ p = pos + 8 ∧ p ≤ 8 * g.len

/-- What the preamble decodes to. -/
theorem decodePreamble_ok {g : Config} {pos p : Nat} {i : Instr} (h : decodePreamble g pos = .ok (i, p)) :
    DecodesTo g pos i p .preamble := by
  obtain ⟨⟨f, q⟩, h1, h⟩ := except_bind_ok.1 h
  obtain ⟨hq, e⟩ := readBits_ok.1 h1; cases e
  simp only at h
  split at h
  · cases h; exact ⟨.inl rfl, by omega, hq⟩
  · obtain ⟨⟨n, r⟩, h2, h⟩ := except_bind_ok.1 h
    cases h
    have := readField_ok_pos h2
    exact ⟨.inr ⟨_, rfl⟩, by omega, by omega⟩

/-- What a block header decodes to. -/
theorem decodeHeader_ok {g : Config} {pos p : Nat} {i : Instr} (h : decodeHeader g pos = .ok (i, p)) :
    DecodesTo g pos i p .header := by
  obtain ⟨⟨t, q⟩, h1, h⟩ := except_bind_ok.1 h
  obtain ⟨hq, e⟩ := readBits_ok.1 h1; cases e
  simp only at h
  split at h
  · cases h; exact ⟨.inr (.inr (.inr (.inl rfl))), by omega, hq⟩
  · split at h
    · cases h; exact ⟨.inr (.inr (.inr (.inr ⟨_, rfl⟩))), by omega, hq⟩
    · obtain ⟨⟨n, r⟩, h2, h⟩ := except_bind_ok.1 h
      have := readField_ok_pos h2
      simp only at h
      cases h
      refine ⟨?_, by omega, by omega⟩
      repeat' split
      · exact .inl ⟨_, rfl⟩
      · exact .inr (.inl ⟨_, rfl⟩)
      · exact .inr (.inr (.inl ⟨_, rfl⟩))

/-- What a pretree op decodes to. -/
theorem decodePtOp_ok {g : Config} {tree : Option Tree} {pos p : Nat} {i : Instr}
    (h : decodePtOp g tree pos = .ok (i, p)) : DecodesTo g pos i p (.ptOp tree) := by
  obtain ⟨⟨s, q⟩, h1, h⟩ := except_bind_ok.1 h
  obtain ⟨hlt, hq, -⟩ := decodeSymbol_ok h1
  simp only at h
  split at h
  · next hs => cases h; exact ⟨.inl ⟨_, hs, rfl⟩, hlt, hq⟩
  · split at h
    · obtain ⟨⟨z, r⟩, h2, h⟩ := except_bind_ok.1 h
      obtain ⟨hr, e⟩ := readBits_ok.1 h2; cases e; cases h
      exact ⟨.inr (.inl ⟨_, rfl⟩), by omega, hr⟩
    · split at h
      · obtain ⟨⟨z, r⟩, h2, h⟩ := except_bind_ok.1 h
        obtain ⟨hr, e⟩ := readBits_ok.1 h2; cases e; cases h
        exact ⟨.inr (.inr (.inl ⟨_, rfl⟩)), by omega, hr⟩
      · obtain ⟨⟨z, r⟩, h2, h⟩ := except_bind_ok.1 h
        obtain ⟨⟨v, r'⟩, h3, h⟩ := except_bind_ok.1 h
        obtain ⟨hr, e⟩ := readBits_ok.1 h2; cases e; cases h
        have := decodeSymbol_ok h3
        exact ⟨.inr (.inr (.inr ⟨_, _, rfl⟩)), by omega, this.2.1⟩

/-- What an extended length decodes to. -/
theorem decodeExtLen_ok {g : Config} {pos p : Nat} {i : Instr} (h : decodeExtLen g pos = .ok (i, p)) :
    DecodesTo g pos i p .extLen := by
  obtain ⟨⟨b0, p0⟩, h0, h⟩ := except_bind_ok.1 h
  obtain ⟨-, e⟩ := readBits_ok.1 h0; cases e
  simp only at h
  split at h
  · obtain ⟨⟨v, q⟩, hv, h⟩ := except_bind_ok.1 h
    obtain ⟨hq, e⟩ := readBits_ok.1 hv; cases e; cases h
    exact ⟨.inl ⟨_, rfl⟩, by omega, hq⟩
  · obtain ⟨⟨b1, p1⟩, h1, h⟩ := except_bind_ok.1 h
    obtain ⟨-, e⟩ := readBits_ok.1 h1; cases e
    simp only at h
    split at h
    · obtain ⟨⟨v, q⟩, hv, h⟩ := except_bind_ok.1 h
      obtain ⟨hq, e⟩ := readBits_ok.1 hv; cases e; cases h
      exact ⟨.inr (.inl ⟨_, rfl⟩), by omega, hq⟩
    · obtain ⟨⟨b2, p2⟩, h2, h⟩ := except_bind_ok.1 h
      obtain ⟨-, e⟩ := readBits_ok.1 h2; cases e
      simp only at h
      split at h
      · obtain ⟨⟨v, q⟩, hv, h⟩ := except_bind_ok.1 h
        obtain ⟨hq, e⟩ := readBits_ok.1 hv; cases e; cases h
        exact ⟨.inr (.inr (.inl ⟨_, rfl⟩)), by omega, hq⟩
      · obtain ⟨⟨v, q⟩, hv, h⟩ := except_bind_ok.1 h
        obtain ⟨hq, e⟩ := readBits_ok.1 hv; cases e; cases h
        exact ⟨.inr (.inr (.inr ⟨_, rfl⟩)), by omega, hq⟩

/-- The elements of main symbols. -/
theorem mainElement_cases (s : Nat) :
    (∃ b, mainElement s = .lit b) ∨ (∃ lh, mainElement s = .matchRep0 lh) ∨ (∃ lh, mainElement s = .matchRep1 lh)
      ∨ (∃ lh, mainElement s = .matchRep2 lh) ∨ ∃ slot lh, 3 ≤ slot ∧ mainElement s = .matchNew slot lh := by
  unfold mainElement
  split
  · exact .inl ⟨_, rfl⟩
  · simp only
    split
    · exact .inr (.inl ⟨_, rfl⟩)
    · exact .inr (.inr (.inl ⟨_, rfl⟩))
    · exact .inr (.inr (.inr (.inl ⟨_, rfl⟩)))
    · next h0 h1 h2 =>
      have h0 : (s - 256) / 8 ≠ 0 := h0
      have h1 : (s - 256) / 8 ≠ 1 := h1
      have h2 : (s - 256) / 8 ≠ 2 := h2
      exact .inr (.inr (.inr (.inr ⟨_, _, by omega, rfl⟩)))

/-- What a decode that answers gives. -/
theorem decode_ok {g : Config} {fmt : Format} {pos p : Nat} {i : Instr} (h : decode g fmt pos = .ok (i, p)) :
    DecodesTo g pos i p fmt := by
  cases fmt with
  | preamble => exact decodePreamble_ok h
  | header => exact decodeHeader_ok h
  | pretree =>
    obtain ⟨⟨ls, q⟩, h1, h⟩ := except_bind_ok.1 h
    cases h
    have := readRun_ok h1
    simp only [pretreeSymbols, pretreeLenBits] at this
    exact ⟨⟨_, rfl, by simp [this.1, pretreeSymbols]⟩, by omega, by omega⟩
  | ptOp tree => exact decodePtOp_ok h
  | altree =>
    obtain ⟨⟨ls, q⟩, h1, h⟩ := except_bind_ok.1 h
    cases h
    obtain ⟨i1, i2, i3, i4⟩ := readRun_ok h1
    simp only [alignedSymbols] at i1 i2 i3
    refine ⟨⟨_, rfl, by simp [i1, alignedSymbols], ?_⟩, by omega, by omega, by omega⟩
    intro l hl
    obtain ⟨v, hv, rfl⟩ := List.mem_map.1 hl
    exact Nat.lt_of_le_of_lt (Nat.mod_le _ _) (i4 v hv)
  | mainSym tree =>
    obtain ⟨⟨s, q⟩, h1, h⟩ := except_bind_ok.1 h
    cases h
    have := decodeSymbol_ok h1
    exact ⟨mainElement_cases s, this.1, this.2.1⟩
  | lenSym tree =>
    obtain ⟨⟨s, q⟩, h1, h⟩ := except_bind_ok.1 h
    cases h
    have := decodeSymbol_ok h1
    exact ⟨⟨_, rfl⟩, this.1, this.2.1⟩
  | footerV fb =>
    obtain ⟨⟨s, q⟩, h1, h⟩ := except_bind_ok.1 h
    cases h
    exact ⟨⟨_, rfl⟩, readField_ok_pos h1⟩
  | footerA fb =>
    obtain ⟨⟨s, q⟩, h1, h⟩ := except_bind_ok.1 h
    cases h
    exact ⟨⟨_, rfl⟩, readField_ok_pos h1⟩
  | alignedLo tree =>
    obtain ⟨⟨s, q⟩, h1, h⟩ := except_bind_ok.1 h
    cases h
    have := decodeSymbol_ok h1
    exact ⟨⟨_, rfl⟩, this.1, this.2.1⟩
  | extLen => exact decodeExtLen_ok h
  | uncompR =>
    obtain ⟨⟨a, p0⟩, h0, h⟩ := except_bind_ok.1 h
    obtain ⟨⟨b, p1⟩, h1, h⟩ := except_bind_ok.1 h
    obtain ⟨⟨d, p2⟩, h2, h⟩ := except_bind_ok.1 h
    cases h
    have e0 := readU32LE_ok_pos h0
    have e1 := readU32LE_ok_pos h1
    have e2 := readU32LE_ok_pos h2
    exact ⟨⟨_, _, _, rfl⟩, by omega, by omega, by omega⟩
  | raw =>
    obtain ⟨⟨b, q⟩, h1, h⟩ := except_bind_ok.1 h
    obtain ⟨ha, hl, e⟩ := readRawByte_ok.1 h1; cases e; cases h
    exact ⟨⟨_, rfl⟩, ha, rfl, by omega⟩
  | oddPad =>
    obtain ⟨⟨b, q⟩, h1, h⟩ := except_bind_ok.1 h
    obtain ⟨ha, hl, e⟩ := readRawByte_ok.1 h1; cases e; cases h
    exact ⟨⟨_, rfl⟩, ha, rfl, by omega⟩

/-- What a format needs of the state for its decode to be defined: its tree built, or the cursor at a byte
(20_memory.md R79, 41_huffman.md R177). -/
def Format.ready (pos : Nat) : Format → Prop
  | .ptOp tree => tree.isSome = true
  | .mainSym tree => tree.isSome = true
  | .lenSym tree => tree.isSome = true
  | .alignedLo tree => tree.isSome = true
  | .uncompR => pos % 8 = 0
  | .raw => pos % 8 = 0
  | .oddPad => pos % 8 = 0
  | _ => True

/-- A decode that stops where it is defined stops by a fault. -/
theorem decode_error {g : Config} {fmt : Format} {pos : Nat} {e : ReadStop} (h : decode g fmt pos = .error e)
    (hr : fmt.ready pos) : ∃ k, e = .fault k := by
  have bitsFault : ∀ {p n : Nat} {e : ReadStop}, readBits g p n = .error e → ∃ k, e = .fault k :=
    fun h => ⟨_, (readBits_error.1 h).2⟩
  cases fmt with
  | preamble =>
    rcases except_bind_error.1 h with h | ⟨⟨f, q⟩, -, h⟩
    · exact bitsFault h
    · simp only at h
      split at h
      · cases h
      · rcases except_bind_error.1 h with h | ⟨⟨n, r⟩, -, h⟩
        · exact ⟨_, readField_error h⟩
        · cases h
  | header =>
    rcases except_bind_error.1 h with h | ⟨⟨f, q⟩, -, h⟩
    · exact bitsFault h
    · simp only at h
      split at h
      · cases h
      · split at h
        · cases h
        · rcases except_bind_error.1 h with h | ⟨⟨n, r⟩, -, h⟩
          · exact ⟨_, readField_error h⟩
          · cases h
  | pretree =>
    rcases except_bind_error.1 h with h | ⟨⟨f, q⟩, -, h⟩
    · exact ⟨_, readRun_error h⟩
    · cases h
  | ptOp tree =>
    rcases except_bind_error.1 h with h | ⟨⟨s, q⟩, -, h⟩
    · exact decodeSymbol_error h hr
    · simp only at h
      repeat' split at h
      · cases h
      · rcases except_bind_error.1 h with h | ⟨⟨z, r⟩, -, h⟩
        · exact bitsFault h
        · cases h
      · rcases except_bind_error.1 h with h | ⟨⟨z, r⟩, -, h⟩
        · exact bitsFault h
        · cases h
      · rcases except_bind_error.1 h with h | ⟨⟨z, r⟩, -, h⟩
        · exact bitsFault h
        · rcases except_bind_error.1 h with h | ⟨⟨z, r⟩, -, h⟩
          · exact decodeSymbol_error h hr
          · cases h
  | altree =>
    rcases except_bind_error.1 h with h | ⟨⟨f, q⟩, -, h⟩
    · exact ⟨_, readRun_error h⟩
    · cases h
  | mainSym tree =>
    rcases except_bind_error.1 h with h | ⟨⟨s, q⟩, -, h⟩
    · exact decodeSymbol_error h hr
    · cases h
  | lenSym tree =>
    rcases except_bind_error.1 h with h | ⟨⟨s, q⟩, -, h⟩
    · exact decodeSymbol_error h hr
    · cases h
  | footerV fb =>
    rcases except_bind_error.1 h with h | ⟨⟨s, q⟩, -, h⟩
    · exact ⟨_, readField_error h⟩
    · cases h
  | footerA fb =>
    rcases except_bind_error.1 h with h | ⟨⟨s, q⟩, -, h⟩
    · exact ⟨_, readField_error h⟩
    · cases h
  | alignedLo tree =>
    rcases except_bind_error.1 h with h | ⟨⟨s, q⟩, -, h⟩
    · exact decodeSymbol_error h hr
    · cases h
  | extLen =>
    rcases except_bind_error.1 h with h | ⟨⟨b0, q⟩, -, h⟩
    · exact bitsFault h
    simp only at h
    split at h
    · rcases except_bind_error.1 h with h | ⟨⟨z, r⟩, -, h⟩
      · exact bitsFault h
      · cases h
    rcases except_bind_error.1 h with h | ⟨⟨b1, q⟩, -, h⟩
    · exact bitsFault h
    simp only at h
    split at h
    · rcases except_bind_error.1 h with h | ⟨⟨z, r⟩, -, h⟩
      · exact bitsFault h
      · cases h
    rcases except_bind_error.1 h with h | ⟨⟨b2, q⟩, -, h⟩
    · exact bitsFault h
    simp only at h
    split at h
    all_goals
      rcases except_bind_error.1 h with h | ⟨⟨z, r⟩, -, h⟩
      · exact bitsFault h
      · cases h
  | uncompR =>
    rcases except_bind_error.1 h with h | ⟨⟨a, p0⟩, h0, h⟩
    · exact ⟨_, readU32LE_error h hr⟩
    have e0 := readU32LE_ok_pos h0
    rcases except_bind_error.1 h with h | ⟨⟨a, p1⟩, h1, h⟩
    · exact ⟨_, readU32LE_error h (by omega)⟩
    have e1 := readU32LE_ok_pos h1
    rcases except_bind_error.1 h with h | ⟨⟨a, p2⟩, h2, h⟩
    · exact ⟨_, readU32LE_error h (by omega)⟩
    · cases h
  | raw =>
    rcases except_bind_error.1 h with h | ⟨⟨s, q⟩, -, h⟩
    · exact ⟨_, readRawByte_error h hr⟩
    · cases h
  | oddPad =>
    rcases except_bind_error.1 h with h | ⟨⟨s, q⟩, -, h⟩
    · exact ⟨_, readRawByte_error h hr⟩
    · cases h

end Sys2Proof
end

