-- ==== Sys2Proof/Laws/State.lean ====
section
/-! SUPPORT. One lemma per field per named update of the registers and of the state: what the update makes of the
field. -/

namespace Sys2Proof.Machine

/-! ## The bit cursor -/

@[simp] theorem at_bitpos (c : Regs) (p : Nat) : (c.at p).bitpos = p := rfl
@[simp] theorem at_r0 (c : Regs) (p : Nat) : (c.at p).r0 = c.r0 := rfl
@[simp] theorem at_r1 (c : Regs) (p : Nat) : (c.at p).r1 = c.r1 := rfl
@[simp] theorem at_r2 (c : Regs) (p : Nat) : (c.at p).r2 = c.r2 := rfl
@[simp] theorem at_win (c : Regs) (p : Nat) : (c.at p).win = c.win := rfl
@[simp] theorem at_wpos (c : Regs) (p : Nat) : (c.at p).wpos = c.wpos := rfl
@[simp] theorem at_produced (c : Regs) (p : Nat) : (c.at p).produced = c.produced := rfl
@[simp] theorem at_mainLen (c : Regs) (p : Nat) : (c.at p).mainLen = c.mainLen := rfl
@[simp] theorem at_lenLen (c : Regs) (p : Nat) : (c.at p).lenLen = c.lenLen := rfl
@[simp] theorem at_alLen (c : Regs) (p : Nat) : (c.at p).alLen = c.alLen := rfl
@[simp] theorem at_ptLen (c : Regs) (p : Nat) : (c.at p).ptLen = c.ptLen := rfl
@[simp] theorem at_mainTree (c : Regs) (p : Nat) : (c.at p).mainTree = c.mainTree := rfl
@[simp] theorem at_lengthTree (c : Regs) (p : Nat) : (c.at p).lengthTree = c.lengthTree := rfl
@[simp] theorem at_alignedTree (c : Regs) (p : Nat) : (c.at p).alignedTree = c.alignedTree := rfl
@[simp] theorem at_preTree (c : Regs) (p : Nat) : (c.at p).preTree = c.preTree := rfl
@[simp] theorem at_state (c : Regs) (p : Nat) : (c.at p).state = c.state := rfl
@[simp] theorem at_btype (c : Regs) (p : Nat) : (c.at p).btype = c.btype := rfl
@[simp] theorem at_blockLen (c : Regs) (p : Nat) : (c.at p).blockLen = c.blockLen := rfl
@[simp] theorem at_remaining (c : Regs) (p : Nat) : (c.at p).remaining = c.remaining := rfl
@[simp] theorem at_e8Flag (c : Regs) (p : Nat) : (c.at p).e8Flag = c.e8Flag := rfl
@[simp] theorem at_e8Size (c : Regs) (p : Nat) : (c.at p).e8Size = c.e8Size := rfl
@[simp] theorem at_fault (c : Regs) (p : Nat) : (c.at p).fault = c.fault := rfl
@[simp] theorem at_chunkFill (c : Regs) (p : Nat) : (c.at p).chunkFill = c.chunkFill := rfl
@[simp] theorem at_chunkBuf (c : Regs) (p : Nat) : (c.at p).chunkBuf = c.chunkBuf := rfl

/-! ## STATE -/

@[simp] theorem enter_bitpos (c : Regs) (x : BlockState) : (c.enter x).bitpos = c.bitpos := rfl
@[simp] theorem enter_r0 (c : Regs) (x : BlockState) : (c.enter x).r0 = c.r0 := rfl
@[simp] theorem enter_r1 (c : Regs) (x : BlockState) : (c.enter x).r1 = c.r1 := rfl
@[simp] theorem enter_r2 (c : Regs) (x : BlockState) : (c.enter x).r2 = c.r2 := rfl
@[simp] theorem enter_win (c : Regs) (x : BlockState) : (c.enter x).win = c.win := rfl
@[simp] theorem enter_wpos (c : Regs) (x : BlockState) : (c.enter x).wpos = c.wpos := rfl
@[simp] theorem enter_produced (c : Regs) (x : BlockState) : (c.enter x).produced = c.produced := rfl
@[simp] theorem enter_mainLen (c : Regs) (x : BlockState) : (c.enter x).mainLen = c.mainLen := rfl
@[simp] theorem enter_lenLen (c : Regs) (x : BlockState) : (c.enter x).lenLen = c.lenLen := rfl
@[simp] theorem enter_alLen (c : Regs) (x : BlockState) : (c.enter x).alLen = c.alLen := rfl
@[simp] theorem enter_ptLen (c : Regs) (x : BlockState) : (c.enter x).ptLen = c.ptLen := rfl
@[simp] theorem enter_mainTree (c : Regs) (x : BlockState) : (c.enter x).mainTree = c.mainTree := rfl
@[simp] theorem enter_lengthTree (c : Regs) (x : BlockState) : (c.enter x).lengthTree = c.lengthTree := rfl
@[simp] theorem enter_alignedTree (c : Regs) (x : BlockState) : (c.enter x).alignedTree = c.alignedTree := rfl
@[simp] theorem enter_preTree (c : Regs) (x : BlockState) : (c.enter x).preTree = c.preTree := rfl
@[simp] theorem enter_state (c : Regs) (x : BlockState) : (c.enter x).state = x := rfl
@[simp] theorem enter_btype (c : Regs) (x : BlockState) : (c.enter x).btype = c.btype := rfl
@[simp] theorem enter_blockLen (c : Regs) (x : BlockState) : (c.enter x).blockLen = c.blockLen := rfl
@[simp] theorem enter_remaining (c : Regs) (x : BlockState) : (c.enter x).remaining = c.remaining := rfl
@[simp] theorem enter_e8Flag (c : Regs) (x : BlockState) : (c.enter x).e8Flag = c.e8Flag := rfl
@[simp] theorem enter_e8Size (c : Regs) (x : BlockState) : (c.enter x).e8Size = c.e8Size := rfl
@[simp] theorem enter_fault (c : Regs) (x : BlockState) : (c.enter x).fault = c.fault := rfl
@[simp] theorem enter_chunkFill (c : Regs) (x : BlockState) : (c.enter x).chunkFill = c.chunkFill := rfl
@[simp] theorem enter_chunkBuf (c : Regs) (x : BlockState) : (c.enter x).chunkBuf = c.chunkBuf := rfl

/-! ## The offset cache -/

@[simp] theorem setCache_bitpos (c : Regs) (a b d : U32) : (c.setCache a b d).bitpos = c.bitpos := rfl
@[simp] theorem setCache_r0 (c : Regs) (a b d : U32) : (c.setCache a b d).r0 = a := rfl
@[simp] theorem setCache_r1 (c : Regs) (a b d : U32) : (c.setCache a b d).r1 = b := rfl
@[simp] theorem setCache_r2 (c : Regs) (a b d : U32) : (c.setCache a b d).r2 = d := rfl
@[simp] theorem setCache_win (c : Regs) (a b d : U32) : (c.setCache a b d).win = c.win := rfl
@[simp] theorem setCache_wpos (c : Regs) (a b d : U32) : (c.setCache a b d).wpos = c.wpos := rfl
@[simp] theorem setCache_produced (c : Regs) (a b d : U32) : (c.setCache a b d).produced = c.produced := rfl
@[simp] theorem setCache_mainLen (c : Regs) (a b d : U32) : (c.setCache a b d).mainLen = c.mainLen := rfl
@[simp] theorem setCache_lenLen (c : Regs) (a b d : U32) : (c.setCache a b d).lenLen = c.lenLen := rfl
@[simp] theorem setCache_alLen (c : Regs) (a b d : U32) : (c.setCache a b d).alLen = c.alLen := rfl
@[simp] theorem setCache_ptLen (c : Regs) (a b d : U32) : (c.setCache a b d).ptLen = c.ptLen := rfl
@[simp] theorem setCache_mainTree (c : Regs) (a b d : U32) : (c.setCache a b d).mainTree = c.mainTree := rfl
@[simp] theorem setCache_lengthTree (c : Regs) (a b d : U32) : (c.setCache a b d).lengthTree = c.lengthTree := rfl
@[simp] theorem setCache_alignedTree (c : Regs) (a b d : U32) : (c.setCache a b d).alignedTree = c.alignedTree := rfl
@[simp] theorem setCache_preTree (c : Regs) (a b d : U32) : (c.setCache a b d).preTree = c.preTree := rfl
@[simp] theorem setCache_state (c : Regs) (a b d : U32) : (c.setCache a b d).state = c.state := rfl
@[simp] theorem setCache_btype (c : Regs) (a b d : U32) : (c.setCache a b d).btype = c.btype := rfl
@[simp] theorem setCache_blockLen (c : Regs) (a b d : U32) : (c.setCache a b d).blockLen = c.blockLen := rfl
@[simp] theorem setCache_remaining (c : Regs) (a b d : U32) : (c.setCache a b d).remaining = c.remaining := rfl
@[simp] theorem setCache_e8Flag (c : Regs) (a b d : U32) : (c.setCache a b d).e8Flag = c.e8Flag := rfl
@[simp] theorem setCache_e8Size (c : Regs) (a b d : U32) : (c.setCache a b d).e8Size = c.e8Size := rfl
@[simp] theorem setCache_fault (c : Regs) (a b d : U32) : (c.setCache a b d).fault = c.fault := rfl
@[simp] theorem setCache_chunkFill (c : Regs) (a b d : U32) : (c.setCache a b d).chunkFill = c.chunkFill := rfl
@[simp] theorem setCache_chunkBuf (c : Regs) (a b d : U32) : (c.setCache a b d).chunkBuf = c.chunkBuf := rfl

/-! ## EmitByte -/

@[simp] theorem emitByte_bitpos (g : Config) (c : Regs) (b : Byte) : (emitByte g c b).bitpos = c.bitpos := rfl
@[simp] theorem emitByte_r0 (g : Config) (c : Regs) (b : Byte) : (emitByte g c b).r0 = c.r0 := rfl
@[simp] theorem emitByte_r1 (g : Config) (c : Regs) (b : Byte) : (emitByte g c b).r1 = c.r1 := rfl
@[simp] theorem emitByte_r2 (g : Config) (c : Regs) (b : Byte) : (emitByte g c b).r2 = c.r2 := rfl
@[simp] theorem emitByte_win (g : Config) (c : Regs) (b : Byte) : (emitByte g c b).win = winWrite c.win c.wpos b := rfl
@[simp] theorem emitByte_wpos (g : Config) (c : Regs) (b : Byte) : (emitByte g c b).wpos = (c.wpos + 1) % g.capacity := rfl
@[simp] theorem emitByte_produced (g : Config) (c : Regs) (b : Byte) : (emitByte g c b).produced = c.produced + 1 := rfl
@[simp] theorem emitByte_mainLen (g : Config) (c : Regs) (b : Byte) : (emitByte g c b).mainLen = c.mainLen := rfl
@[simp] theorem emitByte_lenLen (g : Config) (c : Regs) (b : Byte) : (emitByte g c b).lenLen = c.lenLen := rfl
@[simp] theorem emitByte_alLen (g : Config) (c : Regs) (b : Byte) : (emitByte g c b).alLen = c.alLen := rfl
@[simp] theorem emitByte_ptLen (g : Config) (c : Regs) (b : Byte) : (emitByte g c b).ptLen = c.ptLen := rfl
@[simp] theorem emitByte_mainTree (g : Config) (c : Regs) (b : Byte) : (emitByte g c b).mainTree = c.mainTree := rfl
@[simp] theorem emitByte_lengthTree (g : Config) (c : Regs) (b : Byte) : (emitByte g c b).lengthTree = c.lengthTree := rfl
@[simp] theorem emitByte_alignedTree (g : Config) (c : Regs) (b : Byte) : (emitByte g c b).alignedTree = c.alignedTree := rfl
@[simp] theorem emitByte_preTree (g : Config) (c : Regs) (b : Byte) : (emitByte g c b).preTree = c.preTree := rfl
@[simp] theorem emitByte_state (g : Config) (c : Regs) (b : Byte) : (emitByte g c b).state = c.state := rfl
@[simp] theorem emitByte_btype (g : Config) (c : Regs) (b : Byte) : (emitByte g c b).btype = c.btype := rfl
@[simp] theorem emitByte_blockLen (g : Config) (c : Regs) (b : Byte) : (emitByte g c b).blockLen = c.blockLen := rfl
@[simp] theorem emitByte_remaining (g : Config) (c : Regs) (b : Byte) : (emitByte g c b).remaining = c.remaining - 1 := rfl
@[simp] theorem emitByte_e8Flag (g : Config) (c : Regs) (b : Byte) : (emitByte g c b).e8Flag = c.e8Flag := rfl
@[simp] theorem emitByte_e8Size (g : Config) (c : Regs) (b : Byte) : (emitByte g c b).e8Size = c.e8Size := rfl
@[simp] theorem emitByte_fault (g : Config) (c : Regs) (b : Byte) : (emitByte g c b).fault = c.fault := rfl
@[simp] theorem emitByte_chunkFill (g : Config) (c : Regs) (b : Byte) : (emitByte g c b).chunkFill = c.chunkFill + 1 := rfl
@[simp] theorem emitByte_chunkBuf (g : Config) (c : Regs) (b : Byte) : (emitByte g c b).chunkBuf = c.chunkBuf ++ [b] := rfl

/-! ## EndUncomp -/

@[simp] theorem endUncomp_bitpos (g : Config) (c : Regs) : (endUncomp g c).bitpos = clampWord g c.bitpos := rfl
@[simp] theorem endUncomp_r0 (g : Config) (c : Regs) : (endUncomp g c).r0 = c.r0 := rfl
@[simp] theorem endUncomp_r1 (g : Config) (c : Regs) : (endUncomp g c).r1 = c.r1 := rfl
@[simp] theorem endUncomp_r2 (g : Config) (c : Regs) : (endUncomp g c).r2 = c.r2 := rfl
@[simp] theorem endUncomp_win (g : Config) (c : Regs) : (endUncomp g c).win = c.win := rfl
@[simp] theorem endUncomp_wpos (g : Config) (c : Regs) : (endUncomp g c).wpos = c.wpos := rfl
@[simp] theorem endUncomp_produced (g : Config) (c : Regs) : (endUncomp g c).produced = c.produced := rfl
@[simp] theorem endUncomp_mainLen (g : Config) (c : Regs) : (endUncomp g c).mainLen = c.mainLen := rfl
@[simp] theorem endUncomp_lenLen (g : Config) (c : Regs) : (endUncomp g c).lenLen = c.lenLen := rfl
@[simp] theorem endUncomp_alLen (g : Config) (c : Regs) : (endUncomp g c).alLen = c.alLen := rfl
@[simp] theorem endUncomp_ptLen (g : Config) (c : Regs) : (endUncomp g c).ptLen = c.ptLen := rfl
@[simp] theorem endUncomp_mainTree (g : Config) (c : Regs) : (endUncomp g c).mainTree = c.mainTree := rfl
@[simp] theorem endUncomp_lengthTree (g : Config) (c : Regs) : (endUncomp g c).lengthTree = c.lengthTree := rfl
@[simp] theorem endUncomp_alignedTree (g : Config) (c : Regs) : (endUncomp g c).alignedTree = c.alignedTree := rfl
@[simp] theorem endUncomp_preTree (g : Config) (c : Regs) : (endUncomp g c).preTree = c.preTree := rfl
@[simp] theorem endUncomp_state (g : Config) (c : Regs) : (endUncomp g c).state = BlockState.await := rfl
@[simp] theorem endUncomp_btype (g : Config) (c : Regs) : (endUncomp g c).btype = c.btype := rfl
@[simp] theorem endUncomp_blockLen (g : Config) (c : Regs) : (endUncomp g c).blockLen = c.blockLen := rfl
@[simp] theorem endUncomp_remaining (g : Config) (c : Regs) : (endUncomp g c).remaining = c.remaining := rfl
@[simp] theorem endUncomp_e8Flag (g : Config) (c : Regs) : (endUncomp g c).e8Flag = c.e8Flag := rfl
@[simp] theorem endUncomp_e8Size (g : Config) (c : Regs) : (endUncomp g c).e8Size = c.e8Size := rfl
@[simp] theorem endUncomp_fault (g : Config) (c : Regs) : (endUncomp g c).fault = c.fault := rfl
@[simp] theorem endUncomp_chunkFill (g : Config) (c : Regs) : (endUncomp g c).chunkFill = c.chunkFill := rfl
@[simp] theorem endUncomp_chunkBuf (g : Config) (c : Regs) : (endUncomp g c).chunkBuf = c.chunkBuf := rfl

/-! ## The block a header enters -/

@[simp] theorem enterBlock_bitpos (c : Regs) : (enterBlock c).bitpos = c.bitpos := rfl
@[simp] theorem enterBlock_r0 (c : Regs) : (enterBlock c).r0 = c.r0 := rfl
@[simp] theorem enterBlock_r1 (c : Regs) : (enterBlock c).r1 = c.r1 := rfl
@[simp] theorem enterBlock_r2 (c : Regs) : (enterBlock c).r2 = c.r2 := rfl
@[simp] theorem enterBlock_win (c : Regs) : (enterBlock c).win = c.win := rfl
@[simp] theorem enterBlock_wpos (c : Regs) : (enterBlock c).wpos = c.wpos := rfl
@[simp] theorem enterBlock_produced (c : Regs) : (enterBlock c).produced = c.produced := rfl
@[simp] theorem enterBlock_mainLen (c : Regs) : (enterBlock c).mainLen = c.mainLen := rfl
@[simp] theorem enterBlock_lenLen (c : Regs) : (enterBlock c).lenLen = c.lenLen := rfl
@[simp] theorem enterBlock_alLen (c : Regs) : (enterBlock c).alLen = c.alLen := rfl
@[simp] theorem enterBlock_ptLen (c : Regs) : (enterBlock c).ptLen = c.ptLen := rfl
@[simp] theorem enterBlock_mainTree (c : Regs) : (enterBlock c).mainTree = c.mainTree := rfl
@[simp] theorem enterBlock_lengthTree (c : Regs) : (enterBlock c).lengthTree = c.lengthTree := rfl
@[simp] theorem enterBlock_alignedTree (c : Regs) : (enterBlock c).alignedTree = c.alignedTree := rfl
@[simp] theorem enterBlock_preTree (c : Regs) : (enterBlock c).preTree = c.preTree := rfl
@[simp] theorem enterBlock_state (c : Regs) : (enterBlock c).state = if c.btype = 2 then BlockState.aligned else BlockState.verbatim := rfl
@[simp] theorem enterBlock_btype (c : Regs) : (enterBlock c).btype = c.btype := rfl
@[simp] theorem enterBlock_blockLen (c : Regs) : (enterBlock c).blockLen = c.blockLen := rfl
@[simp] theorem enterBlock_remaining (c : Regs) : (enterBlock c).remaining = c.blockLen := rfl
@[simp] theorem enterBlock_e8Flag (c : Regs) : (enterBlock c).e8Flag = c.e8Flag := rfl
@[simp] theorem enterBlock_e8Size (c : Regs) : (enterBlock c).e8Size = c.e8Size := rfl
@[simp] theorem enterBlock_fault (c : Regs) : (enterBlock c).fault = c.fault := rfl
@[simp] theorem enterBlock_chunkFill (c : Regs) : (enterBlock c).chunkFill = c.chunkFill := rfl
@[simp] theorem enterBlock_chunkBuf (c : Regs) : (enterBlock c).chunkBuf = c.chunkBuf := rfl

/-! ## The end of a main item -/

@[simp] theorem endOfItem_bitpos (c : Regs) : (endOfItem c).bitpos = c.bitpos := by unfold endOfItem; split <;> rfl
@[simp] theorem endOfItem_r0 (c : Regs) : (endOfItem c).r0 = c.r0 := by unfold endOfItem; split <;> rfl
@[simp] theorem endOfItem_r1 (c : Regs) : (endOfItem c).r1 = c.r1 := by unfold endOfItem; split <;> rfl
@[simp] theorem endOfItem_r2 (c : Regs) : (endOfItem c).r2 = c.r2 := by unfold endOfItem; split <;> rfl
@[simp] theorem endOfItem_win (c : Regs) : (endOfItem c).win = c.win := by unfold endOfItem; split <;> rfl
@[simp] theorem endOfItem_wpos (c : Regs) : (endOfItem c).wpos = c.wpos := by unfold endOfItem; split <;> rfl
@[simp] theorem endOfItem_produced (c : Regs) : (endOfItem c).produced = c.produced := by unfold endOfItem; split <;> rfl
@[simp] theorem endOfItem_mainLen (c : Regs) : (endOfItem c).mainLen = c.mainLen := by unfold endOfItem; split <;> rfl
@[simp] theorem endOfItem_lenLen (c : Regs) : (endOfItem c).lenLen = c.lenLen := by unfold endOfItem; split <;> rfl
@[simp] theorem endOfItem_alLen (c : Regs) : (endOfItem c).alLen = c.alLen := by unfold endOfItem; split <;> rfl
@[simp] theorem endOfItem_ptLen (c : Regs) : (endOfItem c).ptLen = c.ptLen := by unfold endOfItem; split <;> rfl
@[simp] theorem endOfItem_mainTree (c : Regs) : (endOfItem c).mainTree = c.mainTree := by unfold endOfItem; split <;> rfl
@[simp] theorem endOfItem_lengthTree (c : Regs) : (endOfItem c).lengthTree = c.lengthTree := by unfold endOfItem; split <;> rfl
@[simp] theorem endOfItem_alignedTree (c : Regs) : (endOfItem c).alignedTree = c.alignedTree := by unfold endOfItem; split <;> rfl
@[simp] theorem endOfItem_preTree (c : Regs) : (endOfItem c).preTree = c.preTree := by unfold endOfItem; split <;> rfl
@[simp] theorem endOfItem_state (c : Regs) :
    (endOfItem c).state = if c.remaining = 0 then BlockState.await else c.state := by unfold endOfItem; split <;> rfl
@[simp] theorem endOfItem_btype (c : Regs) : (endOfItem c).btype = c.btype := by unfold endOfItem; split <;> rfl
@[simp] theorem endOfItem_blockLen (c : Regs) : (endOfItem c).blockLen = c.blockLen := by unfold endOfItem; split <;> rfl
@[simp] theorem endOfItem_remaining (c : Regs) : (endOfItem c).remaining = c.remaining := by unfold endOfItem; split <;> rfl
@[simp] theorem endOfItem_e8Flag (c : Regs) : (endOfItem c).e8Flag = c.e8Flag := by unfold endOfItem; split <;> rfl
@[simp] theorem endOfItem_e8Size (c : Regs) : (endOfItem c).e8Size = c.e8Size := by unfold endOfItem; split <;> rfl
@[simp] theorem endOfItem_fault (c : Regs) : (endOfItem c).fault = c.fault := by unfold endOfItem; split <;> rfl
@[simp] theorem endOfItem_chunkFill (c : Regs) : (endOfItem c).chunkFill = c.chunkFill := by unfold endOfItem; split <;> rfl
@[simp] theorem endOfItem_chunkBuf (c : Regs) : (endOfItem c).chunkBuf = c.chunkBuf := by unfold endOfItem; split <;> rfl

/-! ## A length array replaced -/

@[simp] theorem put_bitpos (c : Regs) (arr : List Nat) (t : Target) : (t.put c arr).bitpos = c.bitpos := by cases t <;> rfl
@[simp] theorem put_r0 (c : Regs) (arr : List Nat) (t : Target) : (t.put c arr).r0 = c.r0 := by cases t <;> rfl
@[simp] theorem put_r1 (c : Regs) (arr : List Nat) (t : Target) : (t.put c arr).r1 = c.r1 := by cases t <;> rfl
@[simp] theorem put_r2 (c : Regs) (arr : List Nat) (t : Target) : (t.put c arr).r2 = c.r2 := by cases t <;> rfl
@[simp] theorem put_win (c : Regs) (arr : List Nat) (t : Target) : (t.put c arr).win = c.win := by cases t <;> rfl
@[simp] theorem put_wpos (c : Regs) (arr : List Nat) (t : Target) : (t.put c arr).wpos = c.wpos := by cases t <;> rfl
@[simp] theorem put_produced (c : Regs) (arr : List Nat) (t : Target) : (t.put c arr).produced = c.produced := by cases t <;> rfl
@[simp] theorem put_alLen (c : Regs) (arr : List Nat) (t : Target) : (t.put c arr).alLen = c.alLen := by cases t <;> rfl
@[simp] theorem put_ptLen (c : Regs) (arr : List Nat) (t : Target) : (t.put c arr).ptLen = c.ptLen := by cases t <;> rfl
@[simp] theorem put_mainTree (c : Regs) (arr : List Nat) (t : Target) : (t.put c arr).mainTree = c.mainTree := by cases t <;> rfl
@[simp] theorem put_lengthTree (c : Regs) (arr : List Nat) (t : Target) : (t.put c arr).lengthTree = c.lengthTree := by cases t <;> rfl
@[simp] theorem put_alignedTree (c : Regs) (arr : List Nat) (t : Target) : (t.put c arr).alignedTree = c.alignedTree := by cases t <;> rfl
@[simp] theorem put_preTree (c : Regs) (arr : List Nat) (t : Target) : (t.put c arr).preTree = c.preTree := by cases t <;> rfl
@[simp] theorem put_state (c : Regs) (arr : List Nat) (t : Target) : (t.put c arr).state = c.state := by cases t <;> rfl
@[simp] theorem put_btype (c : Regs) (arr : List Nat) (t : Target) : (t.put c arr).btype = c.btype := by cases t <;> rfl
@[simp] theorem put_blockLen (c : Regs) (arr : List Nat) (t : Target) : (t.put c arr).blockLen = c.blockLen := by cases t <;> rfl
@[simp] theorem put_remaining (c : Regs) (arr : List Nat) (t : Target) : (t.put c arr).remaining = c.remaining := by cases t <;> rfl
@[simp] theorem put_e8Flag (c : Regs) (arr : List Nat) (t : Target) : (t.put c arr).e8Flag = c.e8Flag := by cases t <;> rfl
@[simp] theorem put_e8Size (c : Regs) (arr : List Nat) (t : Target) : (t.put c arr).e8Size = c.e8Size := by cases t <;> rfl
@[simp] theorem put_fault (c : Regs) (arr : List Nat) (t : Target) : (t.put c arr).fault = c.fault := by cases t <;> rfl
@[simp] theorem put_chunkFill (c : Regs) (arr : List Nat) (t : Target) : (t.put c arr).chunkFill = c.chunkFill := by cases t <;> rfl
@[simp] theorem put_chunkBuf (c : Regs) (arr : List Nat) (t : Target) : (t.put c arr).chunkBuf = c.chunkBuf := by cases t <;> rfl

@[simp] theorem put_array (c : Regs) (arr : List Nat) (t : Target) : t.array (t.put c arr) = arr := by cases t <;> rfl

theorem put_mainLen (c : Regs) (arr : List Nat) (t : Target) :
    (t.put c arr).mainLen = if t = .lengths then c.mainLen else arr := by cases t <;> rfl

theorem put_lenLen (c : Regs) (arr : List Nat) (t : Target) :
    (t.put c arr).lenLen = if t = .lengths then arr else c.lenLen := by cases t <;> rfl

/-! ## ChunkRealign -/

@[simp] theorem chunkRealign_bitpos (g : Config) (c : Regs) : (chunkRealign g c).bitpos = if g.params.chunkRealign ∧ (c.state = .await ∨ c.state = .verbatim ∨ c.state = .aligned) then clampWord g c.bitpos
      else c.bitpos := by unfold chunkRealign; split <;> rfl
@[simp] theorem chunkRealign_r0 (g : Config) (c : Regs) : (chunkRealign g c).r0 = c.r0 := by unfold chunkRealign; split <;> rfl
@[simp] theorem chunkRealign_r1 (g : Config) (c : Regs) : (chunkRealign g c).r1 = c.r1 := by unfold chunkRealign; split <;> rfl
@[simp] theorem chunkRealign_r2 (g : Config) (c : Regs) : (chunkRealign g c).r2 = c.r2 := by unfold chunkRealign; split <;> rfl
@[simp] theorem chunkRealign_win (g : Config) (c : Regs) : (chunkRealign g c).win = c.win := by unfold chunkRealign; split <;> rfl
@[simp] theorem chunkRealign_wpos (g : Config) (c : Regs) : (chunkRealign g c).wpos = c.wpos := by unfold chunkRealign; split <;> rfl
@[simp] theorem chunkRealign_produced (g : Config) (c : Regs) : (chunkRealign g c).produced = c.produced := by unfold chunkRealign; split <;> rfl
@[simp] theorem chunkRealign_mainLen (g : Config) (c : Regs) : (chunkRealign g c).mainLen = c.mainLen := by unfold chunkRealign; split <;> rfl
@[simp] theorem chunkRealign_lenLen (g : Config) (c : Regs) : (chunkRealign g c).lenLen = c.lenLen := by unfold chunkRealign; split <;> rfl
@[simp] theorem chunkRealign_alLen (g : Config) (c : Regs) : (chunkRealign g c).alLen = c.alLen := by unfold chunkRealign; split <;> rfl
@[simp] theorem chunkRealign_ptLen (g : Config) (c : Regs) : (chunkRealign g c).ptLen = c.ptLen := by unfold chunkRealign; split <;> rfl
@[simp] theorem chunkRealign_mainTree (g : Config) (c : Regs) : (chunkRealign g c).mainTree = c.mainTree := by unfold chunkRealign; split <;> rfl
@[simp] theorem chunkRealign_lengthTree (g : Config) (c : Regs) : (chunkRealign g c).lengthTree = c.lengthTree := by unfold chunkRealign; split <;> rfl
@[simp] theorem chunkRealign_alignedTree (g : Config) (c : Regs) : (chunkRealign g c).alignedTree = c.alignedTree := by unfold chunkRealign; split <;> rfl
@[simp] theorem chunkRealign_preTree (g : Config) (c : Regs) : (chunkRealign g c).preTree = c.preTree := by unfold chunkRealign; split <;> rfl
@[simp] theorem chunkRealign_state (g : Config) (c : Regs) : (chunkRealign g c).state = c.state := by unfold chunkRealign; split <;> rfl
@[simp] theorem chunkRealign_btype (g : Config) (c : Regs) : (chunkRealign g c).btype = c.btype := by unfold chunkRealign; split <;> rfl
@[simp] theorem chunkRealign_blockLen (g : Config) (c : Regs) : (chunkRealign g c).blockLen = c.blockLen := by unfold chunkRealign; split <;> rfl
@[simp] theorem chunkRealign_remaining (g : Config) (c : Regs) : (chunkRealign g c).remaining = c.remaining := by unfold chunkRealign; split <;> rfl
@[simp] theorem chunkRealign_e8Flag (g : Config) (c : Regs) : (chunkRealign g c).e8Flag = c.e8Flag := by unfold chunkRealign; split <;> rfl
@[simp] theorem chunkRealign_e8Size (g : Config) (c : Regs) : (chunkRealign g c).e8Size = c.e8Size := by unfold chunkRealign; split <;> rfl
@[simp] theorem chunkRealign_fault (g : Config) (c : Regs) : (chunkRealign g c).fault = c.fault := by unfold chunkRealign; split <;> rfl
@[simp] theorem chunkRealign_chunkFill (g : Config) (c : Regs) : (chunkRealign g c).chunkFill = c.chunkFill := by unfold chunkRealign; split <;> rfl
@[simp] theorem chunkRealign_chunkBuf (g : Config) (c : Regs) : (chunkRealign g c).chunkBuf = c.chunkBuf := by unfold chunkRealign; split <;> rfl

/-! ## The cache update of a match: only R0, R1 and R2 -/

theorem updateCache_eq_setCache (g : Config) (c : Regs) (slot f : Nat) :
    ∃ a b d, updateCache g c slot f = c.setCache a b d := by
  unfold updateCache; repeat' split
  all_goals exact ⟨_, _, _, rfl⟩

@[simp] theorem updateCache_bitpos (g : Config) (c : Regs) (slot f : Nat) :
    (updateCache g c slot f).bitpos = c.bitpos := by
  obtain ⟨_, _, _, h⟩ := updateCache_eq_setCache g c slot f; rw [h, setCache_bitpos]
@[simp] theorem updateCache_win (g : Config) (c : Regs) (slot f : Nat) :
    (updateCache g c slot f).win = c.win := by
  obtain ⟨_, _, _, h⟩ := updateCache_eq_setCache g c slot f; rw [h, setCache_win]
@[simp] theorem updateCache_wpos (g : Config) (c : Regs) (slot f : Nat) :
    (updateCache g c slot f).wpos = c.wpos := by
  obtain ⟨_, _, _, h⟩ := updateCache_eq_setCache g c slot f; rw [h, setCache_wpos]
@[simp] theorem updateCache_produced (g : Config) (c : Regs) (slot f : Nat) :
    (updateCache g c slot f).produced = c.produced := by
  obtain ⟨_, _, _, h⟩ := updateCache_eq_setCache g c slot f; rw [h, setCache_produced]
@[simp] theorem updateCache_mainLen (g : Config) (c : Regs) (slot f : Nat) :
    (updateCache g c slot f).mainLen = c.mainLen := by
  obtain ⟨_, _, _, h⟩ := updateCache_eq_setCache g c slot f; rw [h, setCache_mainLen]
@[simp] theorem updateCache_lenLen (g : Config) (c : Regs) (slot f : Nat) :
    (updateCache g c slot f).lenLen = c.lenLen := by
  obtain ⟨_, _, _, h⟩ := updateCache_eq_setCache g c slot f; rw [h, setCache_lenLen]
@[simp] theorem updateCache_alLen (g : Config) (c : Regs) (slot f : Nat) :
    (updateCache g c slot f).alLen = c.alLen := by
  obtain ⟨_, _, _, h⟩ := updateCache_eq_setCache g c slot f; rw [h, setCache_alLen]
@[simp] theorem updateCache_ptLen (g : Config) (c : Regs) (slot f : Nat) :
    (updateCache g c slot f).ptLen = c.ptLen := by
  obtain ⟨_, _, _, h⟩ := updateCache_eq_setCache g c slot f; rw [h, setCache_ptLen]
@[simp] theorem updateCache_mainTree (g : Config) (c : Regs) (slot f : Nat) :
    (updateCache g c slot f).mainTree = c.mainTree := by
  obtain ⟨_, _, _, h⟩ := updateCache_eq_setCache g c slot f; rw [h, setCache_mainTree]
@[simp] theorem updateCache_lengthTree (g : Config) (c : Regs) (slot f : Nat) :
    (updateCache g c slot f).lengthTree = c.lengthTree := by
  obtain ⟨_, _, _, h⟩ := updateCache_eq_setCache g c slot f; rw [h, setCache_lengthTree]
@[simp] theorem updateCache_alignedTree (g : Config) (c : Regs) (slot f : Nat) :
    (updateCache g c slot f).alignedTree = c.alignedTree := by
  obtain ⟨_, _, _, h⟩ := updateCache_eq_setCache g c slot f; rw [h, setCache_alignedTree]
@[simp] theorem updateCache_preTree (g : Config) (c : Regs) (slot f : Nat) :
    (updateCache g c slot f).preTree = c.preTree := by
  obtain ⟨_, _, _, h⟩ := updateCache_eq_setCache g c slot f; rw [h, setCache_preTree]
@[simp] theorem updateCache_state (g : Config) (c : Regs) (slot f : Nat) :
    (updateCache g c slot f).state = c.state := by
  obtain ⟨_, _, _, h⟩ := updateCache_eq_setCache g c slot f; rw [h, setCache_state]
@[simp] theorem updateCache_btype (g : Config) (c : Regs) (slot f : Nat) :
    (updateCache g c slot f).btype = c.btype := by
  obtain ⟨_, _, _, h⟩ := updateCache_eq_setCache g c slot f; rw [h, setCache_btype]
@[simp] theorem updateCache_blockLen (g : Config) (c : Regs) (slot f : Nat) :
    (updateCache g c slot f).blockLen = c.blockLen := by
  obtain ⟨_, _, _, h⟩ := updateCache_eq_setCache g c slot f; rw [h, setCache_blockLen]
@[simp] theorem updateCache_remaining (g : Config) (c : Regs) (slot f : Nat) :
    (updateCache g c slot f).remaining = c.remaining := by
  obtain ⟨_, _, _, h⟩ := updateCache_eq_setCache g c slot f; rw [h, setCache_remaining]
@[simp] theorem updateCache_e8Flag (g : Config) (c : Regs) (slot f : Nat) :
    (updateCache g c slot f).e8Flag = c.e8Flag := by
  obtain ⟨_, _, _, h⟩ := updateCache_eq_setCache g c slot f; rw [h, setCache_e8Flag]
@[simp] theorem updateCache_e8Size (g : Config) (c : Regs) (slot f : Nat) :
    (updateCache g c slot f).e8Size = c.e8Size := by
  obtain ⟨_, _, _, h⟩ := updateCache_eq_setCache g c slot f; rw [h, setCache_e8Size]
@[simp] theorem updateCache_fault (g : Config) (c : Regs) (slot f : Nat) :
    (updateCache g c slot f).fault = c.fault := by
  obtain ⟨_, _, _, h⟩ := updateCache_eq_setCache g c slot f; rw [h, setCache_fault]
@[simp] theorem updateCache_chunkFill (g : Config) (c : Regs) (slot f : Nat) :
    (updateCache g c slot f).chunkFill = c.chunkFill := by
  obtain ⟨_, _, _, h⟩ := updateCache_eq_setCache g c slot f; rw [h, setCache_chunkFill]
@[simp] theorem updateCache_chunkBuf (g : Config) (c : Regs) (slot f : Nat) :
    (updateCache g c slot f).chunkBuf = c.chunkBuf := by
  obtain ⟨_, _, _, h⟩ := updateCache_eq_setCache g c slot f; rw [h, setCache_chunkBuf]

/-! ## The Step goes on -/

@[simp] theorem working_cfg (s : State) (c : Regs) (ph : Phase) : (s.working c ph).cfg = s.cfg := rfl
@[simp] theorem working_impl (s : State) (c : Regs) (ph : Phase) : (s.working c ph).impl = s.impl := rfl
@[simp] theorem working_regs (s : State) (c : Regs) (ph : Phase) : (s.working c ph).regs = s.regs := rfl
@[simp] theorem working_work (s : State) (c : Regs) (ph : Phase) : (s.working c ph).work = some ⟨c, ph⟩ := rfl
@[simp] theorem working_running (s : State) (c : Regs) (ph : Phase) : (s.working c ph).running = s.running := rfl
@[simp] theorem working_results (s : State) (c : Regs) (ph : Phase) : (s.working c ph).results = s.results := rfl
@[simp] theorem working_port (s : State) (c : Regs) (ph : Phase) : (s.working c ph).port = s.port := rfl

/-! ## A result is handed back -/

@[simp] theorem answer_cfg (s : State) (r : Result) : (s.answer r).cfg = s.cfg := rfl
@[simp] theorem answer_impl (s : State) (r : Result) : (s.answer r).impl = s.impl := rfl
@[simp] theorem answer_regs (s : State) (r : Result) : (s.answer r).regs = s.regs := rfl
@[simp] theorem answer_work (s : State) (r : Result) : (s.answer r).work = s.work := rfl
@[simp] theorem answer_running (s : State) (r : Result) : (s.answer r).running = false := rfl
@[simp] theorem answer_results (s : State) (r : Result) : (s.answer r).results = s.results ++ [r] := rfl
@[simp] theorem answer_port (s : State) (r : Result) : (s.answer r).port = s.port := rfl

/-! ## Fault entry -/

@[simp] theorem takeFault_cfg (s : State) (k : FaultKind) : (s.takeFault k).cfg = s.cfg := rfl
@[simp] theorem takeFault_impl (s : State) (k : FaultKind) : (s.takeFault k).impl = s.impl := rfl
@[simp] theorem takeFault_regs (s : State) (k : FaultKind) : (s.takeFault k).regs = { s.regs with fault := some (reportedAs s.impl k) } := rfl
@[simp] theorem takeFault_work (s : State) (k : FaultKind) : (s.takeFault k).work = none := rfl
@[simp] theorem takeFault_running (s : State) (k : FaultKind) : (s.takeFault k).running = false := rfl
@[simp] theorem takeFault_results (s : State) (k : FaultKind) : (s.takeFault k).results = s.results ++ [.error (reportedAs s.impl k)] := rfl
@[simp] theorem takeFault_port (s : State) (k : FaultKind) : (s.takeFault k).port = s.port := rfl

/-! ## A full chunk -/

@[simp] theorem returnChunk_cfg (s : State) : (s.returnChunk).cfg = s.cfg := rfl
@[simp] theorem returnChunk_impl (s : State) : (s.returnChunk).impl = s.impl := rfl
@[simp] theorem returnChunk_regs (s : State) : (s.returnChunk).regs = chunkRealign s.cfg s.regs := rfl
@[simp] theorem returnChunk_work (s : State) : (s.returnChunk).work = s.work := rfl
@[simp] theorem returnChunk_running (s : State) : (s.returnChunk).running = false := rfl
@[simp] theorem returnChunk_results (s : State) : (s.returnChunk).results = s.results ++ [.chunk s.regs.chunkBuf] := rfl
@[simp] theorem returnChunk_port (s : State) : (s.returnChunk).port = s.port := rfl

/-! ## The end of a Step -/

@[simp] theorem commit_cfg (s : State) (c : Regs) : (s.commit c).cfg = s.cfg := by unfold State.commit; simp only; split <;> rfl
@[simp] theorem commit_impl (s : State) (c : Regs) : (s.commit c).impl = s.impl := by unfold State.commit; simp only; split <;> rfl
@[simp] theorem commit_regs (s : State) (c : Regs) : (s.commit c).regs = c := by unfold State.commit; simp only; split <;> rfl
@[simp] theorem commit_work (s : State) (c : Regs) : (s.commit c).work = none := by unfold State.commit; simp only; split <;> rfl
@[simp] theorem commit_port (s : State) (c : Regs) : (s.commit c).port = s.port := by unfold State.commit; simp only; split <;> rfl

@[simp] theorem commit_running (s : State) (c : Regs) :
    (s.commit c).running = if c.state = .terminal then false else s.running := by
  unfold State.commit; simp only; split <;> rfl

@[simp] theorem commit_results (s : State) (c : Regs) :
    (s.commit c).results =
      if c.state = .terminal then s.results ++ [if 0 < c.chunkFill then .chunk c.chunkBuf else .none]
      else s.results := by
  unfold State.commit; simp only; split <;> rfl

end Sys2Proof.Machine
end

