-- ==== Sys2Proof/Laws/Window.lean ====
section
/-! SUPPORT. The window memory: what a read sees after a write, and that a write keeps the canonical form. -/

namespace Sys2Proof.Machine

/-- A read of the written index sees the written byte (20_memory.md R83). -/
@[simp] theorem winRead_winWrite_same (w : List Host.Cell) (i : Nat) (b : Byte) :
    winRead (winWrite w i b) i = some b := by
  induction w with
  | nil => simp [winWrite, winRead]
  | cons a rest ih =>
    simp only [winWrite]
    split
    · simp [winRead]
    · split
      · simp [winRead]
      · simp only [winRead]; split
        · omega
        · exact ih

/-- A read of another index sees what it saw before (20_memory.md R83). -/
theorem winRead_winWrite_other (w : List Host.Cell) {i j : Nat} (b : Byte) (h : j ≠ i) :
    winRead (winWrite w i b) j = winRead w j := by
  induction w with
  | nil => simp [winWrite, winRead, h.symm]
  | cons a rest ih =>
    simp only [winWrite]
    split
    · simp [winRead, h.symm]
    · split
      · rename_i hij; simp [winRead, h.symm, ← hij]
      · simp only [winRead]; split
        · rfl
        · exact ih

/-- Read after write: the cell written holds the byte, every other cell what it held. -/
theorem winRead_winWrite (w : List Host.Cell) (i j : Nat) (b : Byte) :
    winRead (winWrite w i b) j = if j = i then some b else winRead w j := by
  split
  · next h => rw [h]; exact winRead_winWrite_same w i b
  · next h => exact winRead_winWrite_other w b h

/-- Only a write below i or at i can come first: the head of a written list. -/
theorem winWrite_head (w : List Host.Cell) (i : Nat) (b : Byte) (k : Nat)
    (hk : k < i) (hw : ∀ a rest, w = a :: rest → k < a.1) :
    ∃ a rest, winWrite w i b = a :: rest ∧ k < a.1 := by
  cases w with
  | nil => exact ⟨_, _, rfl, hk⟩
  | cons a rest =>
    simp only [winWrite]
    split
    · exact ⟨_, _, rfl, hk⟩
    · split
      · exact ⟨_, _, rfl, hk⟩
      · exact ⟨_, _, rfl, hw _ _ rfl⟩

/-- The canonical form of a window with a first cell. -/
theorem wf_cons_iff (a : Host.Cell) (w : List Host.Cell) :
    Memory.wf (a :: w) = true ↔ (∀ b rest, w = b :: rest → a.1 < b.1) ∧ Memory.wf w = true := by
  cases w with
  | nil => simp [Memory.wf]
  | cons b rest => simp [Memory.wf]

/-- WinWrite keeps the canonical form. -/
theorem winWrite_wf {w : List Host.Cell} (i : Nat) (b : Byte) (h : Memory.wf w = true) :
    Memory.wf (winWrite w i b) = true := by
  induction w with
  | nil => rfl
  | cons a rest ih =>
    obtain ⟨hhead, hrest⟩ := (wf_cons_iff _ _).1 h
    simp only [winWrite]
    split
    · next hlt => exact (wf_cons_iff _ _).2 ⟨by rintro _ _ ⟨⟩; exact hlt, h⟩
    · split
      · next _ heq => exact (wf_cons_iff _ _).2 ⟨fun b' r hb => by simpa [heq] using hhead b' r hb, hrest⟩
      · refine (wf_cons_iff _ _).2 ⟨fun b' r hb => ?_, ih hrest⟩
        obtain ⟨a', r', ha, hlt⟩ := winWrite_head rest i b a.1 (by omega) (fun a' r' e => hhead a' r' e)
        rw [ha] at hb; cases hb; exact hlt

/-- EmitByte keeps the canonical form. -/
theorem emitByte_wf {g : Config} {c : Regs} (b : Byte) (h : Memory.wf c.win = true) :
    Memory.wf (emitByte g c b).win = true := winWrite_wf _ _ h

/-- The window at reset is canonical. -/
theorem reset_window_wf : Memory.wf State.reset.regs.win = true := rfl

end Sys2Proof.Machine
end

