-- ==== Sys2Proof/Laws/Match.lean ====
section
/-! SUPPORT. The window and the match, said once: the cell at a distance after one byte, what EmitByte, a copy and DoMatch
keep of the registers' invariant. -/

namespace Sys2Proof.Machine

/-- The window has a cell. -/
theorem capacity_pos (g : Config) : 0 < g.capacity := Nat.pow_pos (by decide)

/-- The cell at distance d behind the cursor after one byte is the one at distance d - 1 before it. -/
theorem behind_succ (g : Config) (wpos d : Nat) (hw : wpos < g.capacity) (h1 : 2 ≤ d) (h2 : d ≤ g.capacity) :
    behind g ((wpos + 1) % g.capacity) d = behind g wpos (d - 1) := by
  unfold behind
  have hc := capacity_pos g
  generalize g.capacity = W at *
  by_cases h : wpos + 1 = W
  · rw [h, Nat.mod_self]
    have : wpos + W - (d - 1) = (0 + W - d) + W := by omega
    rw [this, Nat.add_mod_right]
  · rw [Nat.mod_eq_of_lt (by omega : wpos + 1 < W)]
    congr 1; omega

/-- The cell just behind the cursor. -/
theorem behind_one (g : Config) (wpos : Nat) (hw : wpos < g.capacity) :
    behind g ((wpos + 1) % g.capacity) 1 = wpos := by
  unfold behind
  have hc := capacity_pos g
  generalize g.capacity = W at *
  by_cases h : wpos + 1 = W
  · rw [h, Nat.mod_self, Nat.zero_add]; rw [Nat.mod_eq_of_lt (by omega)]; omega
  · rw [Nat.mod_eq_of_lt (by omega : wpos + 1 < W)]
    have : wpos + 1 + W - 1 = wpos + W := by omega
    rw [this, Nat.add_mod_right, Nat.mod_eq_of_lt hw]

/-- The write cursor is inside the window. -/
theorem Regs.Ok.wpos_lt {g : Config} {c : Regs} (h : c.Ok g) : c.wpos < g.capacity := by
  rw [h.cursor]; exact Nat.mod_lt _ (capacity_pos g)

/-- REMAINING counts down by 1 where it is not 0. -/
theorem sub_one_toNat {r : U24} (h : r ≠ 0) : (r - 1).toNat = r.toNat - 1 := by
  have : r.toNat ≠ 0 := fun e => h (BitVec.eq_of_toNat_eq (by simpa using e))
  have := r.isLt
  simp only [BitVec.toNat_sub]
  simp; omega

/-- EmitByte keeps the register invariant, where the block owes a byte and the chunk has room. -/
theorem Regs.Ok.emitByte {g : Config} {c : Regs} (h : c.Ok g) (b : Byte) (hr : c.remaining ≠ 0)
    (hf : c.chunkFill < g.params.chunkSize) : (emitByte g c b).Ok g where
  window := emitByte_wf b h.window
  cursor := by simp [h.cursor]
  history := by
    intro d h1 h2
    simp only [Regs.hist, emitByte_produced, emitByte_win, emitByte_wpos] at h2 ⊢
    have hw := h.wpos_lt
    by_cases hd : d = 1
    · subst hd; rw [behind_one g _ hw]; simp
    · rw [behind_succ g _ _ hw (by omega) (by omega), winRead_winWrite]
      split
      · rfl
      · exact h.history (d - 1) (by omega) (by simp only [Regs.hist]; omega)
  owed := by simp only [emitByte_remaining, emitByte_blockLen, sub_one_toNat hr]; have := h.owed; omega
  nothingOwed := by intro hs; exact absurd (h.nothingOwed hs) hr
  filled := by simp [h.filled]
  room := by simp; omega
  mainLens := h.mainLens
  lengthLens := h.lengthLens
  alignedLens := h.alignedLens
  pretreeLens := h.pretreeLens
  alignedBuilt := h.alignedBuilt
  pretreeBuilt := h.pretreeBuilt

/-- What a copy changes. -/
structure Copied (g : Config) (n : Nat) (c c' : Regs) : Prop where
  ok : c'.Ok g
  remaining : c'.remaining.toNat = c.remaining.toNat - n
  same : c' = { c with win := c'.win, wpos := c'.wpos, produced := c'.produced, remaining := c'.remaining,
                       chunkBuf := c'.chunkBuf, chunkFill := c'.chunkFill }

/-- A copy that fits is made, and keeps the register invariant. -/
theorem copyMatch_ok {g : Config} {off n : Nat} {c : Regs} (h : c.Ok g) (h1 : 1 ≤ off) (h2 : off ≤ c.hist g)
    (hr : n ≤ c.remaining.toNat) (hf : c.chunkFill + n ≤ g.params.chunkSize) :
    ∃ c', copyMatch g off n c = .ok c' ∧ Copied g n c c' := by
  induction n generalizing c with
  | zero => exact ⟨c, rfl, h, rfl, rfl⟩
  | succ n ih =>
    have hsome := h.history off h1 h2
    obtain ⟨b, hb⟩ := Option.isSome_iff_exists.1 hsome
    have hne : c.remaining ≠ 0 := by intro e; rw [e] at hr; simp at hr
    have hok := h.emitByte b hne (by omega)
    obtain ⟨c', hc, hok', hrem, hsame⟩ := ih hok (by simp only [Regs.hist, emitByte_produced] at *; omega)
      (by simp only [emitByte_remaining, sub_one_toNat hne]; omega) (by simp; omega)
    refine ⟨c', by simp only [copyMatch, hb, hc], hok', ?_, ?_⟩
    · rw [hrem]; simp only [emitByte_remaining, sub_one_toNat hne]; omega
    · rw [hsame]; rfl

/-- The register invariant does not look at the cursor. -/
theorem Regs.Ok.at {g : Config} {c : Regs} (h : c.Ok g) (p : Nat) : (c.at p).Ok g := { h with }

/-- The register invariant does not look at the offset cache. -/
theorem Regs.Ok.setCache {g : Config} {c : Regs} (h : c.Ok g) (a b d : U32) : (c.setCache a b d).Ok g := { h with }

/-- A cache update keeps the register invariant. -/
theorem Regs.Ok.updateCache {g : Config} {c : Regs} (h : c.Ok g) (slot f : Nat) : (updateCache g c slot f).Ok g := by
  obtain ⟨a, b, d, e⟩ := updateCache_eq_setCache g c slot f
  rw [e]; exact h.setCache a b d

/-- What DoMatch answers: a fault of its checks, or the copy. -/
theorem doMatch_ok {g : Config} {c : Regs} {slot n f : Nat} (h : c.Ok g) :
    (∃ k, doMatch g c slot n f = .error k) ∨
      ∃ c', doMatch g c slot n f = .ok c' ∧ Copied g n (updateCache g c slot f) c' ∧ n ≤ c.remaining.toNat := by
  unfold doMatch
  generalize matchOffset c slot f = off
  unfold checkMatch
  split
  · exact .inl ⟨_, rfl⟩
  · split
    · exact .inl ⟨_, rfl⟩
    · split
      · exact .inl ⟨_, rfl⟩
      · have h0 := h.updateCache slot f
        obtain ⟨c', e, hc⟩ := copyMatch_ok (n := n) (off := off) h0 (by omega)
          (by simp only [Regs.hist, updateCache_produced] at *; omega)
          (by rw [updateCache_remaining]; omega) (by rw [updateCache_chunkFill]; omega)
        exact .inr ⟨c', e, hc, by omega⟩

end Sys2Proof.Machine
end

