-- ==== Sys2Proof/Laws/Invariant.lean ====
section
/-! SUPPORT. The operations that end an element, said once: each keeps the machine's invariant, and each answers a next
state. -/

namespace Sys2Proof.Machine

/-- Inside a NEXT_CHUNK, with room in the chunk. -/
structure Live (s : State) : Prop where
  regs : s.regs.Inv s.cfg
  fault : s.regs.fault = none
  valid : s.cfg.valid = true
  state : s.regs.state ≠ .terminal
  running : s.running = true
  room : s.regs.chunkFill < s.cfg.params.chunkSize

/-- `Live` looks at the registers, the configuration and `running` only. -/
theorem Live.of_eq {s t : State} (h : Live s) (h1 : t.regs = s.regs) (h2 : t.cfg = s.cfg) (h3 : t.running = s.running) : Live t :=
  ⟨by rw [h1, h2]; exact h.regs, by rw [h1]; exact h.fault, by rw [h2]; exact h.valid, by rw [h1]; exact h.state, by rw [h3]; exact h.running, by rw [h1, h2]; exact h.room⟩

/-- FAULT is no part of the register invariant. -/
theorem faulted_inv {g : Config} {c : Regs} (h : c.Inv g) (k : Option FaultKind) : ({ c with fault := k } : Regs).Inv g :=
  { h with ok := { h.ok with } }

/-- Fault entry keeps the invariant. -/
theorem takeFault_inv {s : State} (h : s.regs.Inv s.cfg) (k : FaultKind) : (s.takeFault k).Inv where
  regs := faulted_inv h _
  valid := by intro e; cases e
  idle := fun _ => rfl
  live := by intro e; cases e
  inStep := by intro w e; cases e

/-- The end of a Step keeps the invariant, where its registers meet it. -/
theorem commit_inv {s : State} (h : Live s) {c : Regs} (hc : c.Inv s.cfg) (hf : c.fault = none) : (s.commit c).Inv where
  regs := by simpa using hc
  valid := fun _ => by simpa using h.valid
  idle := fun _ => by simp
  live := by
    intro e
    simp only [commit_running] at e
    split at e
    · cases e
    · simp [hf]; assumption
  inStep := by intro w e; simp at e

/-- A Step that goes on keeps the invariant, where its phase fits. -/
theorem working_inv {s : State} (h : Live s) {c : Regs} {ph : Phase} (hp : phaseInv s.cfg s.regs c ph) : (s.working c ph).Inv where
  regs := h.regs
  valid := fun _ => h.valid
  idle := by intro e; simp [h.running] at e
  live := fun _ => ⟨h.fault, h.state⟩
  inStep := by intro w e; cases e; exact ⟨h.room, hp⟩

/-- `Live` holds of a Step that goes on. -/
theorem live_working {s : State} (h : Live s) (c : Regs) (ph : Phase) : Live (s.working c ph) := h.of_eq rfl rfl rfl

/-! item phases -/

theorem finish_inv {s : State} (h : Live s) {c0 c : Regs} (hi : ItemWork s.cfg s.regs c0)
    (hsame : c = { c0 with r0 := c.r0, r1 := c.r1, r2 := c.r2, win := c.win, wpos := c.wpos, produced := c.produced, remaining := c.remaining, chunkBuf := c.chunkBuf, chunkFill := c.chunkFill })
    (hok : c.Ok s.cfg) : (s.commit (endOfItem c)).Inv := by
  have hb := hi.same
  have fld : c.state = s.regs.state ∧ c.mainLen = s.regs.mainLen ∧ c.mainTree = s.regs.mainTree ∧ c.lenLen = s.regs.lenLen ∧
      c.lengthTree = s.regs.lengthTree ∧ c.alignedTree = s.regs.alignedTree ∧ c.fault = s.regs.fault ∧ c.bitpos ≤ 8 * s.cfg.len := by
    rw [hsame, hb]; exact ⟨rfl, rfl, rfl, rfl, rfl, rfl, rfl, hi.inInput⟩
  obtain ⟨f1, f2, f3, f4, f5, f6, f7, f8⟩ := fld
  have hA : c.state = .verbatim ∨ c.state = .aligned := by rw [f1]; exact hi.block
  refine commit_inv h ?_ (by simp [f7, h.fault])
  unfold endOfItem
  split
  · next hz =>
    exact { ok := { hok with nothingOwed := fun _ => hz }, inInput := f8
            mainBuilt := by show builtFrom c.mainLen c.mainTree; rw [f2, f3]; exact h.regs.mainBuilt
            lengthBuilt := by show builtFrom c.lenLen c.lengthTree; rw [f4, f5]; exact h.regs.lengthBuilt
            inBlock := by rintro (e | e | e) <;> cases e
            trees := by rintro (e | e) <;> cases e
            alignedTree := by intro e; cases e
            byteAligned := by intro e; cases e }
  · next hz =>
    exact { ok := hok, inInput := f8
            mainBuilt := by rw [f2, f3]; exact h.regs.mainBuilt
            lengthBuilt := by rw [f4, f5]; exact h.regs.lengthBuilt
            inBlock := fun _ => hz
            trees := by rw [f1, f3, f5]; exact h.regs.trees
            alignedTree := by rw [f1, f6]; exact h.regs.alignedTree
            byteAligned := by intro e; rcases hA with hA | hA <;> rw [hA] at e <;> cases e }

/-- Inside a main item the working registers are those of the boundary but for the cursor. -/
theorem item_ok {s : State} (h : Live s) {c : Regs} (hi : ItemWork s.cfg s.regs c) : c.Ok s.cfg := by
  rw [hi.same]; exact h.regs.ok.at _

/-- The end of a match keeps the invariant. -/
theorem finishMatch_inv {s t : State} (h : Live s) {c : Regs} (hi : ItemWork s.cfg s.regs c) {slot n f : Nat}
    (e : finishMatch s c slot n f = .next t) : t.Inv := by
  unfold finishMatch at e
  rcases doMatch_ok (slot := slot) (n := n) (f := f) (item_ok h hi) with ⟨k, hk⟩ | ⟨c', hc, hcop, -⟩
  · rw [hk] at e; cases e; exact takeFault_inv h.regs k
  · rw [hc] at e; cases e
    obtain ⟨a, b, d, ec⟩ := updateCache_eq_setCache s.cfg c slot f
    have := hcop.same
    rw [ec] at this
    exact finish_inv h hi (by rw [this]; rfl) hcop.ok

/-- The end of a footer keeps the invariant. -/
theorem afterFooter_inv {s t : State} (h : Live s) {c : Regs} (hi : ItemWork s.cfg s.regs c) {slot n f : Nat}
    (e : afterFooter s c slot n f = .next t) : t.Inv := by
  unfold afterFooter at e
  split at e
  · next hx => cases e; exact working_inv h ⟨hi, hx⟩
  · exact finishMatch_inv h hi e

/-- The end of a match length keeps the invariant. -/
theorem afterLength_inv {s t : State} (h : Live s) {c : Regs} (hi : ItemWork s.cfg s.regs c) {slot n : Nat}
    (e : afterLength s c slot n = .next t) : t.Inv := by
  unfold afterLength at e
  have hst : c.state = s.regs.state := by rw [hi.same]; rfl
  split at e
  · exact afterFooter_inv h hi e
  · split at e
    · next hs ha => cases e; exact working_inv h ⟨hi, by rw [← hst]; exact ha, by omega⟩
    · next hs ha =>
      cases e
      exact working_inv h ⟨hi, by rcases hi.block with hb | hb; exact hb; exact absurd (hst.trans hb) ha, by omega⟩

/-! header phases -/

theorem HeaderWork.commit {g : Config} {base c : Regs} (hw : HeaderWork g base c) (x : BlockState)
    (hx : x = .verbatim ∨ x = .aligned ∨ x = .uncomp) (h1 : builtFrom c.mainLen c.mainTree) (h2 : builtFrom c.lenLen c.lengthTree)
    (h3 : x ≠ .uncomp → c.mainTree.isSome = true ∧ c.lengthTree.isSome = true) (h4 : x = .aligned → c.alignedTree.isSome = true)
    (h5 : c.bitpos ≤ 8 * g.len) (h6 : x = .uncomp → c.bitpos % 8 = 0) :
    ({ c with state := x, remaining := c.blockLen } : Regs).Inv g where
  ok := { hw.ok with owed := Nat.le_refl _, nothingOwed := by rcases hx with rfl | rfl | rfl <;> rintro (e | e | e) <;> cases e }
  inInput := h5
  mainBuilt := h1
  lengthBuilt := h2
  inBlock := fun _ => hw.blockLen
  trees := by intro e; apply h3; intro e'; subst e'; rcases e with e | e <;> cases e
  alignedTree := h4
  byteAligned := h6

/-- The members of an array with one entry replaced. -/
theorem getD_set_mem {arr : List Nat} {i v l : Nat} (h : l ∈ arr.set i v) : l ∈ arr ∨ l = v := by
  rcases List.mem_or_eq_of_mem_set h with h | h
  · exact .inl h
  · exact .inr h

/-- A run leaves the length of its array. -/
theorem fillRun_length (arr : List Nat) (i v n : Nat) : (fillRun arr i v n).length = arr.length := by
  induction n generalizing arr i with
  | zero => rfl
  | succ n ih => simp [fillRun, ih]

/-- The members of an array with a run. -/
theorem fillRun_mem {arr : List Nat} {i v n l : Nat} (h : l ∈ fillRun arr i v n) : l ∈ arr ∨ l = v := by
  induction n generalizing arr i with
  | zero => exact .inl h
  | succ n ih =>
    rcases ih h with h | h
    · exact getD_set_mem h
    · exact .inr h

/-- Inside a tree read the working array may change. -/
theorem TreeWork.put {g : Config} {base c : Regs} {t : Target} (hw : TreeWork g base c t) (arr : List Nat)
    (hl : arr.length = (t.array c).length) (hm : ∀ l ∈ arr, l ≤ maxCodeLen) : TreeWork g base (t.put c arr) t := by
  obtain ⟨⟨w1, w2, w3, w4⟩, b, m, i⟩ := hw
  cases t
  all_goals
    refine ⟨⟨w1, ?_, w3, ?_⟩, b, ?_, i⟩
    · first
        | exact { w2 with mainLens := ⟨hl.trans w2.mainLens.1, hm⟩ }
        | exact { w2 with lengthLens := ⟨hl.trans w2.lengthLens.1, hm⟩ }
    · simp only [Target.put]; conv => lhs; rw [w4]
    · first | (intro e; exact m e) | (intro e; cases e)

/-- The end of a range keeps the invariant. -/
theorem rangeDone_inv {s u : State} (h : Live s) {c : Regs} {t : Target} (hw : TreeWork s.cfg s.regs c t)
    (e : rangeDone s c t = .next u) : u.Inv := by
  obtain ⟨⟨w1, w2, w3, w4⟩, b, m, i⟩ := hw
  have hf : c.fault = none := by rw [w4]; exact h.fault
  cases t with
  | mainLiterals => cases e; exact working_inv h ⟨⟨w1, w2, w3, w4⟩, b, (by intro e; cases e), i⟩
  | mainWhole =>
    simp only [rangeDone] at e
    split at e
    · next tree ht =>
      cases e
      refine working_inv h ⟨⟨w1, { w2 with }, w3, ?_⟩, b, fun _ => ⟨rfl, fun t e => by cases e; exact ht⟩, i⟩
      conv => lhs; rw [w4]
    · cases e; exact takeFault_inv h.regs _
  | mainMatches =>
    simp only [rangeDone] at e
    split at e
    · next tree ht =>
      cases e
      refine working_inv h ⟨⟨w1, { w2 with }, w3, ?_⟩, b, fun _ => ⟨rfl, fun t e => by cases e; exact ht⟩, i⟩
      conv => lhs; rw [w4]
    · cases e; exact takeFault_inv h.regs _
  | lengths =>
    simp only [rangeDone] at e
    split at e
    · next tree ht =>
      cases e
      obtain ⟨m1, m2⟩ := m rfl
      refine commit_inv h ?_ hf
      have hw' : HeaderWork s.cfg s.regs { c with lengthTree := some tree } := ⟨w1, { w2 with }, w3, by conv => lhs; rw [w4]⟩
      refine hw'.commit _ ?_ m2 (fun t e => by cases e; exact ht) (fun _ => ⟨m1, rfl⟩) ?_ i ?_
      · split <;> simp
      · intro e
        rcases b with b | b
        · have : c.btype = 1 := b
          simp [this] at e
        · exact b.2
      · intro e; simp only at e; split at e <;> cases e
    · cases e; exact takeFault_inv h.regs _

/-- The loop test of a range keeps the invariant. -/
theorem rangeAt_inv {s u : State} (h : Live s) {c : Regs} {t : Target} {i : Nat} (hw : TreeWork s.cfg s.regs c t)
    (hp : c.preTree.isSome = true) (hi : t.first ≤ i) (e : rangeAt s c t i = .next u) : u.Inv := by
  unfold rangeAt at e
  split at e
  · next hlt => cases e; exact working_inv h ⟨hw, hp, hi, hlt⟩
  · exact rangeDone_inv h hw e

/-- The delta rule gives a length in 0..16 (42_tree_of_trees.md R205). -/
theorem deltaLen_le (prev s : Nat) : deltaLen prev s ≤ maxCodeLen := by
  have := Nat.mod_lt (prev + 17 - s) (by decide : 0 < 17)
  unfold deltaLen maxCodeLen; omega

/-- The entries of a range are in 0..16. -/
theorem array_le {g : Config} {c : Regs} (h : c.Ok g) (t : Target) : ∀ l ∈ t.array c, l ≤ maxCodeLen := by
  cases t <;> first | exact h.mainLens.2 | exact h.lengthLens.2

/-- A run keeps the invariant. -/
theorem runOf_inv {s u : State} (h : Live s) {c : Regs} {t : Target} {i n v : Nat} (hw : TreeWork s.cfg s.regs c t)
    (hp : c.preTree.isSome = true) (hi : t.first ≤ i) (hv : v ≤ maxCodeLen) (e : runOf s c t i n v = .next u) : u.Inv := by
  unfold runOf at e
  split at e
  · cases e; exact takeFault_inv h.regs _
  · refine rangeAt_inv h (hw.put _ (fillRun_length _ _ _ _) ?_) (by simpa using hp) (by omega) e
    intro l hl
    rcases fillRun_mem hl with hl | rfl
    · exact array_le hw.header.ok t l hl
    · exact hv

/-- The alignment of an Uncompressed header goes forward to a byte boundary. -/
theorem uncompAlign_ok {g : Config} {pos p : Nat} (h : uncompAlign g pos = .ok p) : p % 8 = 0 ∧ pos ≤ p := by
  have a16 : ∀ x, alignWord x % 8 = 0 ∧ x ≤ alignWord x := by intro x; unfold alignWord roundup; omega
  have a32 : ∀ x, align32 x % 8 = 0 ∧ x ≤ align32 x := by intro x; unfold align32 roundup; omega
  have key : ∀ q, q % 8 = 0 ∧ pos ≤ q → (if g.params.uncompAlign32 = true then align32 q else q) = p → p % 8 = 0 ∧ pos ≤ p := by
    intro q hq e
    subst e
    have := a32 q
    split <;> omega
  unfold uncompAlign at h
  by_cases h1 : g.params.uncompPad16IfAligned = true ∧ pos % 16 = 0
  · simp only [if_pos h1] at h
    by_cases h2 : g.avail < pos + 16
    · simp only [if_pos h2] at h; cases h
    · simp only [if_neg h2] at h; exact key (pos + 16) (by omega) (by cases h; rfl)
  · simp only [if_neg h1] at h; exact key _ (a16 pos) (by cases h; rfl)

/-- A Step begins in a phase that fits. -/
theorem begin_phase {s : State} (h : Live s) {ph : Phase} (e : beginStep s.cfg s.regs = .element ph) : phaseInv s.cfg s.regs s.regs ph := by
  have hb := h.regs
  unfold beginStep at e
  split at e
  · next hs => repeat' split at e
               all_goals cases e
               exact ⟨hs, rfl, hb.inInput⟩
  · next hs => split at e <;> cases e
               exact ⟨hs, rfl, hb.inInput⟩
  · next hs => cases e; exact ⟨.inl hs, rfl, hb.inInput⟩
  · next hs => cases e; exact ⟨.inr hs, rfl, hb.inInput⟩
  · next hs => cases e; exact ⟨hs, rfl, hb.inInput, hb.byteAligned hs⟩
  · cases e

/-- A transition that reads nothing keeps the invariant. -/
theorem begin_silent {s : State} (h : Live s) {c : Regs} (e : beginStep s.cfg s.regs = .silent c) : (s.commit c).Inv := by
  have hb := h.regs
  have key : ∀ x : BlockState, (x = .terminal ∨ x = .await) → s.regs.remaining = 0 → (s.commit (s.regs.enter x)).Inv := by
    intro x hx hz
    refine commit_inv h ?_ h.fault
    exact { ok := { hb.ok with nothingOwed := fun _ => hz }, inInput := hb.inInput, mainBuilt := hb.mainBuilt, lengthBuilt := hb.lengthBuilt
            inBlock := by simp only [enter_state]; rcases hx with rfl | rfl <;> rintro (e | e | e) <;> cases e
            trees := by simp only [enter_state]; rcases hx with rfl | rfl <;> rintro (e | e) <;> cases e
            alignedTree := by simp only [enter_state]; rcases hx with rfl | rfl <;> intro e <;> cases e
            byteAligned := by simp only [enter_state]; rcases hx with rfl | rfl <;> intro e <;> cases e }
  unfold beginStep at e
  split at e
  · next hs =>
    repeat' split at e
    all_goals cases e
    · exact key _ (.inl rfl) (hb.ok.nothingOwed (.inl hs))
    · exact key _ (.inr rfl) (hb.ok.nothingOwed (.inl hs))
  · next hs =>
    split at e <;> cases e
    exact key _ (.inl rfl) (hb.ok.nothingOwed (.inr (.inl hs)))
  all_goals cases e

/-- The return of a chunk keeps the invariant. -/
theorem returnChunk_inv {s : State} (h : s.Inv) (hw : s.work = none) : s.returnChunk.Inv := by
  have hb := h.regs
  refine ⟨?_, ?_, fun _ => hw, (by intro e; cases e), ?_⟩
  · show (chunkRealign s.cfg s.regs).Inv s.cfg
    unfold chunkRealign
    split
    · next hc =>
      exact { ok := hb.ok.at _, inInput := by show clampWord _ _ ≤ _; unfold clampWord; omega
              mainBuilt := hb.mainBuilt, lengthBuilt := hb.lengthBuilt, inBlock := hb.inBlock, trees := hb.trees, alignedTree := hb.alignedTree
              byteAligned := by intro e; simp only [at_state] at e; rcases hc.2 with x | x | x <;> rw [x] at e <;> cases e }
    · exact hb
  · intro e
    apply h.valid
    have : (chunkRealign s.cfg s.regs).fault = s.regs.fault := by unfold chunkRealign; split <;> rfl
    rw [← this]; exact e
  · intro w e
    have : s.work = some w := e
    rw [hw] at this; cases this

/-! ## The shared ends of the meanings answer a next state -/

theorem rangeDone_next (s : State) (c : Regs) (t : Target) : ∃ u, rangeDone s c t = .next u := by
  cases t <;> simp only [rangeDone] <;> (try split) <;> exact ⟨_, rfl⟩

/-- The loop test of a range answers a next state. -/
theorem rangeAt_next (s : State) (c : Regs) (t : Target) (i : Nat) : ∃ u, rangeAt s c t i = .next u := by
  unfold rangeAt; split
  · exact ⟨_, rfl⟩
  · exact rangeDone_next _ _ _

/-- A run answers a next state. -/
theorem runOf_next (s : State) (c : Regs) (t : Target) (i n v : Nat) : ∃ u, runOf s c t i n v = .next u := by
  unfold runOf; split
  · exact ⟨_, rfl⟩
  · exact rangeAt_next _ _ _ _

/-- The end of a match answers a next state. -/
theorem finishMatch_next (s : State) (c : Regs) (a b d : Nat) : ∃ u, finishMatch s c a b d = .next u := by
  unfold finishMatch; split <;> exact ⟨_, rfl⟩

/-- The end of a footer answers a next state. -/
theorem afterFooter_next (s : State) (c : Regs) (a b d : Nat) : ∃ u, afterFooter s c a b d = .next u := by
  unfold afterFooter; split
  · exact ⟨_, rfl⟩
  · exact finishMatch_next _ _ _ _ _

/-- The end of a match length answers a next state. -/
theorem afterLength_next (s : State) (c : Regs) (a b : Nat) : ∃ u, afterLength s c a b = .next u := by
  unfold afterLength; split
  · exact afterFooter_next _ _ _ _ _
  · split <;> exact ⟨_, rfl⟩

end Sys2Proof.Machine
end

