-- ==== Sys2Proof/Laws/PerInstr.lean ====
section
/-! SUPPORT. For each instruction: the one place of the grammar in which it can be written (30_encoding.md R101, R112). -/

namespace Sys2Proof.Laws.Placed

/-- The kinds of place of the grammar: the formats without the tree or the width the state supplies. -/
inductive Place where
  | preamble | header | pretree | ptOp | altree | mainSym | lenSym | footerV | footerA | alignedLo | extLen | uncompR
  | raw | oddPad
  deriving DecidableEq, Repr

/-- The place of a format. -/
def placeOf : Format → Place
  | .preamble => .preamble
  | .header => .header
  | .pretree => .pretree
  | .ptOp _ => .ptOp
  | .altree => .altree
  | .mainSym _ => .mainSym
  | .lenSym _ => .lenSym
  | .footerV _ => .footerV
  | .footerA _ => .footerA
  | .alignedLo _ => .alignedLo
  | .extLen => .extLen
  | .uncompR => .uncompR
  | .raw => .raw
  | .oddPad => .oddPad

/-- The place of an instruction; the host's commands stand nowhere in the stream. -/
def place : Instr → Option Place
  | .preamble0 => some .preamble
  | .preamble1 _ => some .preamble
  | .blockVerbatim _ => some .header
  | .blockAligned _ => some .header
  | .blockUncomp _ => some .header
  | .blockInvalid0 => some .header
  | .blockInvalid4 _ => some .header
  | .pretree _ => some .pretree
  | .ptDelta _ => some .ptOp
  | .ptZrun4 _ => some .ptOp
  | .ptZrun20 _ => some .ptOp
  | .ptSame _ _ => some .ptOp
  | .altree _ => some .altree
  | .lit _ => some .mainSym
  | .matchRep0 _ => some .mainSym
  | .matchRep1 _ => some .mainSym
  | .matchRep2 _ => some .mainSym
  | .matchNew _ _ => some .mainSym
  | .lenSym _ => some .lenSym
  | .footerVerbatim _ => some .footerV
  | .footerHi _ => some .footerA
  | .alignedLo _ => some .alignedLo
  | .extLen0 _ => some .extLen
  | .extLen10 _ => some .extLen
  | .extLen110 _ => some .extLen
  | .extLen111 _ => some .extLen
  | .uncompR _ _ _ => some .uncompR
  | .raw _ => some .raw
  | .oddPad _ => some .oddPad
  | .new _ _ _ => none
  | .nextChunk => none

/-- An instruction is written in its own place only. -/
def Statement (i : Instr) : Prop :=
  ∀ (g : Config) (fmt : Format), (encode g fmt i).isSome = true → place i = some (placeOf fmt)

theorem preamble0 : Statement .preamble0 := by
  intro g fmt h; cases fmt <;> first | rfl | cases h

theorem preamble1 (size : U32) : Statement (.preamble1 size) := by
  intro g fmt h; cases fmt <;> first | rfl | cases h

theorem blockVerbatim (n : U24) : Statement (.blockVerbatim n) := by
  intro g fmt h; cases fmt <;> first | rfl | cases h

theorem blockAligned (n : U24) : Statement (.blockAligned n) := by
  intro g fmt h; cases fmt <;> first | rfl | cases h

theorem blockUncomp (n : U24) : Statement (.blockUncomp n) := by
  intro g fmt h; cases fmt <;> first | rfl | cases h

theorem blockInvalid0 : Statement .blockInvalid0 := by
  intro g fmt h; cases fmt <;> first | rfl | cases h

theorem blockInvalid4 (t : BitVec 2) : Statement (.blockInvalid4 t) := by
  intro g fmt h; cases fmt <;> first | rfl | cases h

theorem pretree (lens : List (BitVec 4)) : Statement (.pretree lens) := by
  intro g fmt h; cases fmt <;> first | rfl | cases h

theorem ptDelta (s : Nat) : Statement (.ptDelta s) := by
  intro g fmt h; cases fmt <;> first | rfl | cases h

theorem ptZrun4 (z : BitVec 4) : Statement (.ptZrun4 z) := by
  intro g fmt h; cases fmt <;> first | rfl | cases h

theorem ptZrun20 (z : BitVec 5) : Statement (.ptZrun20 z) := by
  intro g fmt h; cases fmt <;> first | rfl | cases h

theorem ptSame (z : BitVec 1) (s : Nat) : Statement (.ptSame z s) := by
  intro g fmt h; cases fmt <;> first | rfl | cases h

theorem altree (lens : List (BitVec 4)) : Statement (.altree lens) := by
  intro g fmt h; cases fmt <;> first | rfl | cases h

theorem lit (b : Byte) : Statement (.lit b) := by
  intro g fmt h; cases fmt <;> first | rfl | cases h

theorem matchRep0 (lh : BitVec 3) : Statement (.matchRep0 lh) := by
  intro g fmt h; cases fmt <;> first | rfl | cases h

theorem matchRep1 (lh : BitVec 3) : Statement (.matchRep1 lh) := by
  intro g fmt h; cases fmt <;> first | rfl | cases h

theorem matchRep2 (lh : BitVec 3) : Statement (.matchRep2 lh) := by
  intro g fmt h; cases fmt <;> first | rfl | cases h

theorem matchNew (slot : Nat) (lh : BitVec 3) : Statement (.matchNew slot lh) := by
  intro g fmt h; cases fmt <;> first | rfl | cases h

theorem lenSym (ls : Nat) : Statement (.lenSym ls) := by
  intro g fmt h; cases fmt <;> first | rfl | cases h

theorem footerVerbatim (f : BitVec 17) : Statement (.footerVerbatim f) := by
  intro g fmt h; cases fmt <;> first | rfl | cases h

theorem footerHi (hi : BitVec 17) : Statement (.footerHi hi) := by
  intro g fmt h; cases fmt <;> first | rfl | cases h

theorem alignedLo (lo : BitVec 3) : Statement (.alignedLo lo) := by
  intro g fmt h; cases fmt <;> first | rfl | cases h

theorem extLen0 (v : BitVec 8) : Statement (.extLen0 v) := by
  intro g fmt h; cases fmt <;> first | rfl | cases h

theorem extLen10 (v : BitVec 10) : Statement (.extLen10 v) := by
  intro g fmt h; cases fmt <;> first | rfl | cases h

theorem extLen110 (v : BitVec 12) : Statement (.extLen110 v) := by
  intro g fmt h; cases fmt <;> first | rfl | cases h

theorem extLen111 (v : BitVec 15) : Statement (.extLen111 v) := by
  intro g fmt h; cases fmt <;> first | rfl | cases h

theorem uncompR (r0 : U32) (r1 : U32) (r2 : U32) : Statement (.uncompR r0 r1 r2) := by
  intro g fmt h; cases fmt <;> first | rfl | cases h

theorem raw (b : Byte) : Statement (.raw b) := by
  intro g fmt h; cases fmt <;> first | rfl | cases h

theorem oddPad (pad : Byte) : Statement (.oddPad pad) := by
  intro g fmt h; cases fmt <;> first | rfl | cases h

theorem new (code : Nat) (input : List Byte) (params : Params) : Statement (.new code input params) := by
  intro g fmt h; cases fmt <;> first | rfl | cases h

theorem nextChunk : Statement .nextChunk := by
  intro g fmt h; cases fmt <;> first | rfl | cases h

end Sys2Proof.Laws.Placed
end

