-- ==== Sys2Proof/Laws/Step.lean ====
section
/-! SUPPORT. What a step inside a NEXT_CHUNK can do, said once. -/

namespace Sys2Proof.Machine

/-- The phases of a main item. -/
def Phase.inItem : Phase → Prop
  | .mainSym => True
  | .lenSym _ => True
  | .footerV _ _ => True
  | .footerA _ _ => True
  | .alignedLo _ _ _ => True
  | .extLen _ _ _ => True
  | _ => False

/-- The phases of a header that write no register outside the header's own. -/
def Phase.inHeader : Phase → Prop
  | .header => True
  | .altree => True
  | .pretree _ => True
  | .ptOp _ _ => True
  | _ => False

/-- The phases after which a header can go on. -/
def Phase.inHeaderRest : Phase → Prop
  | .altree => True
  | .pretree _ => True
  | .ptOp _ _ => True
  | .uncompR => True
  | _ => False

/-- The registers that a header's elements write before the block begins. -/
def SameButHeader (c c' : Regs) : Prop :=
  c' = { c with
    bitpos := c'.bitpos, btype := c'.btype, blockLen := c'.blockLen, mainLen := c'.mainLen, lenLen := c'.lenLen,
    alLen := c'.alLen, ptLen := c'.ptLen, mainTree := c'.mainTree, lengthTree := c'.lengthTree,
    alignedTree := c'.alignedTree, preTree := c'.preTree }

/-- Nothing changed. -/
theorem SameButHeader.refl (c : Regs) : SameButHeader c c := rfl

/-- One change after another. -/
theorem SameButHeader.trans {a b d : Regs} (h1 : SameButHeader a b) (h2 : SameButHeader b d) : SameButHeader a d := by
  unfold SameButHeader at *; rw [h2, h1]

/-- What the meaning of an element can make of the machine: c are the working registers with the element's bits
consumed, and ph its phase. -/
inductive ElementEnds (s : State) (c : Regs) (ph : Phase) : State → Prop
  | fault (k : FaultKind) : ElementEnds s c ph (s.takeFault k)
  | preamble (flag : Bool) (size : U32) (h : ph = .preamble) :
      ElementEnds s c ph (s.commit { c with e8Flag := flag, e8Size := size, state := .await })
  | headerGoes (c' : Regs) (ph' : Phase) (h : ph.inHeader) (h' : ph'.inHeaderRest) (hs : SameButHeader c c')
      (hp : c.bitpos ≤ c'.bitpos) : ElementEnds s c ph (s.working c' ph')
  | blockBegins (c' : Regs) (h : (∃ i, ph = .ptOp .lengths i) ∨ ph = .pretree .lengths ∧ s.cfg.params.numLengthSymbols = 0)
      (hs : SameButHeader c c') (hp : c.bitpos = c'.bitpos) (hb : c.btype = c'.btype) (hl : c.blockLen = c'.blockLen) :
      ElementEnds s c ph (s.commit (enterBlock c'))
  | uncompBegins (a b d : U32) (h : ph = .uncompR) :
      ElementEnds s c ph (s.commit { c.setCache a b d with state := .uncomp, remaining := c.blockLen })
  | itemGoes (ph' : Phase) (h : ph.inItem) (h' : ph'.inItem) : ElementEnds s c ph (s.working c ph')
  | itemEnds (a b d : U32) (bytes : List Byte) (h : ph.inItem) :
      ElementEnds s c ph (s.commit (endOfItem (bytes.foldl (emitByte s.cfg) (c.setCache a b d))))
  | rawGoes (b : Byte) (h : ph = .raw) (hr : (emitByte s.cfg c b).remaining ≠ 0) :
      ElementEnds s c ph (s.commit (emitByte s.cfg c b))
  | rawPads (b : Byte) (h : ph = .raw) (hr : (emitByte s.cfg c b).remaining = 0) :
      ElementEnds s c ph (s.working (emitByte s.cfg c b) .oddPad)
  | rawEnds (b : Byte) (h : ph = .raw) (hr : (emitByte s.cfg c b).remaining = 0) :
      ElementEnds s c ph (s.commit (endUncomp s.cfg (emitByte s.cfg c b)))
  | padEnds (h : ph = .oddPad) : ElementEnds s c ph (s.commit (endUncomp s.cfg c))

/-- A copy emits its bytes one after another. -/
theorem copyMatch_emits {g : Config} {off n : Nat} {c c' : Regs} (h : copyMatch g off n c = .ok c') :
    ∃ bytes : List Byte, bytes.length = n ∧ c' = bytes.foldl (emitByte g) c := by
  induction n generalizing c with
  | zero => cases h; exact ⟨[], rfl, rfl⟩
  | succ n ih =>
    simp only [copyMatch] at h
    split at h
    · cases h
    · next b _ =>
      obtain ⟨bytes, hl, e⟩ := ih h
      exact ⟨b :: bytes, by simp [hl], e⟩

/-- How a match ends. -/
theorem finishMatch_ends {s t : State} {c : Regs} {ph : Phase} {slot n f : Nat} (h : ph.inItem)
    (e : finishMatch s c slot n f = .next t) : ElementEnds s c ph t := by
  unfold finishMatch at e
  split at e
  · next c' hm =>
    cases e
    obtain ⟨u, -, hc⟩ := except_bind_ok.1 hm
    obtain ⟨bytes, -, rfl⟩ := copyMatch_emits hc
    obtain ⟨x, y, z, ec⟩ := updateCache_eq_setCache s.cfg c slot f
    rw [ec]
    exact .itemEnds x y z bytes h
  · cases e; exact .fault _

/-- How a footer ends. -/
theorem afterFooter_ends {s t : State} {c : Regs} {ph : Phase} {slot n f : Nat} (h : ph.inItem)
    (e : afterFooter s c slot n f = .next t) : ElementEnds s c ph t := by
  unfold afterFooter at e
  split at e
  · cases e; exact .itemGoes _ h trivial
  · exact finishMatch_ends h e

/-- How a match length ends. -/
theorem afterLength_ends {s t : State} {c : Regs} {ph : Phase} {slot n : Nat} (h : ph.inItem)
    (e : afterLength s c slot n = .next t) : ElementEnds s c ph t := by
  unfold afterLength at e
  split at e
  · exact afterFooter_ends h e
  · split at e <;> cases e <;> exact .itemGoes _ h trivial

/-- A range writes its array only. -/
theorem put_same (c : Regs) (t : Target) (arr : List Nat) : SameButHeader c (t.put c arr) := by cases t <;> rfl

/-- How a range ends. -/
theorem rangeDone_ends {s u : State} {c c' : Regs} {ph : Phase} {t : Target} (h : ph.inHeader)
    (hph : t = .lengths → (∃ i, ph = .ptOp .lengths i) ∨ ph = .pretree .lengths ∧ s.cfg.params.numLengthSymbols = 0)
    (hs : SameButHeader c c') (hp : c.bitpos = c'.bitpos) (hb : c.btype = c'.btype) (hl : c.blockLen = c'.blockLen)
    (e : rangeDone s c' t = .next u) : ElementEnds s c ph u := by
  cases t with
  | mainLiterals => cases e; exact .headerGoes _ _ h trivial hs (Nat.le_of_eq hp)
  | mainWhole =>
    simp only [rangeDone] at e
    split at e <;> cases e
    · exact .headerGoes _ _ h trivial (hs.trans rfl) (Nat.le_of_eq hp)
    · exact .fault _
  | mainMatches =>
    simp only [rangeDone] at e
    split at e <;> cases e
    · exact .headerGoes _ _ h trivial (hs.trans rfl) (Nat.le_of_eq hp)
    · exact .fault _
  | lengths =>
    simp only [rangeDone] at e
    split at e <;> cases e
    · exact .blockBegins _ (hph rfl) (hs.trans rfl) hp hb hl
    · exact .fault _

/-- How the loop test of a range ends. -/
theorem rangeAt_ends {s u : State} {c c' : Regs} {ph : Phase} {t : Target} {i : Nat} (h : ph.inHeader)
    (hph : i < t.last s.cfg ∨ (t = .lengths → (∃ i, ph = .ptOp .lengths i) ∨ ph = .pretree .lengths ∧ s.cfg.params.numLengthSymbols = 0))
    (hs : SameButHeader c c') (hp : c.bitpos = c'.bitpos) (hb : c.btype = c'.btype) (hl : c.blockLen = c'.blockLen)
    (e : rangeAt s c' t i = .next u) : ElementEnds s c ph u := by
  unfold rangeAt at e
  split at e
  · cases e; exact .headerGoes _ _ h trivial hs (Nat.le_of_eq hp)
  · next hi => exact rangeDone_ends h (hph.resolve_left hi) hs hp hb hl e

/-- How a run ends. -/
theorem runOf_ends {s u : State} {c : Regs} {t : Target} {i j n v : Nat}
    (e : runOf s c t i n v = .next u) : ElementEnds s c (.ptOp t j) u := by
  unfold runOf at e
  split at e
  · cases e; exact .fault _
  · refine rangeAt_ends (by trivial) (.inr fun h => .inl ⟨j, by rw [h]⟩) (put_same c t _) ?_ ?_ ?_ e <;> cases t <;> rfl

/-- What the meaning of a decoded element can make of the machine. -/
theorem exec_ends {s u : State} {c : Regs} {ph : Phase} {i : Instr} {pos p : Nat}
    (d : DecodesTo s.cfg pos i p (formatOf c ph)) {c1 : Regs} (e : exec i (s.working c1 ph) = .next u) :
    ElementEnds (s.working c1 ph) c1 ph u := by
  have hw : (s.working c1 ph).work = some ⟨c1, ph⟩ := rfl
  generalize s.working c1 ph = w at *
  cases ph with
  | preamble =>
    rcases d.1 with rfl | ⟨n, rfl⟩
    · simp only [exec, execPreamble0, hw] at e; cases e; exact .preamble _ _ rfl
    · simp only [exec, execPreamble1, hw] at e; cases e; exact .preamble _ _ rfl
  | header =>
    rcases d.1 with ⟨n, rfl⟩ | ⟨n, rfl⟩ | ⟨n, rfl⟩ | rfl | ⟨t, rfl⟩
    · simp only [exec, execBlockVerbatim, blockHeader, hw] at e
      split at e <;> cases e
      · exact .fault _
      · exact .headerGoes _ _ trivial trivial rfl (Nat.le_refl _)
    · simp only [exec, execBlockAligned, blockHeader, hw] at e
      split at e <;> cases e
      · exact .fault _
      · exact .headerGoes _ _ trivial trivial rfl (Nat.le_refl _)
    · simp only [exec, execBlockUncomp, blockHeader, hw] at e
      split at e
      · cases e; exact .fault _
      · split at e
        · next q hq => cases e; exact .headerGoes _ _ trivial trivial rfl (uncompAlign_ok hq).2
        · cases e; exact .fault _
    · simp only [exec, execBlockInvalid0, invalidType, hw] at e; cases e; exact .fault _
    · simp only [exec, execBlockInvalid4, invalidType, hw] at e; cases e; exact .fault _
  | altree =>
    obtain ⟨⟨ls, rfl, -⟩, -⟩ := d
    simp only [exec, execAltree, hw] at e
    split at e <;> cases e
    · exact .headerGoes _ _ trivial trivial rfl (Nat.le_refl _)
    · exact .fault _
  | pretree t =>
    obtain ⟨⟨ls, rfl, -⟩, -⟩ := d
    simp only [exec, execPretree, hw] at e
    split at e
    · next tree _ =>
      refine rangeAt_ends (c' := { c1 with ptLen := ls.map BitVec.toNat, preTree := some tree }) trivial ?_ rfl rfl rfl
        rfl e
      by_cases h : t.first < t.last w.cfg
      · exact .inl h
      · refine .inr fun ht => .inr ⟨by rw [ht], ?_⟩
        subst ht
        simp only [Target.first, Target.last] at h
        omega
    · cases e; exact .fault _
  | ptOp t j =>
    rcases d.1 with ⟨x, -, rfl⟩ | ⟨z, rfl⟩ | ⟨z, rfl⟩ | ⟨z, x, rfl⟩
    · simp only [exec, execPtDelta, hw] at e
      refine rangeAt_ends (c := c1) trivial (.inr fun h => .inl ⟨j, by rw [h]⟩) (put_same _ _ _) ?_ ?_ ?_ e <;> cases t <;> rfl
    · simp only [exec, execPtZrun4, hw] at e; exact runOf_ends e
    · simp only [exec, execPtZrun20, hw] at e; exact runOf_ends e
    · simp only [exec, execPtSame, hw] at e
      split at e
      · cases e; exact .fault _
      · exact runOf_ends e
  | uncompR =>
    obtain ⟨⟨x, y, z, rfl⟩, -⟩ := d
    simp only [exec, execUncompR, hw] at e; cases e; exact .uncompBegins _ _ _ rfl
  | mainSym =>
    rcases d.1 with ⟨x, rfl⟩ | ⟨x, rfl⟩ | ⟨x, rfl⟩ | ⟨x, rfl⟩ | ⟨sl, x, -, rfl⟩
    · simp only [exec, execLit, hw] at e; cases e
      exact .itemEnds c1.r0 c1.r1 c1.r2 [x] trivial
    all_goals
      simp only [exec, execMatchRep0, execMatchRep1, execMatchRep2, execMatchNew, matchSymbol, hw] at e
      split at e
      · cases e; exact .itemGoes _ trivial trivial
      · exact afterLength_ends trivial e
  | lenSym slot =>
    obtain ⟨⟨x, rfl⟩, -⟩ := d
    simp only [exec, execLenSym, hw] at e
    exact afterLength_ends trivial e
  | footerV slot n =>
    obtain ⟨⟨x, rfl⟩, -⟩ := d
    simp only [exec, execFooterVerbatim, hw] at e
    exact afterFooter_ends trivial e
  | footerA slot n =>
    obtain ⟨⟨x, rfl⟩, -⟩ := d
    simp only [exec, execFooterHi, hw] at e
    split at e
    · cases e; exact .itemGoes _ trivial trivial
    · exact afterFooter_ends trivial e
  | alignedLo slot n hi =>
    obtain ⟨⟨x, rfl⟩, -⟩ := d
    simp only [exec, execAlignedLo, hw] at e
    exact afterFooter_ends trivial e
  | extLen slot n f =>
    rcases d.1 with ⟨x, rfl⟩ | ⟨x, rfl⟩ | ⟨x, rfl⟩ | ⟨x, rfl⟩
    all_goals
      simp only [exec, execExtLen0, execExtLen10, execExtLen110, execExtLen111, extended, hw] at e
      exact finishMatch_ends trivial e
  | raw =>
    obtain ⟨⟨b, rfl⟩, -⟩ := d
    simp only [exec, execRaw, hw] at e
    split at e
    · next hr =>
      split at e <;> cases e
      · exact .rawPads b rfl hr
      · exact .rawEnds b rfl hr
    · next hr => cases e; exact .rawGoes b rfl hr
  | oddPad =>
    obtain ⟨⟨b, rfl⟩, -⟩ := d
    simp only [exec, execOddPad, hw] at e
    cases e; exact .padEnds rfl

/-- The element a running machine reads next: its working registers and its phase. -/
def Reads (s : State) (c : Regs) (ph : Phase) : Prop :=
  s.work = some ⟨c, ph⟩
    ∨ (s.work = none ∧ c = s.regs ∧ s.regs.fault = none ∧ s.regs.chunkFill ≠ s.cfg.params.chunkSize
        ∧ beginStep s.cfg s.regs = .element ph)

/-- What a step inside a NEXT_CHUNK can do. -/
inductive StepCase (s : State) : State → Prop
  | readFault (c : Regs) (ph : Phase) (k : FaultKind) (hr : Reads s c ph)
      (hd : decode s.cfg (formatOf c ph) c.bitpos = .error (.fault k)) : StepCase s (s.takeFault k)
  | element (c : Regs) (ph : Phase) (i : Instr) (p : Nat) (t : State) (hr : Reads s c ph)
      (hd : decode s.cfg (formatOf c ph) c.bitpos = .ok (i, p))
      (he : ElementEnds (s.working (c.at p) ph) (c.at p) ph t) : StepCase s t
  | full (hw : s.work = none) (hf : s.regs.fault = none) (hc : s.regs.chunkFill = s.cfg.params.chunkSize) :
      StepCase s s.returnChunk
  | silent (c : Regs) (hw : s.work = none) (hf : s.regs.fault = none)
      (hc : s.regs.chunkFill ≠ s.cfg.params.chunkSize) (hb : beginStep s.cfg s.regs = .silent c) :
      StepCase s (s.commit c)

/-- What the fetch of an element and its meaning can do. -/
theorem fetchElement_cases {s t : State} {c : Regs} {ph : Phase} (hr : Reads s c ph)
    (h : (match fetchElement s c ph with
      | .run i u => exec i u
      | .quiet u => .next u
      | .stop f => .fault f
      | .refuse r => .refused r) = .next t) : StepCase s t := by
  unfold fetchElement at h
  split at h
  · next i p hd =>
    split at hd
    · next hd' => cases hd; exact .element c ph _ _ t hr hd' (exec_ends (decode_ok hd') h)
    all_goals cases hd
  · next hd =>
    cases h
    split at hd
    · cases hd
    · next k hd' => cases hd; exact .readFault c ph k hr hd'
    all_goals cases hd
  · cases h
  · cases h

/-- A step inside a NEXT_CHUNK does one of these. -/
theorem step_cases {s t : State} (hr : s.running = true) (h : step s = .next t) : StepCase s t := by
  unfold step fetch at h
  rw [if_pos hr] at h
  cases hw : s.work with
  | some w => rw [hw] at h; exact fetchElement_cases (.inl hw) h
  | none =>
    rw [hw] at h
    simp only [fetchPass] at h
    by_cases hf : s.regs.fault = none
    · rw [if_neg (by simp [hf])] at h
      by_cases hc : s.regs.chunkFill = s.cfg.params.chunkSize
      · rw [if_pos hc] at h; cases h; exact .full hw hf hc
      · rw [if_neg hc] at h
        cases hb : beginStep s.cfg s.regs with
        | element ph => rw [hb] at h; exact fetchElement_cases (.inr ⟨hw, rfl, hf, hc, hb⟩) h
        | silent c => rw [hb] at h; cases h; exact .silent c hw hf hc hb
        | nothing => rw [hb] at h; cases h
    · rw [if_pos hf] at h; cases h

end Sys2Proof.Machine
end

