-- ==== Sys2Proof/Tests/Slice0.lean ====
section
/-! SUPPORT. The model's own tests: ill-formed terms refused; words written out from the spec's encodings; one element or
one command on a small state, with the result 95_test_vectors.md gives (its vector named in the comment); and for each
statement that has hypotheses a state that meets them. -/

namespace Sys2Proof.Tests

set_option Elab.async false

open Sys2Proof.Machine

/-! ## Small sessions and states -/

/-- A session of window code 0. -/
def session (p : Params) (input : List Byte) : Config := ⟨0, input, p⟩

/-- The default session without input. -/
def g0 : Config := session Params.defaults []

/-- The registers after NEW with the default parameters. -/
def base : Regs := State.reset.regs

/-- Inside a Step of session g, with working registers c, before an element of phase ph. -/
def inStep (g : Config) (c : Regs) (ph : Phase) : State :=
  { State.reset with cfg := g, regs := c, running := true, work := some ⟨c, ph⟩ }

/-- At a Step boundary of a NEXT_CHUNK of session g. -/
def atBoundary (g : Config) (c : Regs) : State := { State.reset with cfg := g, regs := c, running := true }

/-- Something of the next state, none where there is no next state. -/
def after {α : Type} (o : Host.Outcome State Fault Refusal) (f : State → α) : Option α :=
  match o with
  | .next t => some (f t)
  | .fault _ => none
  | .refused _ => none

/-- The phase of the Step in progress. -/
def phaseOf (t : State) : Option Phase := t.work.map (·.phase)

/-- The value of a read that gives one. -/
def got {ε α : Type} : Except ε α → Option α
  | .ok a => some a
  | .error _ => none

/-- Why a read gives no value. -/
def stop {ε α : Type} : Except ε α → Option ε
  | .ok _ => none
  | .error e => some e

/-- Twenty pretree lengths: symbol 0 of length 2, 16 and 17 of length 3, 18 of length 1 (vector H8). -/
def pretreeH8 : List (BitVec 4) := [2, 0, 0, 0, 0, 0, 0, 0, 0, 0, 0, 0, 0, 0, 0, 0, 3, 3, 1, 0]

/-- The codes of vector H8: 18 `0`, 0 `10`, 16 `110`, 17 `111`. -/
def treeH8 : Option Tree := some ⟨[⟨2, 2, 0⟩, ⟨3, 6, 16⟩, ⟨3, 7, 17⟩, ⟨1, 0, 18⟩], 3⟩

/-- The codes of program P5's pretree with symbol 19: 18 `0`, 0 `10`, 19 `11`. -/
def treeP5 : Option Tree := some ⟨[⟨2, 2, 0⟩, ⟨1, 0, 18⟩, ⟨2, 3, 19⟩], 2⟩

/-- The eight aligned lengths of vector H9. -/
def lensH9 : List (BitVec 4) := [1, 0, 1, 0, 0, 0, 0, 0]

/-! ## Ill-formed terms are refused -/

theorem test_illformed_preamble :
    wellFormed (session { Params.defaults with preambleE8 := false } []) .preamble0 = false
      ∧ wellFormed (session { Params.defaults with preambleE8 := false } []) (.preamble1 0) = false := by decide

theorem test_illformed_pretree_of_19 : wellFormed g0 (.pretree (List.replicate 19 0)) = false := by decide

theorem test_illformed_delta_17 : wellFormed g0 (.ptDelta 17) = false := by decide

theorem test_illformed_zrun4_of_4_bits : wellFormed g0 (.ptZrun4 8) = false := by decide

theorem test_illformed_same_symbol_20 : wellFormed g0 (.ptSame 0 20) = false := by decide

theorem test_illformed_altree_of_7 : wellFormed g0 (.altree (List.replicate 7 0)) = false := by decide

theorem test_illformed_altree_length_8 : wellFormed g0 (.altree [8, 0, 0, 0, 0, 0, 0, 0]) = false := by decide

theorem test_illformed_repeat_without_slots :
    let g := session { Params.defaults with nslotsTable := [] } []
    wellFormed g (.matchRep0 0) = false ∧ wellFormed g (.matchRep1 0) = false ∧ wellFormed g (.matchRep2 0) = false := by
  decide

theorem test_illformed_match_slots :
    wellFormed g0 (.matchNew 2 0) = false ∧ wellFormed g0 (.matchNew 30 0) = false := by decide

theorem test_illformed_length_symbol_249 : wellFormed g0 (.lenSym 249) = false := by decide

theorem test_illformed_extlen_off :
    wellFormed g0 (.extLen0 0) = false ∧ wellFormed g0 (.extLen10 0) = false ∧ wellFormed g0 (.extLen110 0) = false
      ∧ wellFormed g0 (.extLen111 0) = false := by decide

theorem test_wellformed_bounds :
    wellFormed g0 (.ptDelta 16) = true ∧ wellFormed g0 (.ptZrun4 7) = true ∧ wellFormed g0 (.ptSame 0 19) = true
      ∧ wellFormed g0 (.matchNew 29 7) = true ∧ wellFormed g0 (.lenSym 248) = true := by decide

/-! ## Words written out from the encodings -/

/-- K1: the flag 0. -/
theorem test_decode_preamble0 :
    got (decode (session Params.defaults
      [0x00, 0x00]) .preamble 0) = some (.preamble0, 1) := by
  decide +kernel

/-- K3: the flag 1 and 32 bits. -/
theorem test_decode_preamble1 :
    got (decode (session Params.defaults
      [0x1a, 0x89, 0x3c, 0x2b, 0x00, 0x00]) .preamble 0) = some (.preamble1 0x12345678, 33) := by
  decide +kernel

/-- Type `001` and a length of 5 in 24 bits (30_encoding.md R103). -/
theorem test_decode_blockVerbatim :
    got (decode (session Params.defaults
      [0x00, 0x20, 0xa0, 0x00]) .header 0) = some (.blockVerbatim 5, 27) := by
  decide +kernel

/-- Type `010` and a length of 33. -/
theorem test_decode_blockAligned :
    got (decode (session Params.defaults
      [0x00, 0x40, 0x20, 0x04]) .header 0) = some (.blockAligned 33, 27) := by
  decide +kernel

/-- K4: at bit 1, type `011` and a length of 4. -/
theorem test_decode_blockUncomp :
    got (decode (session Params.defaults
      [0x00, 0x30, 0x40, 0x00]) .header 1) = some (.blockUncomp 4, 28) := by
  decide +kernel

/-- K5: type `000`, no length read. -/
theorem test_decode_blockInvalid0 :
    got (decode (session Params.defaults
      [0x00, 0x00]) .header 0) = some (.blockInvalid0, 3) := by
  decide +kernel

/-- K6: type `101`. -/
theorem test_decode_blockInvalid4 :
    got (decode (session Params.defaults
      [0x00, 0xa0]) .header 0) = some (.blockInvalid4 1, 3) := by
  decide +kernel

/-- H8: twenty fields of 4 bits, symbol 0 first. -/
theorem test_decode_pretree :
    got (decode (session Params.defaults
      [0x00, 0x20, 0x00, 0x00, 0x00, 0x00, 0x00, 0x00, 0x10, 0x33]) .pretree 0) = some (.pretree pretreeH8, 80) := by
  decide +kernel

/-- H8: symbol 16 is `110`. -/
theorem test_decode_ptDelta :
    got (decode (session Params.defaults
      [0x00, 0xc0]) (.ptOp treeH8) 0) = some (.ptDelta 16, 3) := by
  decide +kernel

/-- H8: symbol 17 is `111`, then 3 bits of z. -/
theorem test_decode_ptZrun4 :
    got (decode (session Params.defaults
      [0x00, 0xfc]) (.ptOp treeH8) 0) = some (.ptZrun4 7, 6) := by
  decide +kernel

/-- PT17_BITS = 4: the count field has 4 bits. -/
theorem test_decode_ptZrun4_4bits :
    got (decode (session { Params.defaults with pt17Bits := 4 }
      [0x00, 0xfe]) (.ptOp treeH8) 0) = some (.ptZrun4 15, 7) := by
  decide +kernel

/-- H8: symbol 18 is `0`, then 5 bits of z. -/
theorem test_decode_ptZrun20 :
    got (decode (session Params.defaults
      [0x00, 0x7c]) (.ptOp treeH8) 0) = some (.ptZrun20 31, 6) := by
  decide +kernel

/-- P5: symbol 19 is `11`, the count bit, then symbol 0 as `10`. -/
theorem test_decode_ptSame :
    got (decode (session Params.defaults
      [0x00, 0xd0]) (.ptOp treeP5) 0) = some (.ptSame 0 0, 5) := by
  decide +kernel

/-- H9: eight fields of 3 bits. -/
theorem test_decode_altree :
    got (decode (session Params.defaults
      [0x80, 0x20, 0x00, 0x00]) .altree 0) = some (.altree lensH9, 24) := by
  decide +kernel

/-- P2: 65 is `0`. -/
theorem test_decode_lit :
    got (decode (session Params.defaults
      [0x00, 0x00]) (.mainSym (some ⟨[⟨1, 0, 65⟩, ⟨1, 1, 258⟩], 1⟩)) 0) = some (.lit 0x41, 1) := by
  decide +kernel

/-- P2: 258 is `1`, slot 0 and length header 2. -/
theorem test_decode_matchRep0 :
    got (decode (session Params.defaults
      [0x00, 0x80]) (.mainSym (some ⟨[⟨1, 0, 65⟩, ⟨1, 1, 258⟩], 1⟩)) 0) = some (.matchRep0 2, 1) := by
  decide +kernel

/-- P3: symbol 265 is slot 1, length header 1. -/
theorem test_decode_matchRep1 :
    got (decode (session Params.defaults
      [0x00, 0x00]) (.mainSym (some ⟨[⟨1, 0, 265⟩], 1⟩)) 0) = some (.matchRep1 1, 1) := by
  decide +kernel

/-- P3: symbol 272 is slot 2, length header 0. -/
theorem test_decode_matchRep2 :
    got (decode (session Params.defaults
      [0x00, 0x00]) (.mainSym (some ⟨[⟨1, 0, 272⟩], 1⟩)) 0) = some (.matchRep2 0, 1) := by
  decide +kernel

/-- K27: symbol 289 is slot 4, length header 1. -/
theorem test_decode_matchNew :
    got (decode (session Params.defaults
      [0x00, 0x00]) (.mainSym (some ⟨[⟨1, 0, 289⟩, ⟨1, 1, 495⟩], 1⟩)) 0) = some (.matchNew 4 1, 1) := by
  decide +kernel

/-- K28: symbol 495 is slot 29, length header 7. -/
theorem test_decode_matchNew_last :
    got (decode (session Params.defaults
      [0x00, 0x80]) (.mainSym (some ⟨[⟨1, 0, 289⟩, ⟨1, 1, 495⟩], 1⟩)) 0) = some (.matchNew 29 7, 1) := by
  decide +kernel

/-- P4: length symbol 3. -/
theorem test_decode_lenSym :
    got (decode (session Params.defaults
      [0x00, 0x00]) (.lenSym (some ⟨[⟨1, 0, 3⟩], 1⟩)) 0) = some (.lenSym 3, 1) := by
  decide +kernel

/-- K19: two literal bits `01`. -/
theorem test_decode_footerVerbatim :
    got (decode (session Params.defaults
      [0x00, 0x40]) (.footerV 2) 0) = some (.footerVerbatim 1, 2) := by
  decide +kernel

/-- R314: 17 bits read as one value, high part first. -/
theorem test_decode_footerVerbatim_17 :
    got (decode (session Params.defaults
      [0x00, 0x80, 0x00, 0x80]) (.footerV 17) 0) = some (.footerVerbatim 0x10001, 17) := by
  decide +kernel

/-- K20: FOOTER_BITS 4 has one literal bit. -/
theorem test_decode_footerHi :
    got (decode (session Params.defaults
      [0x00, 0x80]) (.footerA 4) 0) = some (.footerHi 1, 1) := by
  decide +kernel

/-- K21: FOOTER_BITS 2 has two literal bits. -/
theorem test_decode_footerHi_short :
    got (decode (session Params.defaults
      [0x00, 0x40]) (.footerA 2) 0) = some (.footerHi 1, 2) := by
  decide +kernel

/-- K22: FOOTER_BITS 3 has no literal bit. -/
theorem test_decode_footerHi_none :
    got (decode (session Params.defaults
      [0x00, 0x80]) (.footerA 3) 0) = some (.footerHi 0, 0) := by
  decide +kernel

/-- H9: aligned symbol 2 is `1`. -/
theorem test_decode_alignedLo :
    got (decode (session Params.defaults
      [0x00, 0x80]) (.alignedLo (some ⟨[⟨1, 0, 0⟩, ⟨1, 1, 2⟩], 1⟩)) 0) = some (.alignedLo 2, 1) := by
  decide +kernel

/-- K23: prefix `0`, then 8 bits. -/
theorem test_decode_extLen0 :
    got (decode (session { Params.defaults with extLen := true }
      [0x00, 0x08]) .extLen 0) = some (.extLen0 0x10, 9) := by
  decide +kernel

/-- K24: prefix `10`, then 10 bits. -/
theorem test_decode_extLen10 :
    got (decode (session { Params.defaults with extLen := true }
      [0x10, 0x80]) .extLen 0) = some (.extLen10 1, 12) := by
  decide +kernel

/-- R316: prefix `110`, then 12 bits. -/
theorem test_decode_extLen110 :
    got (decode (session { Params.defaults with extLen := true }
      [0x02, 0xd0]) .extLen 0) = some (.extLen110 0x801, 15) := by
  decide +kernel

/-- K25: prefix `111`, then 15 ones. -/
theorem test_decode_extLen111 :
    got (decode (session { Params.defaults with extLen := true }
      [0xff, 0xff, 0x00, 0xc0]) .extLen 0) = some (.extLen111 0x7fff, 18) := by
  decide +kernel
/-- K16: twelve raw bytes, each value lowest byte first. -/
theorem test_decode_uncompR :
    got (decode (session Params.defaults [2, 0, 0, 0, 3, 0, 0, 0, 4, 0, 0, 0]) .uncompR 0) = some (.uncompR 2 3 4, 96) := by
  decide +kernel

/-- B11: raw bytes in address order. -/
theorem test_decode_raw : got (decode (session Params.defaults [0x34, 0x12]) .raw 8) = some (.raw 0x12, 16) := by decide +kernel

/-- R334: one pad byte. -/
theorem test_decode_oddPad : got (decode (session Params.defaults [0x51, 0x00]) .oddPad 8) = some (.oddPad 0, 16) := by
  decide +kernel

/-- The host's commands are taken from the queue, the oldest first. -/
theorem test_fetch_command :
    fetch { State.reset with port := [.new 1 [0x34] Params.defaults, .nextChunk] } =
      .run (.new 1 [0x34] Params.defaults) { State.reset with port := [.nextChunk] } := by decide +kernel

/-! ## The reader -/

/-- B1, B2, B5 and B7. -/
theorem test_readBits :
    got (readBits (session Params.defaults [0x34, 0x12, 0x78, 0x56]) 4 8) = some (0x23, 12)
      ∧ got (readBits (session Params.defaults [0x34, 0x12, 0x78, 0x56]) 12 8) = some (0x45, 20)
      ∧ got (readBits (session Params.defaults [0x34, 0x12, 0x78, 0x56]) 16 16) = some (0x5678, 32)
      ∧ stop (readBits (session Params.defaults [0x34, 0x12, 0x56]) 16 1) = some (.fault .inputExhausted)
      ∧ stop (readBits (session Params.defaults [0x34, 0x12]) 8 9) = some (.fault .inputExhausted) := by decide +kernel

/-- B3, B4 and B8. -/
theorem test_peek_and_field :
    got (peekBits (session Params.defaults [0x34, 0x12]) 0 8) = some 0x12
      ∧ stop (peekBits (session Params.defaults [0x34, 0x12]) 8 16) = some (.fault .inputExhausted)
      ∧ got (readField (session Params.defaults [0x00, 0x00, 0x00, 0x05]) 0 24) = some (5, 24) := by decide +kernel

/-- B6, B11 to B13: the odd last byte is seen by raw reads. -/
theorem test_raw_reads :
    got (readRawByte (session Params.defaults [0x34, 0x12, 0x56]) 16) = some (0x56, 24)
      ∧ stop (readRawByte (session Params.defaults [0x34, 0x12]) 16) = some (.fault .inputExhausted)
      ∧ got (readU32LE (session Params.defaults [0x78, 0x56, 0x34, 0x12]) 0) = some (0x12345678, 32)
      ∧ stop (readU32LE (session Params.defaults [1, 0, 0]) 0) = some (.fault .inputExhausted)
      ∧ stop (readRawByte (session Params.defaults [0x34, 0x12]) 4) = some .unaligned := by decide +kernel

/-- B9, B10, B14 and B15. -/
theorem test_alignment :
    (alignWord 28, alignWord 32, alignWord 0, align32 48, align32 64, align32 40) = (32, 32, 0, 64, 64, 64)
      ∧ (inputDone (session Params.defaults [0, 0]) 0, inputDone (session Params.defaults [0, 0]) 1,
          inputDone (session Params.defaults [0, 0]) 16, inputDone (session Params.defaults [0]) 0) =
        (false, true, true, true) := by decide +kernel

/-! ## Huffman trees -/

/-- H1, H5, H6 and H12. -/
theorem test_build :
    got (buildTree [2, 1, 3, 3]) = some ⟨[⟨2, 2, 0⟩, ⟨1, 0, 1⟩, ⟨3, 6, 2⟩, ⟨3, 7, 3⟩], 3⟩
      ∧ got (buildTree [0, 1]) = some ⟨[⟨1, 0, 1⟩], 1⟩ ∧ got (buildTree [0, 0]) = some ⟨[], 0⟩
      ∧ got (buildTree [0, 16]) = some ⟨[⟨16, 0, 1⟩], 16⟩ := by decide +kernel

/-- H4, H10 and H11. -/
theorem test_build_rejects :
    stop (buildTree [1, 1, 1]) = some .invalidCode ∧ stop (buildTree (List.replicate 20 1)) = some .invalidCode
      ∧ stop (buildTree (List.replicate 8 1)) = some .invalidCode := by decide +kernel

/-- H2, H5 and H6. -/
theorem test_decode_symbol :
    got (decodeSymbol (session Params.defaults [0x00, 0xc0]) (some ⟨[⟨2, 2, 0⟩, ⟨1, 0, 1⟩, ⟨3, 6, 2⟩, ⟨3, 7, 3⟩], 3⟩) 0) = some (2, 3)
      ∧ stop (decodeSymbol (session Params.defaults [0x00, 0x80]) (some ⟨[⟨1, 0, 1⟩], 1⟩) 0) = some (.fault .invalidCode)
      ∧ stop (decodeSymbol (session Params.defaults [0x00, 0x80]) (some ⟨[], 0⟩) 0) = some (.fault .invalidCode) := by
  decide +kernel

/-! ## Preamble and headers -/

/-- K1: the element leaves E8_FLAG 0 and AWAIT. -/
theorem test_preamble0 :
    after (exec .preamble0 (inStep g0 (base.at 1) .preamble)) (fun t => (t.regs.e8Flag, t.regs.bitpos, t.regs.state, t.work)) =
      some (false, 1, .await, none) := by decide +kernel

/-- K3: E8_FLAG 1, E8_SIZE 0x12345678, BITPOS 33. -/
theorem test_preamble1 :
    after (exec (.preamble1 0x12345678) (inStep g0 (base.at 33) .preamble))
        (fun t => (t.regs.e8Flag, t.regs.e8Size, t.regs.bitpos, t.regs.state)) =
      some (true, 0x12345678, 33, .await) := by decide +kernel

/-- K2: AVAIL 0 goes to TERMINAL, and the call answers None (D5v). -/
theorem test_no_input :
    after (step (atBoundary g0 base)) (fun t => (t.regs.state, t.running, t.results)) = some (.terminal, false, [.none]) := by
  decide +kernel

/-- K9 and K10: InputDone at BITPOS 381 of 384 bits; not at BITPOS 380 of 400 bits. -/
theorem test_end_of_stream :
    beginStep (session Params.defaults (List.replicate 48 0)) { base with state := .await, bitpos := 381 } =
        .silent { base with state := .terminal, bitpos := 381 }
      ∧ beginStep (session Params.defaults (List.replicate 50 0)) { base with state := .await, bitpos := 380 } =
        .element .header := by decide +kernel

/-- R296, R300: BTYPE and BLOCK_LEN, then the literal part's pretree. -/
theorem test_blockVerbatim :
    after (exec (.blockVerbatim 5) (inStep g0 { base with state := .await } .header))
        (fun t => (t.work.map fun w => (w.regs.btype, w.regs.blockLen), phaseOf t, t.regs.blockLen)) =
      some (some (1, 5), some (.pretree .mainLiterals), 0) := by decide +kernel

/-- MAIN_TREE_PARTS = 1: one range for the whole main tree (42_tree_of_trees.md R220). -/
theorem test_blockVerbatim_one_part :
    after (exec (.blockVerbatim 5) (inStep (session { Params.defaults with mainTreeParts := 1 } [])
        { base with state := .await } .header)) phaseOf = some (some (.pretree .mainWhole)) := by decide +kernel

/-- R305: the aligned tree comes first. -/
theorem test_blockAligned :
    after (exec (.blockAligned 33) (inStep g0 { base with state := .await } .header))
        (fun t => (t.work.map fun w => (w.regs.btype, w.regs.blockLen), phaseOf t)) =
      some (some (2, 33), some .altree) := by decide +kernel

/-- K11, K12 and K14: 28 goes to 32, 802 to 832, 64 stays. -/
theorem test_blockUncomp :
    ([28, 802, 64].map fun p =>
      after (exec (.blockUncomp 4) (inStep g0 ({ base with state := .await }.at p) .header))
        (fun t => (t.work.map fun w => (w.regs.btype, w.regs.bitpos), phaseOf t))) =
      [some (some (3, 32), some .uncompR), some (some (3, 832), some .uncompR), some (some (3, 64), some .uncompR)] := by
  decide +kernel

/-- K13 and K15: a whole word is skipped, 64 to 80 to 96; past AVAIL it is InputExhausted. -/
theorem test_blockUncomp_pad16 :
    ([200, 8].map fun len =>
      after (exec (.blockUncomp 4) (inStep (session { Params.defaults with uncompPad16IfAligned := true }
          (List.replicate len 0)) ({ base with state := .await }.at 64) .header))
        (fun t => (t.work.map (·.regs.bitpos), t.regs.fault))) =
      [some (some 96, none), some (none, some .inputExhausted)] := by decide +kernel

/-- F_type0 and X4: InvalidBlockType; BITPOS stays at the header's start, and the call answers the Error. -/
theorem test_blockInvalid0 :
    after (exec .blockInvalid0 { inStep g0 ({ base with state := .await }.at 4) .header with
        regs := { base with state := .await }.at 1 })
        (fun t => (t.regs.faultReg, t.regs.bitpos, t.regs.state, t.results, t.running)) =
      some (3, 1, .await, [.error .invalidBlockType], false) := by decide +kernel

/-- F_type5. -/
theorem test_blockInvalid4 :
    after (exec (.blockInvalid4 1) (inStep g0 { base with state := .await } .header)) (fun t => t.regs.faultReg) =
      some 3 := by decide +kernel

/-- K7, F_empty: EmptyBlock, code 8. -/
theorem test_empty_block :
    after (exec (.blockVerbatim 0) (inStep g0 { base with state := .await } .header)) (fun t => t.regs.faultReg) =
      some 8 := by decide +kernel

/-! ## Trees -/

/-- H8: the pretree's codes, and the first op comes next. -/
theorem test_pretree :
    after (exec (.pretree pretreeH8) (inStep g0 { base with state := .await } (.pretree .mainMatches)))
        (fun t => (t.work.map (·.regs.preTree), phaseOf t)) =
      some (some treeH8, some (.ptOp .mainMatches 256)) := by decide +kernel

/-- F_oversub: twenty lengths of 1 are InvalidCode. -/
theorem test_pretree_oversubscribed :
    after (exec (.pretree (List.replicate 20 1)) (inStep g0 { base with state := .await } (.pretree .lengths)))
        (fun t => t.regs.faultReg) = some 2 := by decide +kernel

/-- An entry of the working MAIN_LEN, and the phase, after one op at index i on the given array. -/
def opOn (arr : List Nat) (i : Nat) (op : Instr) (look : List Nat) : Option (Option (List Nat) × Option Phase) :=
  after (exec op (inStep g0 { base with state := .await, mainLen := arr } (.ptOp .mainLiterals i)))
    (fun t => (t.work.map fun w => look.map (w.regs.mainLen.getD · 99), phaseOf t))

/-- T1, T2, T3 and T5. -/
theorem test_ptDelta :
    [opOn [0, 3, 2, 16] 0 (.ptDelta 16) [0, 1], opOn [0, 3, 2, 16] 1 (.ptDelta 1) [1],
      opOn [0, 3, 2, 16] 2 (.ptDelta 5) [2], opOn [0, 3, 2, 16] 2 (.ptDelta 1) [2]] =
      [some (some [1, 3], some (.ptOp .mainLiterals 1)), some (some [2], some (.ptOp .mainLiterals 2)),
        some (some [14], some (.ptOp .mainLiterals 3)), some (some [1], some (.ptOp .mainLiterals 3))] := by
  decide +kernel

/-- T7 and T8. -/
theorem test_ptZrun4 :
    (opOn (List.replicate 256 7) 0 (.ptZrun4 7) [0, 10, 11], opOn (List.replicate 256 7) 10 (.ptZrun4 0) [9, 10, 13, 14]) =
      (some (some [0, 0, 7], some (.ptOp .mainLiterals 11)), some (some [7, 0, 0, 7], some (.ptOp .mainLiterals 14))) := by
  decide +kernel

/-- T10 and T12: 51 zeros; a run that ends exactly at the range's end leaves it full. -/
theorem test_ptZrun20 :
    (opOn (List.replicate 256 7) 0 (.ptZrun20 31) [50, 51], opOn (List.replicate 256 7) 220 (.ptZrun20 16) [219, 255]) =
      (some (some [0, 7], some (.ptOp .mainLiterals 51)), some (some [7, 0], some (.pretree .mainMatches))) := by
  decide +kernel

/-- T11: 20 zeros from 240 pass 256. -/
theorem test_ptZrun20_past_the_end :
    after (exec (.ptZrun20 0) (inStep g0 { base with state := .await } (.ptOp .mainLiterals 240))) (fun t => t.regs.faultReg) =
      some 5 := by decide +kernel

/-- T14 and T16: one value, from the first entry only. -/
theorem test_ptSame :
    (opOn [0, 9, 9, 9, 9, 9] 0 (.ptSame 1 14) [0, 4, 5], opOn [2, 5, 7, 9, 9] 0 (.ptSame 0 2) [0, 1, 2, 3, 4]) =
      (some (some [3, 3, 9], some (.ptOp .mainLiterals 5)), some (some [0, 0, 0, 0, 9], some (.ptOp .mainLiterals 4))) := by
  decide +kernel

/-- T15 and T17: a value symbol above 16, and a run past the end, are InvalidLength; T18 is accepted. -/
theorem test_ptSame_invalid :
    ([(252, 17), (252, 0), (251, 0)].map fun x =>
      after (exec (.ptSame 1 x.2) (inStep g0 { base with state := .await } (.ptOp .mainLiterals x.1)))
        (fun t => (t.regs.faultReg, phaseOf t))) =
      [some (5, none), some (5, none), some (0, some (.pretree .mainMatches))] := by decide +kernel

/-- H9, then the main tree's first pretree. -/
theorem test_altree :
    after (exec (.altree lensH9) (inStep g0 { base with state := .await } .altree))
        (fun t => (t.work.map (·.regs.alignedTree), phaseOf t)) =
      some (some (some ⟨[⟨1, 0, 0⟩, ⟨1, 1, 2⟩], 1⟩), some (.pretree .mainLiterals)) := by decide +kernel

/-- H11: eight lengths of 1 are InvalidCode. -/
theorem test_altree_oversubscribed :
    after (exec (.altree (List.replicate 8 1)) (inStep g0 { base with state := .await } .altree)) (fun t => t.regs.faultReg) =
      some 2 := by decide +kernel

/-! ## Main items -/

/-- A Verbatim block that has produced the bytes `out`, with the cache (5, 7, 9) and 4 bytes still owed. -/
def produced (out : List Byte) : Regs :=
  { out.foldl (emitByte g0) { base with remaining := 4 + BitVec.ofNat 24 out.length, blockLen := 30 } with
    state := .verbatim, r0 := 5, r1 := 7, r2 := 9 }

/-- W1: WIN[0] = 0x41, WPOS = PRODUCED = 1. -/
theorem test_lit :
    after (exec (.lit 0x41) (inStep g0 (produced []) .mainSym))
        (fun t => (winRead t.regs.win 0, t.regs.wpos, t.regs.produced, t.regs.remaining, t.regs.state)) =
      some (some 0x41, 1, 1, 3, .verbatim) := by decide +kernel

/-- W2: the write cursor wraps from W - 1 to 0. -/
theorem test_emitByte_wraps :
    let c := emitByte g0 { base with wpos := 32767, produced := 32767 } 0x41
    (winRead c.win 32767, c.wpos, c.produced) = (some 0x41, 0, 32768) := by decide +kernel

/-- W14: "A", then off 1 and n 4, gives "AAAAA", and the block is complete. -/
theorem test_matchRep0 :
    after (exec (.matchRep0 2) (inStep g0 ((produced [0x41]).setCache 1 1 1) .mainSym))
        (fun t => (t.regs.chunkBuf, t.regs.remaining, t.regs.state, t.regs.r0)) =
      some ([0x41, 0x41, 0x41, 0x41, 0x41], 0, .await, 1) := by decide +kernel

/-- W10, W13 and W18: an offset of 3 after 2 bytes, and an offset of 0, are InvalidOffset, before any length check. -/
theorem test_matchRep0_invalid_offset :
    ([3, 0].map fun off =>
      after (exec (.matchRep0 6) (inStep g0 ((produced [0x78, 0x79]).setCache off 1 1) .mainSym))
        (fun t => (t.regs.faultReg, t.regs.produced))) = [some (4, 2), some (4, 2)] := by decide +kernel

/-- W19: slot 1 with an unusable R0: off 1, R = (1, 0xFFFFFFFF, 1). -/
theorem test_matchRep1 :
    after (exec (.matchRep1 0) (inStep g0 ((produced [0x41]).setCache 0xFFFFFFFF 1 1) .mainSym))
        (fun t => (t.regs.chunkBuf, t.regs.r0, t.regs.r1, t.regs.r2)) =
      some ([0x41, 0x41, 0x41], 1, 0xFFFFFFFF, 1) := by decide +kernel

/-- W16: 4 bytes owed, a match of 8 is BlockOverrun and leaves the cache. -/
theorem test_matchRep1_block_overrun :
    after (exec (.matchRep1 6) (inStep g0 ((produced [0x41]).setCache 2 1 3) .mainSym))
        (fun t => (t.regs.faultReg, t.regs.r0, t.regs.r1)) = some (6, 2, 1) := by decide +kernel

/-- W5 and W6: R = (5, 7, 9) becomes (9, 5, 7) under rotate, (9, 7, 5) under swap. -/
theorem test_matchRep2 :
    ([Params.defaults, { Params.defaults with rep2Policy := .swap }].map fun p =>
      after (exec (.matchRep2 0) (inStep (session p []) (produced [1, 2, 3, 4, 5, 6, 7, 8, 9]) .mainSym))
        (fun t => (t.regs.r0, t.regs.r1, t.regs.r2, t.regs.chunkBuf.drop 9))) =
      [some (9, 5, 7, [1, 2]), some (9, 7, 5, [1, 2])] := by decide +kernel

/-- W17, D8v: a match past the chunk is ChunkOverrun. -/
theorem test_chunk_overrun :
    after (exec (.matchRep0 2) (inStep (session { Params.defaults with chunkSize := 4 } [])
        ((produced [0x41]).setCache 1 1 1) .mainSym)) (fun t => t.regs.faultReg) = some 7 := by decide +kernel

/-- K27, K28: symbol 289 goes to the footer of slot 4 with length 3, symbol 495 to a length symbol. -/
theorem test_matchNew :
    (after (exec (.matchNew 4 1) (inStep g0 (produced []) .mainSym)) phaseOf,
      after (exec (.matchNew 29 7) (inStep g0 (produced []) .mainSym)) phaseOf,
      after (exec (.matchNew 4 1) (inStep g0 ((produced []).enter .aligned) .mainSym)) phaseOf) =
      (some (some (.footerV 4 3)), some (some (.lenSym 29)), some (some (.footerA 4 3))) := by decide +kernel

/-- P4: length symbol 3 gives 12 before the footer of slot 8; P7: symbol 248 gives 257, and an extended length follows. -/
theorem test_lenSym :
    (after (exec (.lenSym 3) (inStep g0 ((produced []).enter .aligned) (.lenSym 8))) phaseOf,
      after (exec (.lenSym 248) (inStep (session { Params.defaults with extLen := true } []) (produced [0x41]) (.lenSym 0)))
        phaseOf) =
      (some (some (.footerA 8 12)), some (some (.extLen 0 257 0))) := by decide +kernel

/-- K26: with EXT_LEN off a length of 257 is final: here more than the 4 bytes owed. -/
theorem test_lenSym_final :
    after (exec (.lenSym 248) (inStep g0 ((produced [0x41]).setCache 1 1 1) (.lenSym 0))) (fun t => t.regs.faultReg) =
      some 6 := by decide +kernel

/-- K19 and W8: slot 6 with footer 1 is offset 7, and R = (7, 5, 7). -/
theorem test_footerVerbatim :
    after (exec (.footerVerbatim 1) (inStep g0 (produced [1, 2, 3, 4, 5, 6, 7]) (.footerV 6 2)))
        (fun t => (t.regs.r0, t.regs.r1, t.regs.r2, t.regs.chunkBuf.drop 7)) =
      some (7, 5, 7, [1, 2]) := by decide +kernel

/-- W9: slot 3 has no footer bits and offset 1. -/
theorem test_footerVerbatim_slot3 :
    after (exec (.footerVerbatim 0) (inStep g0 (produced [8, 9]) (.footerV 3 2)))
        (fun t => (t.regs.r0, t.regs.r1, t.regs.r2, t.regs.chunkBuf.drop 2)) =
      some (1, 5, 7, [9, 9]) := by decide +kernel

/-- K20 and K21: slot 10 goes on to the aligned symbol, slot 6 makes the match of offset 7. -/
theorem test_footerHi :
    (after (exec (.footerHi 1) (inStep g0 ((produced []).enter .aligned) (.footerA 10 2))) phaseOf,
      after (exec (.footerHi 1) (inStep g0 ((produced [1, 2, 3, 4, 5, 6, 7]).enter .aligned) (.footerA 6 2)))
        (fun t => (t.regs.r0, t.regs.chunkBuf.drop 7, t.regs.state))) =
      (some (some (.alignedLo 10 2 1)), some (7, [1, 2], .aligned)) := by decide +kernel

/-- K20: literal bit 1 and aligned symbol 5 are footer 13, offset 43. -/
theorem test_alignedLo :
    after (exec (.alignedLo 5) (inStep g0 ((produced ((List.range 43).map (BitVec.ofNat 8))).enter .aligned)
        (.alignedLo 10 2 1))) (fun t => (t.regs.r0, t.regs.chunkBuf.drop 43)) =
      some (43, [0, 1]) := by decide +kernel

/-- Faults of a match of the given extended length with n bytes owed and no room in the chunk: BlockOverrun for a longer
match, ChunkOverrun for one that fits the block. -/
def owing (n : Nat) (i : Instr) : Option (BitVec 4) :=
  after (exec i (inStep (session { Params.defaults with extLen := true, chunkSize := 2 } [])
    { (produced [0x41]).setCache 1 1 1 with remaining := BitVec.ofNat 24 n } (.extLen 0 257 0))) (fun t => t.regs.faultReg)

/-- K23: 257 + 16 = 273. -/
theorem test_extLen0 : (owing 272 (.extLen0 0x10), owing 273 (.extLen0 0x10)) = (some 6, some 7) := by decide +kernel

/-- K24: 257 + 0x101 = 514. -/
theorem test_extLen10 : (owing 513 (.extLen10 1), owing 514 (.extLen10 1)) = (some 6, some 7) := by decide +kernel

/-- R316: 257 + 0x500 + 1 = 1538. -/
theorem test_extLen110 : (owing 1537 (.extLen110 1), owing 1538 (.extLen110 1)) = (some 6, some 7) := by decide +kernel

/-- K25: 257 + 32767 = 33024. -/
theorem test_extLen111 :
    (owing 33023 (.extLen111 0x7fff), owing 33024 (.extLen111 0x7fff)) = (some 6, some 7) := by decide +kernel

/-- P7: a match of 273 bytes is made, byte for byte. -/
theorem test_extLen0_copies :
    after (exec (.extLen0 0) (inStep (session { Params.defaults with extLen := true } [])
      { (produced [0x41]).setCache 1 1 1 with remaining := 300, blockLen := 301 } (.extLen 0 257 0)))
      (fun t => (t.regs.produced, t.regs.remaining, winRead t.regs.win 257, winRead t.regs.win 258)) =
      some (258, 43, some 0x41, none) := by decide +kernel

/-! ## Uncompressed blocks -/

/-- K16: R = (2, 3, 4), and the block begins. -/
theorem test_uncompR :
    after (exec (.uncompR 2 3 4) (inStep g0 { base with state := .await, btype := 3, blockLen := 1 } .uncompR))
        (fun t => (t.regs.r0, t.regs.r1, t.regs.r2, t.regs.state, t.regs.remaining)) =
      some (2, 3, 4, .uncomp, 1) := by decide +kernel

/-- K18: the last byte of a block at the end of an input of 23 bytes: BITPOS 184, no pad byte. -/
theorem test_raw_at_the_end :
    after (exec (.raw 0x5a) (inStep (session Params.defaults (List.replicate 23 0))
        { base with state := .uncomp, remaining := 1, blockLen := 3, bitpos := 184 } .raw))
        (fun t => (t.regs.bitpos, t.regs.state, t.regs.chunkBuf, phaseOf t)) =
      some (184, .await, [0x5a], none) := by decide +kernel

/-- K17: the last byte at bit 928 of an input of 118 bytes leaves the pad byte to read. -/
theorem test_raw_before_a_pad :
    after (exec (.raw 0x51) (inStep (session Params.defaults (List.replicate 118 0))
        { base with state := .uncomp, remaining := 1, blockLen := 1, bitpos := 936 } .raw)) phaseOf =
      some (some .oddPad) := by decide +kernel

/-- K17: EndUncomp rounds up to 944 = 8 L. -/
theorem test_oddPad :
    after (exec (.oddPad 0) (inStep (session Params.defaults (List.replicate 118 0))
        { base with state := .uncomp, remaining := 0, blockLen := 1, bitpos := 944 } .oddPad))
        (fun t => (t.regs.bitpos, t.regs.state)) = some (944, .await) := by decide +kernel

/-! ## The host's commands -/

/-- D1v. -/
theorem test_new :
    after (exec (.new 0 [0, 0] Params.defaults) State.reset)
        (fun t => (t.cfg.capacity, t.cfg.nmain, t.cfg.avail, t.regs.state, t.regs.faultReg)) =
      some (32768, 496, 16, .preamble, 0) := by decide +kernel

/-- D2v, D3v and D4v. -/
theorem test_new_invalid :
    ([(7, Params.defaults), (0, { Params.defaults with chunkSize := 0 }), (0, { Params.defaults with pt17Bits := 5 })].map
      fun x => after (exec (.new x.1 [] x.2) State.reset) (fun t => t.regs.faultReg)) = [some 9, some 9, some 9] := by
  decide +kernel

/-- The machine starts in the state after NEW of window code 0, no input and the defaults (log entry 4). -/
theorem test_reset_is_after_new : exec (.new 0 [] Params.defaults) State.reset = .next State.reset := by rfl

/-- R345: the chunk registers are cleared and the loop begins. -/
theorem test_nextChunk :
    after (exec .nextChunk { State.reset with regs := { base with chunkFill := 3, chunkBuf := [1, 2, 3] } })
        (fun t => (t.running, t.regs.chunkFill, t.regs.chunkBuf)) = some (true, 0, []) := by decide +kernel

/-- D11v and D12v: the sticky error, and None again. -/
theorem test_nextChunk_ended :
    (after (exec .nextChunk { State.reset with regs := { base with fault := some .invalidBlockType } })
        (fun t => (t.running, t.results)),
      after (exec .nextChunk { State.reset with regs := { base with state := .terminal } }) (fun t => (t.running, t.results))) =
      (some (false, [.error .invalidBlockType]), some (false, [.none])) := by decide +kernel

/-- D7v and D6v: a full chunk in AWAIT moves BITPOS 381 to 384; one in UNCOMP moves nothing. -/
theorem test_full_chunk :
    ([BlockState.await, .uncomp].map fun x =>
      after (step (atBoundary (session { Params.defaults with chunkSize := 2 } (List.replicate 60 0))
        { base with state := x, chunkFill := 2, chunkBuf := [0x41, 0x42], bitpos := 381 }))
        (fun t => (t.regs.bitpos, t.results, t.running))) =
      [some (384, [.chunk [0x41, 0x42]], false), some (381, [.chunk [0x41, 0x42]], false)] := by decide +kernel

/-- Without a command the machine stops between commands (log entry 3). -/
theorem test_no_command : step State.reset = .fault .noCommand := by rfl

/-- A fault is reported under the implementation's code (93_implementation_defined.md I2). -/
theorem test_reported_code :
    after (exec (.blockVerbatim 0) { inStep g0 { base with state := .await } .header with
        impl := ⟨.invalidLength, .invalidLength, .invalidBlockType⟩ }) (fun t => (t.regs.faultReg, t.results)) =
      some (3, [.error .invalidBlockType]) := by decide +kernel

/-! ## Words of the opcode table -/

/-- Words of the table's rows decode to their instructions (log entry 5). -/
theorem test_table_words :
    decodeTableWord 8 0 = some .preamble0 ∧ decodeTableWord 8 2 = some (.blockAligned 0)
      ∧ decodeTableWord 8 0x11 = some (.ptZrun4 0) ∧ decodeTableWord 16 0x41 = some (.lit 0x41)
      ∧ decodeTableWord 16 0x100 = some (.matchRep0 0) ∧ decodeTableWord 16 0x121 = some (.matchNew 4 1)
      ∧ decodeTableWord 8 7 = some (.extLen111 0) ∧ decodeTableWord 0 0 = some .nextChunk := by decide +kernel

/-- A placed word is what the next step from reset runs. -/
theorem test_placed_words_run :
    (after (step (State.reset.withFetchWord 16 0x41)) (fun t => t.regs.chunkBuf),
      after (step (State.reset.withFetchWord 8 0)) (fun t => t.regs.state),
      after (step (State.reset.withFetchWord 0 0)) (fun t => t.running)) =
      (some [0x41], some .await, some true) := by decide +kernel

/-! ## The statements' hypotheses are met

For each statement of Sys2Proof/Certificates/Slice0/Obligations.lean that has hypotheses, values that meet them, one for each
clause, at the ends of its ranges. -/

/-- Something true of the next state. -/
theorem next_of {o : Host.Outcome State Fault Refusal} {f : State → Bool} (h : after o f = some true) :
    ∃ t, o = .next t ∧ f t = true := by
  match o, h with
  | .next t, h => exact ⟨t, rfl, by simpa [after] using h⟩

theorem ok_of_got {ε α : Type} {r : Except ε α} {a : α} (h : got r = some a) : r = .ok a := by
  match r, h with
  | .ok b, h => simpa [got] using h

theorem error_of_stop {ε α : Type} {r : Except ε α} {e : ε} (h : stop r = some e) : r = .error e := by
  match r, h with
  | .error b, h => simpa [stop] using h

/-- `builtFrom`, decided. -/
def builtCheck (lens : List Nat) (tree : Option Tree) : Bool :=
  match tree with
  | none => true
  | some t => decide (got (buildTree lens) = some t)

theorem built_of_check {lens : List Nat} {tree : Option Tree} (h : builtCheck lens tree = true) : builtFrom lens tree := by
  intro t ht
  subst ht
  exact ok_of_got (by simpa [builtCheck] using h)

/-- `Regs.Ok`, decided. -/
def okCheck (g : Config) (c : Regs) : Bool :=
  Memory.wf c.win && decide (c.wpos = c.produced % g.capacity)
    && (List.range (c.hist g)).all (fun d => (winRead c.win (behind g c.wpos (d + 1))).isSome)
    && decide (c.remaining.toNat ≤ c.blockLen.toNat)
    && decide (c.state = .preamble ∨ c.state = .await ∨ c.state = .terminal → c.remaining = 0)
    && decide (c.chunkFill = c.chunkBuf.length) && decide (c.chunkFill ≤ g.params.chunkSize)
    && decide (c.mainLen.length = g.nmain ∧ ∀ l ∈ c.mainLen, l ≤ maxCodeLen)
    && decide (c.lenLen.length = g.params.numLengthSymbols ∧ ∀ l ∈ c.lenLen, l ≤ maxCodeLen)
    && decide (c.alLen.length = alignedSymbols ∧ ∀ l ∈ c.alLen, l < 2 ^ g.params.alignedLenBits)
    && decide (c.ptLen.length = pretreeSymbols ∧ ∀ l ∈ c.ptLen, l < 2 ^ pretreeLenBits)
    && builtCheck c.alLen c.alignedTree && builtCheck c.ptLen c.preTree

theorem ok_of_check {g : Config} {c : Regs} (h : okCheck g c = true) : c.Ok g := by
  simp only [okCheck, Bool.and_eq_true, decide_eq_true_eq, List.all_eq_true, List.mem_range] at h
  obtain ⟨⟨⟨⟨⟨⟨⟨⟨⟨⟨⟨⟨h1, h2⟩, h3⟩, h4⟩, h5⟩, h6⟩, h7⟩, h8⟩, h9⟩, h10⟩, h11⟩, h12⟩, h13⟩ := h
  refine ⟨h1, h2, fun d hd hd' => ?_, h4, h5, h6, h7, h8, h9, h10, h11, built_of_check h12, built_of_check h13⟩
  have := h3 (d - 1) (by omega)
  rwa [show d - 1 + 1 = d by omega] at this

/-- `Regs.Inv`, decided. -/
def boundaryCheck (g : Config) (c : Regs) : Bool :=
  okCheck g c && decide (c.bitpos ≤ 8 * g.len) && builtCheck c.mainLen c.mainTree && builtCheck c.lenLen c.lengthTree
    && decide (c.state = .verbatim ∨ c.state = .aligned ∨ c.state = .uncomp → c.remaining ≠ 0)
    && decide (c.state = .verbatim ∨ c.state = .aligned → c.mainTree.isSome = true ∧ c.lengthTree.isSome = true)
    && decide (c.state = .aligned → c.alignedTree.isSome = true)
    && decide (c.state = .uncomp → c.bitpos % 8 = 0)

theorem regs_inv_of_check {g : Config} {c : Regs} (h : boundaryCheck g c = true) : c.Inv g := by
  simp only [boundaryCheck, Bool.and_eq_true, decide_eq_true_eq] at h
  obtain ⟨⟨⟨⟨⟨⟨⟨h1, h2⟩, h3⟩, h4⟩, h5⟩, h6⟩, h7⟩, h8⟩ := h
  exact ⟨ok_of_check h1, h2, built_of_check h3, built_of_check h4, h5, h6, h7, h8⟩

/-- The invariant of a state at a Step boundary, decided. -/
def invCheck (s : State) : Bool :=
  boundaryCheck s.cfg s.regs && decide (s.regs.fault = none → s.cfg.valid = true) && decide (s.work = none)
    && decide (s.running = true → s.regs.fault = none ∧ s.regs.state ≠ .terminal)

theorem inv_of_check {s : State} (h : invCheck s = true) : s.Inv := by
  simp only [invCheck, Bool.and_eq_true, decide_eq_true_eq] at h
  obtain ⟨⟨⟨h1, h2⟩, h3⟩, h4⟩ := h
  exact ⟨regs_inv_of_check h1, h2, fun _ => h3, h4, fun w hw => by simp [h3] at hw⟩

/-- The invariant of a state inside a Step: that of its boundary, and the phase's. -/
theorem inv_inside {s : State} {c : Regs} {ph : Phase} (h : invCheck { s with work := none } = true)
    (hs : s.work = some ⟨c, ph⟩) (hr : s.running = true) (hf : s.regs.chunkFill < s.cfg.params.chunkSize)
    (hp : phaseInv s.cfg s.regs c ph) : s.Inv := by
  have hi := inv_of_check h
  refine ⟨hi.regs, hi.valid, fun h => by simp [hr] at h, hi.live, fun w hw => ?_⟩
  rw [hs] at hw
  cases hw
  exact ⟨hf, hp⟩

/-- A session with one position slot, one length symbol and chunks of 8 bytes. -/
def tiny (input : List Byte) : Config :=
  session { Params.defaults with nslotsTable := [1], numLengthSymbols := 1, chunkSize := 8 } input

/-- A tree without codes: what Build makes of lengths that are all 0. -/
def noCodes : Option Tree := some ⟨[], 0⟩

/-- Inside a block of kind x of a session like `tiny`: the bytes 1 and 2 are produced, `left` are owed, R = (1, 1, 1). -/
def block (x : BlockState) (left : Nat) : Regs :=
  { emitByte (tiny []) (emitByte (tiny []) (freshRegs (tiny [])) 1) 2 with
    state := x, blockLen := BitVec.ofNat 24 (left + 2), remaining := BitVec.ofNat 24 left
    mainTree := noCodes, lengthTree := noCodes, alignedTree := noCodes, preTree := noCodes }

/-- Eight input bytes, all 0. -/
def zeros8 : List Byte := List.replicate 8 0

/-- Between a NEW and its first NEXT_CHUNK's preamble. -/
def inPreamble : State := atBoundary (tiny zeros8) (freshRegs (tiny zeros8))

/-- Before a block header, with one bit read. -/
def inAwait : State := atBoundary (tiny zeros8) { freshRegs (tiny zeros8) with state := .await, bitpos := 1 }

/-- Before a main item of a Verbatim block whose one code, `0`, is the literal 0x41. -/
def inVerbatim : State :=
  atBoundary (tiny zeros8) { block .verbatim 6 with
    bitpos := 16, mainLen := (List.replicate 264 0).set 65 1, mainTree := some ⟨[⟨1, 0, 65⟩], 1⟩ }

/-- Before a main item of an AlignedOffset block. -/
def inAligned : State := atBoundary (tiny zeros8) { block .aligned 1 with bitpos := 16 }

/-- Before the last raw byte of an Uncompressed block, at the odd byte 3. -/
def inUncomp : State := atBoundary (tiny zeros8) { block .uncomp 1 with bitpos := 24 }

/-- Before the pad byte that follows the raw byte of bit 16. -/
def beforePad : State :=
  { atBoundary (tiny zeros8) { block .uncomp 1 with bitpos := 16 } with
    work := some ⟨(emitByte (tiny zeros8) (block .uncomp 1) 0).at 24, .oddPad⟩ }

/-- Before the last op of a header: the length tree's one entry is to be read. -/
def beforeLastOp : State :=
  { inAwait with
    work := some ⟨{ freshRegs (tiny zeros8) with
      state := .await, bitpos := 40, btype := 1, blockLen := 3, mainTree := noCodes, ptLen := 1 :: List.replicate 19 0
      preTree := some ⟨[⟨1, 0, 0⟩], 1⟩ }, .ptOp .lengths 0⟩ }

/-- Inside a main item, before an aligned symbol. -/
def beforeAligned : State := { inAligned with work := some ⟨{ block .aligned 1 with bitpos := 20 }, .alignedLo 8 2 0⟩ }

/-- A chunk is full. -/
def fullChunk : State :=
  atBoundary (session { (tiny []).params with chunkSize := 2 } zeros8) { block .verbatim 6 with bitpos := 17 }

/-- The end of the stream with two bytes pending. -/
def atEnd : State := atBoundary (tiny [0, 0]) { block .await 0 with bitpos := 9 }

/-- The end of the stream with nothing pending. -/
def atEmptyEnd : State := atBoundary (tiny [0, 0]) { freshRegs (tiny []) with state := .await, bitpos := 16 }

/-- Between commands of a session with chunks of one byte, before the last raw byte of a block at the word 0x1234. -/
def betweenChunks : State :=
  { State.reset with
    cfg := session { (tiny []).params with chunkSize := 1 } [0x34, 0x12]
    regs := { block .uncomp 1 with chunkFill := 0, chunkBuf := [] } }

/-- TERMINAL, between commands. -/
def terminated : State := { State.reset with regs := { base with state := .terminal } }

/-- A fault, between commands. -/
def faulted : State := { State.reset with regs := { base with fault := some .invalidCode } }

theorem inPreamble_inv : inPreamble.Inv := inv_of_check (by decide +kernel)
theorem inAwait_inv : inAwait.Inv := inv_of_check (by decide +kernel)
theorem inVerbatim_inv : inVerbatim.Inv := inv_of_check (by decide +kernel)
theorem inAligned_inv : inAligned.Inv := inv_of_check (by decide +kernel)
theorem inUncomp_inv : inUncomp.Inv := inv_of_check (by decide +kernel)
theorem fullChunk_inv : fullChunk.Inv := inv_of_check (by decide +kernel)
theorem atEnd_inv : atEnd.Inv := inv_of_check (by decide +kernel)
theorem atEmptyEnd_inv : atEmptyEnd.Inv := inv_of_check (by decide +kernel)
theorem betweenChunks_inv : betweenChunks.Inv := inv_of_check (by decide +kernel)
theorem terminated_inv : terminated.Inv := inv_of_check (by decide +kernel)
theorem faulted_inv : faulted.Inv := inv_of_check (by decide +kernel)

theorem beforePad_inv : beforePad.Inv :=
  inv_inside (by decide +kernel) rfl rfl (by decide +kernel)
    ⟨rfl, ok_of_check (by decide +kernel), rfl, rfl, by decide +kernel, rfl⟩

theorem beforeLastOp_inv : beforeLastOp.Inv :=
  inv_inside (by decide +kernel) rfl rfl (by decide +kernel)
    ⟨⟨⟨rfl, ok_of_check (by decide +kernel), by decide, rfl⟩, .inl rfl,
      fun _ => ⟨rfl, built_of_check (by decide +kernel)⟩, by decide +kernel⟩, rfl, by decide, by decide⟩

theorem beforeAligned_inv : beforeAligned.Inv :=
  inv_inside (by decide +kernel) rfl rfl (by decide +kernel) ⟨⟨.inr rfl, rfl, by decide +kernel⟩, rfl, by decide⟩

/-- Each kind of state that a step inside a NEXT_CHUNK starts from, with what that step does: the preamble is read, an
all-zero type faults, a literal is emitted, a tree without codes faults, a raw byte leaves a pad byte or ends its block, the pad byte ends it, the last op of
a header begins the block, a full chunk is returned, and the stream ends with a Chunk or with None. -/
theorem witness_steps :
    (∃ t, step inPreamble = .next t ∧ (t.running && t.regs.state == .await) = true)
      ∧ (∃ t, step inAwait = .next t ∧ (t.results == [.error .invalidBlockType]) = true)
      ∧ (∃ t, step inVerbatim = .next t ∧ (t.regs.chunkBuf == [1, 2, 0x41] && t.regs.bitpos == 17) = true)
      ∧ (∃ t, step inAligned = .next t ∧ (t.results == [.error .invalidCode]) = true)
      ∧ (∃ t, step inUncomp = .next t ∧ (t.running && t.regs.state == .await && t.regs.bitpos == 32) = true)
      ∧ (∃ t, step beforePad = .next t ∧ (t.running && t.regs.state == .await && t.regs.bitpos == 32) = true)
      ∧ (∃ t, step beforeLastOp = .next t ∧ (t.running && t.regs.state == .verbatim && t.regs.remaining == 3) = true)
      ∧ (∃ t, step fullChunk = .next t ∧ (t.results == [.chunk [1, 2]] && t.regs.bitpos == 32) = true)
      ∧ (∃ t, step atEnd = .next t ∧ (t.results == [.chunk [1, 2]] && t.regs.state == .terminal) = true)
      ∧ ∃ t, step atEmptyEnd = .next t ∧ (t.results == [.none] && t.regs.state == .terminal) = true :=
  ⟨next_of (by decide +kernel), next_of (by decide +kernel), next_of (by decide +kernel), next_of (by decide +kernel),
    next_of (by decide +kernel), next_of (by decide +kernel), next_of (by decide +kernel), next_of (by decide +kernel),
    next_of (by decide +kernel), next_of (by decide +kernel)⟩

/-- Valid parameters at the ends of their ranges. -/
def edge : Params :=
  { Params.defaults with
    chunkSize := 1, alignedLenBits := 4, pt17Bits := 4, mainTreeParts := 1, rep2Policy := .swap, numLengthSymbols := 1 }

theorem witness_NewResetsEveryElement :
    (⟨0, [], Params.defaults⟩ : Config).valid = true
      ∧ (⟨6, [1], edge⟩ : Config).valid = true := by decide

/-- The conditions under which NEW refuses, as Obligations.NewChecksItsConfiguration states them. -/
abbrev bad (code : Nat) (params : Params) : Prop :=
  6 < code ∨ params.chunkSize = 0 ∨ (params.pt17Bits ≠ 3 ∧ params.pt17Bits ≠ 4)
    ∨ (params.rep2Policy ≠ .rotate ∧ params.rep2Policy ≠ .swap)
    ∨ (params.mainTreeParts ≠ 1 ∧ params.mainTreeParts ≠ 2) ∨ params.numLengthSymbols = 0
    ∨ params.alignedLenBits < 1 ∨ 4 < params.alignedLenBits

theorem witness_NewChecksItsConfiguration :
    bad 7 edge ∧ bad 0 { edge with chunkSize := 0 } ∧ bad 0 { edge with pt17Bits := 2 } ∧ bad 0 { edge with pt17Bits := 5 }
      ∧ bad 0 { edge with rep2Policy := .other } ∧ bad 0 { edge with mainTreeParts := 0 }
      ∧ bad 0 { edge with mainTreeParts := 3 } ∧ bad 0 { edge with numLengthSymbols := 0 }
      ∧ bad 0 { edge with alignedLenBits := 0 } ∧ bad 0 { edge with alignedLenBits := 5 }
      ∧ ¬ bad 0 Params.defaults ∧ ¬ bad 6 edge ∧ ¬ bad 6 { edge with alignedLenBits := 1 } := by
  refine ⟨?_, ?_, ?_, ?_, ?_, ?_, ?_, ?_, ?_, ?_, ?_, ?_, ?_⟩ <;> decide

/-- The state that a refused NEW leaves meets the premises of its NEXT_CHUNK clause. -/
theorem witness_NewChecksItsConfiguration_next :
    ∃ t, exec (.new 7 [] Params.defaults) State.reset = .next t
      ∧ (decide (t.regs = { freshRegs ⟨7, [], Params.defaults⟩ with fault := some .invalidConfig }) && !t.running) = true :=
  next_of (by decide +kernel)

theorem witness_NextChunkBegins :
    (faulted.running = false ∧ faulted.regs.fault = some .invalidCode)
      ∧ (terminated.running = false ∧ terminated.regs.fault = none ∧ terminated.regs.state = .terminal)
      ∧ (State.reset.running = false ∧ State.reset.regs.fault = none ∧ State.reset.regs.state ≠ .terminal) := by decide

theorem witness_FullChunkIsReturned :
    (fullChunk.running = true ∧ fullChunk.work = none ∧ fullChunk.regs.fault = none
        ∧ fullChunk.regs.chunkFill = fullChunk.cfg.params.chunkSize)
      ∧ fullChunk.cfg.params.chunkRealign = true ∧ fullChunk.regs.state = .verbatim := by decide +kernel

theorem witness_ResultsOfNextChunk :
    (inVerbatim.Inv ∧ inVerbatim.running = true ∧ ∃ t, step inVerbatim = .next t ∧ t.running = true)
      ∧ (fullChunk.Inv ∧ fullChunk.running = true ∧ ∃ t, step fullChunk = .next t ∧ (!t.running) = true)
      ∧ (atEmptyEnd.Inv ∧ atEmptyEnd.running = true ∧ ∃ t, step atEmptyEnd = .next t ∧ (!t.running) = true)
      ∧ (inAwait.Inv ∧ inAwait.running = true ∧ ∃ t, step inAwait = .next t ∧ t.regs.fault.isSome = true) :=
  ⟨⟨inVerbatim_inv, rfl, next_of (by decide +kernel)⟩, ⟨fullChunk_inv, rfl, next_of (by decide +kernel)⟩,
    ⟨atEmptyEnd_inv, rfl, next_of (by decide +kernel)⟩, ⟨inAwait_inv, rfl, next_of (by decide +kernel)⟩⟩

theorem witness_QuiescentStateStays :
    (terminated.Inv ∧ terminated.regs.state = .terminal) ∧ (faulted.Inv ∧ faulted.regs.fault ≠ none) :=
  ⟨⟨terminated_inv, rfl⟩, faulted_inv, by decide⟩

theorem witness_FaultsAreSticky :
    (faulted.Inv ∧ faulted.regs.fault = some .invalidCode) ∧ (⟨0, [], Params.defaults⟩ : Config).valid = true
      ∧ ∃ t, exec .nextChunk faulted = .next t ∧ true = true :=
  ⟨⟨faulted_inv, rfl⟩, by decide, next_of (by decide +kernel)⟩

theorem witness_StepRunsTheDecodedInstruction :
    (∃ c ph i p, beforeLastOp.running = true ∧ beforeLastOp.work = some ⟨c, ph⟩
        ∧ decode beforeLastOp.cfg (formatOf c ph) c.bitpos = .ok (i, p))
      ∧ (∃ i p, inVerbatim.running = true ∧ inVerbatim.work = none ∧ inVerbatim.regs.fault = none
        ∧ inVerbatim.regs.chunkFill ≠ inVerbatim.cfg.params.chunkSize
        ∧ beginStep inVerbatim.cfg inVerbatim.regs = .element .mainSym
        ∧ decode inVerbatim.cfg (formatOf inVerbatim.regs .mainSym) inVerbatim.regs.bitpos = .ok (i, p))
      ∧ (State.reset.running = false
        ∧ ({ State.reset with port := [.nextChunk] } : State).port = .nextChunk :: []) :=
  ⟨⟨_, _, .ptDelta 0, 41, rfl, rfl, ok_of_got (by decide +kernel)⟩,
    ⟨.lit 0x41, 17, rfl, rfl, rfl, by decide +kernel, by decide +kernel, ok_of_got (by decide +kernel)⟩, rfl, rfl⟩

/-- A header past the end of the input inside a Step, and a main symbol at a Step boundary whose tree has no codes. -/
theorem witness_FailedReadTakesItsFault :
    let c := (freshRegs (tiny [])).at 64
    let s : State := { inAwait with work := some ⟨c, .header⟩ }
    (s.running = true ∧ s.work = some ⟨c, .header⟩
        ∧ decode s.cfg (formatOf c .header) c.bitpos = .error (.fault .inputExhausted))
      ∧ (inAligned.running = true ∧ inAligned.work = none ∧ inAligned.regs.fault = none
        ∧ inAligned.regs.chunkFill ≠ inAligned.cfg.params.chunkSize
        ∧ beginStep inAligned.cfg inAligned.regs = .element .mainSym
        ∧ decode inAligned.cfg (formatOf inAligned.regs .mainSym) inAligned.regs.bitpos = .error (.fault .invalidCode)) :=
  ⟨⟨rfl, rfl, error_of_stop (by decide +kernel)⟩,
    ⟨rfl, rfl, rfl, by decide +kernel, by decide +kernel, error_of_stop (by decide +kernel)⟩⟩

theorem witness_StepsThatReadNothing :
    let empty : State := atBoundary (tiny []) (freshRegs (tiny []))
    let plain : State :=
      atBoundary (session { Params.defaults with preambleE8 := false } [0, 0]) (freshRegs (tiny []))
    (empty.running = true ∧ empty.work = none ∧ empty.regs.fault = none ∧ empty.regs.chunkFill ≠ empty.cfg.params.chunkSize
        ∧ empty.regs.state = .preamble ∧ empty.cfg.avail = 0)
      ∧ (plain.running = true ∧ plain.work = none ∧ plain.regs.fault = none
        ∧ plain.regs.chunkFill ≠ plain.cfg.params.chunkSize ∧ plain.regs.state = .preamble ∧ plain.cfg.avail ≠ 0
        ∧ plain.cfg.params.preambleE8 = false)
      ∧ (atEnd.running = true ∧ atEnd.work = none ∧ atEnd.regs.fault = none
        ∧ atEnd.regs.chunkFill ≠ atEnd.cfg.params.chunkSize ∧ atEnd.regs.state = .await
        ∧ atEnd.cfg.avail ≤ roundup atEnd.regs.bitpos 16 ∧ 0 < atEnd.regs.chunkFill) := by decide +kernel

theorem witness_ReadBitsTakesTheNextBits :
    let g := session Params.defaults [0x34, 0x12, 0x78]
    (1 ≤ 1 ∧ 1 ≤ 16 ∧ g.avail < 16 + 1) ∧ (1 ≤ 1 ∧ 15 + 1 ≤ g.avail) ∧ (16 ≤ 16 ∧ 0 + 16 ≤ g.avail ∧ 0 % 16 = 0)
      ∧ g.avail < 1 + 16 := by decide

theorem witness_ReadFieldIsOneNumber :
    let g := session Params.defaults (List.replicate 6 0)
    0 ≤ 32 ∧ (32 ≠ 0 ∧ 32 ≤ 32 ∧ g.avail < 17 + 32) ∧ (32 ≠ 0 ∧ 16 + 32 ≤ g.avail ∧ 1 ≤ 16 ∧ 16 < 32 ∧ 16 ≤ 16 ∧ 32 - 16 ≤ 16)
      ∧ (1 ≠ 0 ∧ 47 + 1 ≤ g.avail) ∧ (2 ≠ 0 ∧ 46 + 2 ≤ g.avail ∧ 1 ≤ 1 ∧ 1 < 2 ∧ 1 ≤ 16 ∧ 2 - 1 ≤ 16) := by decide

theorem witness_AlignmentAndInputDone :
    let g := session Params.defaults [0, 0]
    (16 % 16 = 0 ∧ 1 ≤ 16) ∧ (32 % 32 = 0 ∧ 16 ≤ 32) ∧ (48 % 16 = 0 ∧ 32 % 16 = 0)
      ∧ (inputDone g 0 = false ∧ ∃ w, 0 ≤ 16 * w ∧ 16 * w + 16 ≤ g.avail) ∧ (inputDone g 1 = true ∧ g.avail ≤ roundup 1 16) :=
  ⟨by decide, by decide, by decide, ⟨by decide, 0, by decide, by decide⟩, by decide⟩

theorem witness_RawReadsAreMemoryReads :
    let g := session Params.defaults [0x34, 0x12, 0x78, 0x56]
    4 % 8 ≠ 0 ∧ 24 % 8 = 0 ∧ g.len < 4 + 1 ∧ g.len < 1 + 4 ∧ 3 + 1 ≤ g.len ∧ 0 + 4 ≤ g.len := by decide

theorem witness_BitViewOfAWord :
    0 < 8 ∧ 7 < 8 ∧ 2 * 1 < (session Params.defaults [0x34, 0x12, 0x78]).len := by decide

theorem witness_BuildAcceptsByKraftSum :
    ((∀ l ∈ [1, 1, 16], l ≤ 16) ∧ 2 ^ 16 < (([1, 1, 16].filter fun l => l ≠ 0).map fun l => 2 ^ (16 - l)).sum)
      ∧ ((∀ l ∈ [1, 0, 1], l ≤ 16) ∧ (([1, 0, 1].filter fun l => l ≠ 0).map fun l => 2 ^ (16 - l)).sum ≤ 2 ^ 16)
      ∧ (([] : List Nat).map fun l => 2 ^ (16 - l)).sum ≤ 2 ^ 16 := by decide

/-- H1: lengths 2, 1, 3, 3, with two codes of different length and two of one length. -/
theorem witness_BuildAssignsCanonicalCodes :
    let t : Tree := ⟨[⟨2, 2, 0⟩, ⟨1, 0, 1⟩, ⟨3, 6, 2⟩, ⟨3, 7, 3⟩], 3⟩
    (∀ l ∈ [2, 1, 3, 3], l ≤ 16) ∧ buildTree [2, 1, 3, 3] = .ok t ∧ (3 < 4 ∧ [2, 1, 3, 3].getD 3 0 ≠ 0)
      ∧ (⟨3, 6, 2⟩ ∈ t.codes ∧ ⟨3, 7, 3⟩ ∈ t.codes ∧ (⟨3, 6, 2⟩ : Code) ≠ ⟨3, 7, 3⟩ ∧ 3 ≤ 3) ∧ 1 ≤ 1 :=
  ⟨by decide, ok_of_got (by decide +kernel), by decide, by decide, by decide⟩

/-- Bits stand at a position, decided. -/
theorem stands_bits {g : Config} {pos : Nat} {bs : List Bool}
    (h : ((List.range bs.length).all fun k => decide (pos + k < g.avail) && (g.bit (pos + k) == bs.getD k false)) = true) :
    (Encoding.bits bs).standsAt g pos := by
  intro k hk
  have := List.all_eq_true.mp h k (List.mem_range.mpr hk)
  simp only [Bool.and_eq_true, decide_eq_true_eq, beq_iff_eq] at this
  exact ⟨this.1, by rw [this.2, List.getD_eq_getElem?_getD, List.getElem?_eq_getElem hk]; rfl⟩

/-- Bytes stand at a position, decided. -/
theorem stands_bytes {g : Config} {pos : Nat} {bs : List Byte}
    (h : (decide (pos % 8 = 0 ∧ pos / 8 + bs.length ≤ g.len)
      && (List.range bs.length).all fun k => g.byteAt (pos / 8 + k) == bs.getD k 0) = true) :
    (Encoding.bytes bs).standsAt g pos := by
  simp only [Bool.and_eq_true, decide_eq_true_eq] at h
  refine ⟨h.1.1, h.1.2, fun k hk => ?_⟩
  have := List.all_eq_true.mp h.2 k (List.mem_range.mpr hk)
  rw [eq_of_beq this, List.getD_eq_getElem?_getD, List.getElem?_eq_getElem hk]
  rfl

/-- H2, H5, H6 and the end of the stream. -/
theorem witness_DecodeFindsTheCodeAtTheCursor :
    let stands := fun (g : Config) (pos : Nat) (e : Code) => (Encoding.bits (fieldBits e.code e.len)).standsAt g pos
    (buildTree [2, 1, 3, 3] = .ok ⟨[⟨2, 2, 0⟩, ⟨1, 0, 1⟩, ⟨3, 6, 2⟩, ⟨3, 7, 3⟩], 3⟩ ∧ (∀ l ∈ [2, 1, 3, 3], l ≤ 16)
        ∧ stands (session Params.defaults [0x00, 0xc0]) 0 ⟨3, 6, 2⟩)
      ∧ (buildTree [0, 0] = .ok ⟨[], 0⟩ ∧ (⟨[], 0⟩ : Tree).lmax = 0)
      ∧ (buildTree [0, 1] = .ok ⟨[⟨1, 0, 1⟩], 1⟩ ∧ ¬ stands (session Params.defaults [0x00, 0x80]) 0 ⟨1, 0, 1⟩
        ∧ 0 + 1 ≤ (session Params.defaults [0x00, 0x80]).avail)
      ∧ (¬ stands (session Params.defaults [0x00, 0x80]) 16 ⟨1, 0, 1⟩
        ∧ (session Params.defaults [0x00, 0x80]).avail < 16 + 1) := by
  refine ⟨⟨ok_of_got (by decide +kernel), by decide, ?_⟩, ⟨ok_of_got (by decide +kernel), rfl⟩,
    ⟨ok_of_got (by decide +kernel), ?_, by decide⟩, ?_, by decide⟩
  · exact stands_bits (by decide +kernel)
  · intro h
    exact absurd (h 0 (by decide)).2 (by decide +kernel)
  · intro h
    exact absurd (h 0 (by decide)).1 (by decide +kernel)

/-- The tree of H8 as a pretree. -/
theorem treeH8_over : treeOver pretreeSymbols treeH8 :=
  ⟨[2, 0, 0, 0, 0, 0, 0, 0, 0, 0, 0, 0, 0, 0, 0, 0, 3, 3, 1, 0], _, rfl, by decide, ok_of_got (by decide +kernel), rfl⟩

/-- A coded element with a field, an element of raw bytes, and an element without bits. -/
theorem witness_DecodeOfEncode :
    (g0.valid = true ∧ (Format.ptOp treeH8).fits g0 ∧ wellFormed g0 (.ptZrun4 7) = true
        ∧ encode g0 (.ptOp treeH8) (.ptZrun4 7) = some (.bits [true, true, true, true, true, true])
        ∧ (Encoding.bits [true, true, true, true, true, true]).standsAt (session Params.defaults [0x00, 0xfc]) 0)
      ∧ (Format.raw.fits g0 ∧ wellFormed g0 (.raw 0x12) = true ∧ encode g0 .raw (.raw 0x12) = some (.bytes [0x12])
        ∧ (Encoding.bytes [0x12]).standsAt (session Params.defaults [0x34, 0x12]) 8)
      ∧ ((Format.footerA 3).fits g0 ∧ wellFormed g0 (.footerHi 0) = true
        ∧ encode g0 (.footerA 3) (.footerHi 0) = some (.bits []) ∧ (Encoding.bits []).standsAt g0 5) := by
  refine ⟨⟨by decide, treeH8_over, by decide, by decide +kernel, ?_⟩,
    ⟨trivial, by decide, by decide, ?_⟩, by unfold Format.fits; decide, by decide, by decide +kernel, ?_⟩
  · exact stands_bits (by decide +kernel)
  · exact stands_bytes (by decide +kernel)
  · intro k hk
    exact absurd hk (by simp)

theorem witness_EncodeOfDecode :
    let g := session Params.defaults [0x00, 0xfc]
    g.valid = true ∧ (Format.ptOp treeH8).fits g ∧ decode g (.ptOp treeH8) 0 = .ok (.ptZrun4 7, 6) :=
  ⟨by decide, treeH8_over, ok_of_got (by decide +kernel)⟩

/-- A state inside a Step of the session `tiny`. -/
def inTiny (c : Regs) (ph : Phase) : State := inStep (tiny zeros8) c ph

theorem witness_PreambleSetsTheTranslationRegisters :
    (inTiny (freshRegs (tiny [])) .preamble).work = some ⟨freshRegs (tiny []), .preamble⟩ := rfl

/-- Also for IllegalHeadersFault. -/
theorem witness_CompressedHeadersGoOn :
    (inTiny (freshRegs (tiny [])) .header).work = some ⟨freshRegs (tiny []), .header⟩ ∧ (1 : U24) ≠ 0 ∧ (0xffffff : U24) ≠ 0 :=
  ⟨rfl, by decide, by decide⟩

/-- The cursor off a word boundary, on one with a whole word left, and on one at the end of the input. -/
theorem witness_UncompressedHeaderAligns :
    let s : Nat → State := fun p =>
      inStep (session { Params.defaults with uncompPad16IfAligned := true } [0, 0]) ((freshRegs (tiny [])).at p) .header
    let skip : Nat → Prop := fun p => (s p).cfg.params.uncompPad16IfAligned = true ∧ p % 16 = 0
    (∀ p, (s p).work = some ⟨(freshRegs (tiny [])).at p, .header⟩) ∧ (1 : U24) ≠ 0
      ∧ ¬ skip 15 ∧ (skip 0 ∧ 0 + 16 ≤ (s 0).cfg.avail) ∧ (skip 16 ∧ (s 16).cfg.avail < 16 + 16) :=
  ⟨fun _ => rfl, by decide, fun h => absurd h.2 (by decide), ⟨⟨rfl, rfl⟩, by decide⟩, ⟨rfl, rfl⟩, by decide⟩

theorem witness_IllegalHeadersFault :
    (inTiny (freshRegs (tiny [])) .header).work = some ⟨freshRegs (tiny []), .header⟩ := rfl

/-- A Kraft sum of exactly 2^16, one above it, a range with entries and the empty match range of a session without
position slots. -/
theorem witness_PretreeIsBuilt :
    let c := freshRegs (tiny [])
    let empty : State := inStep (session { Params.defaults with nslotsTable := [] } []) c (.pretree .mainMatches)
    ((inTiny c (.pretree .lengths)).work = some ⟨c, .pretree .lengths⟩
        ∧ kraft (([1, 1] ++ List.replicate 18 0 : List (BitVec 4)).map BitVec.toNat) ≤ 2 ^ 16
        ∧ Target.lengths.first < Target.lengths.last (inTiny c (.pretree .lengths)).cfg)
      ∧ (empty.work = some ⟨c, .pretree .mainMatches⟩ ∧ Target.mainMatches.last empty.cfg ≤ Target.mainMatches.first)
      ∧ 2 ^ 16 < kraft (([1, 1, 15] ++ List.replicate 17 0 : List (BitVec 4)).map BitVec.toNat) :=
  ⟨⟨rfl, by decide, by decide⟩, ⟨rfl, by decide⟩, by decide⟩

/-- A working array of a header of the session `tiny`, read up to index i. -/
def reading (t : Target) (i : Nat) : State := inTiny { freshRegs (tiny []) with state := .await } (.ptOp t i)

theorem reading_ok : ({ freshRegs (tiny []) with state := .await } : Regs).Ok (tiny zeros8) :=
  ok_of_check (by decide +kernel)

/-- An entry before the range's last, and the last one. -/
theorem witness_PtDeltaUpdatesOneEntry :
    let c : Regs := { freshRegs (tiny []) with state := .await }
    ((reading .mainMatches 262).work = some ⟨c, .ptOp .mainMatches 262⟩ ∧ c.Ok (reading .mainMatches 262).cfg
        ∧ 262 < Target.mainMatches.last (reading .mainMatches 262).cfg
        ∧ 262 + 1 < Target.mainMatches.last (reading .mainMatches 262).cfg)
      ∧ ((reading .lengths 0).work = some ⟨c, .ptOp .lengths 0⟩ ∧ c.Ok (reading .lengths 0).cfg
        ∧ 0 < Target.lengths.last (reading .lengths 0).cfg ∧ 0 + 1 = Target.lengths.last (reading .lengths 0).cfg)
      ∧ 0 ≤ 16 ∧ 16 ≤ 16 :=
  ⟨⟨rfl, reading_ok, by decide, by decide⟩, ⟨rfl, reading_ok, by decide, by decide⟩, by decide⟩

/-- A run within the range, one that ends with it, and one that passes it by one entry. -/
theorem witness_ZeroRunsClearTheirEntries :
    let c : Regs := { freshRegs (tiny []) with state := .await }
    (∀ i, (reading .mainMatches i).work = some ⟨c, .ptOp .mainMatches i⟩ ∧ c.Ok (reading .mainMatches i).cfg)
      ∧ ((∃ z, Instr.ptZrun4 0 = .ptZrun4 z ∧ 4 = 4 + z.toNat)
        ∧ 259 + 4 < Target.mainMatches.last (reading .mainMatches 259).cfg
        ∧ 260 + 4 = Target.mainMatches.last (reading .mainMatches 260).cfg
        ∧ Target.mainMatches.last (reading .mainMatches 261).cfg < 261 + 4)
      ∧ ((∃ z, Instr.ptZrun20 31 = .ptZrun20 z ∧ 51 = 20 + z.toNat)
        ∧ 205 + 51 = Target.mainLiterals.last (reading .mainLiterals 205).cfg) :=
  ⟨fun _ => ⟨rfl, reading_ok⟩, ⟨⟨0, rfl, by decide⟩, by decide, by decide, by decide⟩, ⟨31, rfl, by decide⟩, by decide⟩

/-- The value symbols 16 and 17; runs within the range, up to its end and past it. -/
theorem witness_SameRunRepeatsOneLength :
    let c : Regs := { freshRegs (tiny []) with state := .await }
    (∀ i, (reading .mainMatches i).work = some ⟨c, .ptOp .mainMatches i⟩ ∧ c.Ok (reading .mainMatches i).cfg)
      ∧ (16 ≤ 16 ∧ 258 + (4 + (1 : BitVec 1).toNat) < Target.mainMatches.last (reading .mainMatches 258).cfg)
      ∧ 260 + (4 + (0 : BitVec 1).toNat) = Target.mainMatches.last (reading .mainMatches 260).cfg
      ∧ 16 < 17 ∧ Target.mainMatches.last (reading .mainMatches 260).cfg < 260 + (4 + (1 : BitVec 1).toNat) :=
  ⟨fun _ => ⟨rfl, reading_ok⟩, by decide, by decide, by decide, by decide⟩

theorem witness_FullRangesAreBuilt :
    buildTree (freshRegs (tiny [])).mainLen = .ok ⟨[], 0⟩ ∧ buildTree (freshRegs (tiny [])).lenLen = .ok ⟨[], 0⟩
      ∧ 2 ^ 16 < kraft ({ freshRegs (tiny []) with mainLen := [1, 1, 16] } : Regs).mainLen
      ∧ 2 ^ 16 < kraft ({ freshRegs (tiny []) with lenLen := [1, 1, 16] } : Regs).lenLen :=
  ⟨ok_of_got (by decide +kernel), ok_of_got (by decide +kernel), by decide, by decide⟩

theorem witness_AlignedTreeIsBuilt :
    (inTiny (freshRegs (tiny [])) .altree).work = some ⟨freshRegs (tiny []), .altree⟩
      ∧ kraft (([1, 1, 0, 0, 0, 0, 0, 0] : List (BitVec 4)).map BitVec.toNat) ≤ 2 ^ 16
      ∧ 2 ^ 16 < kraft (([1, 1, 7, 0, 0, 0, 0, 0] : List (BitVec 4)).map BitVec.toNat) := ⟨rfl, by decide, by decide⟩

/-- A step that keeps the arrays, and the one that ends a header. -/
theorem witness_LengthArraysPersist :
    (inVerbatim.Inv ∧ inVerbatim.running = true ∧ ∃ t, step inVerbatim = .next t ∧ true = true)
      ∧ (beforeLastOp.Inv ∧ beforeLastOp.running = true ∧ (∃ c, beforeLastOp.work = some ⟨c, .ptOp .lengths 0⟩)
        ∧ ∃ t, step beforeLastOp = .next t ∧ (t.regs.state == .verbatim) = true) :=
  ⟨⟨inVerbatim_inv, rfl, next_of (by decide +kernel)⟩, beforeLastOp_inv, rfl, ⟨_, rfl⟩, next_of (by decide +kernel)⟩

theorem witness_SlotAndWindowTables :
    (3 ≤ 3 ∧ 0 < 2 ^ footerBits 3) ∧ (3 ≤ 49 ∧ 2 ^ 17 - 1 < 2 ^ footerBits 49) ∧ 0 ≤ 6 ∧ 6 ≤ 6 := by decide

theorem witness_OffsetCacheRules :
    (session Params.defaults []).params.rep2Policy = .rotate ∧ (session edge []).params.rep2Policy = .swap
      ∧ 3 ≤ 3 ∧ (49 < 50 ∧ 2 ^ 17 - 1 < 2 ^ footerBits 49) ∧ (block .verbatim 6).Ok (tiny zeros8) :=
  ⟨rfl, rfl, by decide, by decide, ok_of_check (by decide +kernel)⟩

/-- A literal that ends its block, and one that does not. -/
theorem witness_LiteralEmitsItsByte :
    ((inTiny (block .verbatim 1) .mainSym).work = some ⟨block .verbatim 1, .mainSym⟩ ∧ (block .verbatim 1).state = .verbatim
        ∧ (block .verbatim 1).remaining - 1 = 0)
      ∧ (block .aligned 6).state = .aligned ∧ (block .aligned 6).remaining - 1 ≠ 0 := by decide +kernel

theorem block_ok : (block .verbatim 6).Ok (tiny zeros8) ∧ (block .aligned 6).Ok (tiny zeros8) :=
  ⟨ok_of_check (by decide +kernel), ok_of_check (by decide +kernel)⟩

/-- The whole history as the offset, the whole block and chunk as the length, and a source inside the match itself. -/
theorem witness_CopyRepeatsItsSource :
    (block .verbatim 6).Ok (tiny zeros8) ∧ matchFits (tiny zeros8) (block .verbatim 6) 2 6
      ∧ matchFits (tiny zeros8) (block .verbatim 6) 1 0 ∧ (5 < 6 ∧ 2 ≤ 5 ∧ 6 ≤ 5 + (tiny zeros8).capacity) ∧ ¬ 2 ≤ 1 :=
  ⟨block_ok.1, by unfold matchFits; decide +kernel, by unfold matchFits; decide +kernel, by decide, by decide⟩

/-- Offsets 0 and 3 with two bytes produced; one byte more than the block owes; one more than the chunk has room for. -/
theorem witness_MatchChecksInOrder :
    let s := inTiny (block .verbatim 6) .mainSym
    let off := matchOffset (block .verbatim 6) 0 0
    matchOffset ((block .verbatim 6).setCache 0 1 1) 0 0 < 1
      ∧ min (block .verbatim 6).produced s.cfg.capacity < matchOffset ((block .verbatim 6).setCache 3 1 1) 0 0
      ∧ (1 ≤ off ∧ off ≤ min (block .verbatim 6).produced s.cfg.capacity ∧ (block .verbatim 6).remaining.toNat < 7)
      ∧ (off ≤ min (block .verbatim 7).produced s.cfg.capacity ∧ 7 ≤ (block .verbatim 7).remaining.toNat
        ∧ s.cfg.params.chunkSize < (block .verbatim 7).chunkFill + 7) := by decide +kernel

theorem witness_RepeatMatchesComplete :
    let s := inTiny (block .verbatim 6) .mainSym
    let c := block .verbatim 6
    (s.work = some ⟨c, .mainSym⟩ ∧ c.Ok s.cfg ∧ c.state = .verbatim) ∧ (7 : BitVec 3) = 7
      ∧ ((4 : BitVec 3) ≠ 7 ∧ matchFits s.cfg c c.r0.toNat ((4 : BitVec 3).toNat + 2)
        ∧ matchFits s.cfg c c.r1.toNat ((4 : BitVec 3).toNat + 2) ∧ matchFits s.cfg c c.r2.toNat ((4 : BitVec 3).toNat + 2)) :=
  ⟨⟨rfl, block_ok.1, rfl⟩, rfl, by decide, by unfold matchFits; decide +kernel, by unfold matchFits; decide +kernel,
    by unfold matchFits; decide +kernel⟩

theorem witness_NewOffsetMatchGoesOn :
    (inTiny (block .verbatim 6) .mainSym).work = some ⟨block .verbatim 6, .mainSym⟩ ∧ 3 ≤ 3 := ⟨rfl, by decide⟩

/-- Registers with room for the longest length without an extension. -/
def roomy (x : BlockState) : Regs := { block x 6 with blockLen := 0xffffff, remaining := 0xffff00 }

/-- A session with extended lengths and the default chunk size. -/
def wide (ext : Bool) : Config :=
  session { Params.defaults with nslotsTable := [1], numLengthSymbols := 1, extLen := ext } []

theorem roomy_ok (ext : Bool) (x : BlockState) (h : x = .verbatim ∨ x = .aligned) : (roomy x).Ok (wide ext) := by
  cases ext <;> rcases h with rfl | rfl <;> exact ok_of_check (by decide +kernel)

theorem witness_LengthSymbolGivesTheLength :
    let c := roomy .verbatim
    let s : Bool → Nat → State := fun ext slot => inStep (wide ext) c (.lenSym slot)
    (∀ ext slot, (s ext slot).work = some ⟨c, .lenSym slot⟩ ∧ c.Ok (s ext slot).cfg) ∧ c.state = .verbatim
      ∧ 3 ≤ 3 ∧ (2 < 3 ∧ (s true 2).cfg.params.extLen = true ∧ 9 + 248 = 257)
      ∧ ((s false 2).cfg.params.extLen = false ∧ matchFits (s false 2).cfg c (matchOffset c 2 0) (9 + 248))
      ∧ (9 + 249 ≠ 257 ∧ matchFits (s true 0).cfg c (matchOffset c 0 0) (9 + 249)) :=
  ⟨fun ext _ => ⟨rfl, roomy_ok ext _ (.inl rfl)⟩, rfl, by decide, ⟨by decide, rfl, rfl⟩,
    ⟨rfl, by unfold matchFits; decide +kernel⟩, by decide, by unfold matchFits; decide +kernel⟩

theorem witness_VerbatimFooterGivesTheOffset :
    let c := roomy .verbatim
    let s : Bool → Nat → State := fun ext n => inStep (wide ext) c (.footerV 3 n)
    (∀ ext n, (s ext n).work = some ⟨c, .footerV 3 n⟩ ∧ c.Ok (s ext n).cfg) ∧ c.state = .verbatim
      ∧ (s true 257).cfg.params.extLen = true
      ∧ ((s false 257).cfg.params.extLen = false ∧ matchFits (s false 257).cfg c (matchOffset c 3 (0 : BitVec 17).toNat) 257)
      ∧ (256 ≠ 257 ∧ matchFits (s true 256).cfg c (matchOffset c 3 (0 : BitVec 17).toNat) 256) :=
  ⟨fun ext _ => ⟨rfl, roomy_ok ext _ (.inl rfl)⟩, rfl, rfl, ⟨rfl, by unfold matchFits; decide +kernel⟩, by decide,
    by unfold matchFits; decide +kernel⟩

/-- Registers of a block that has produced 30 bytes: as many as slot 8 reaches back with its least footers. -/
def longer : Regs := { (List.range 30).foldl (fun c _ => emitByte (wide true) c 7) (roomy .aligned) with mainTree := none }

theorem longer_ok (ext : Bool) : longer.Ok (wide ext) := by
  cases ext <;> exact ok_of_check (by decide +kernel)

/-- Slot 8 has an aligned symbol, slots 3 and 7 have none. -/
theorem witness_AlignedFooterGivesTheOffset :
    let c := longer
    let s : Bool → Phase → State := fun ext ph => inStep (wide ext) c ph
    (∀ ext ph, (s ext ph).work = some ⟨c, ph⟩ ∧ c.Ok (s ext ph).cfg) ∧ c.state = .aligned
      ∧ 3 ≤ footerBits 8 ∧ (footerBits 7 < 3 ∧ (wide true).params.extLen = true)
      ∧ (footerBits 3 < 3 ∧ (wide false).params.extLen = false
        ∧ matchFits (wide false) c (matchOffset c 3 (0 : BitVec 17).toNat) 257)
      ∧ (matchFits (wide false) c (matchOffset c 8 (0 * 8 + (7 : BitVec 3).toNat)) 257)
      ∧ (256 ≠ 257 ∧ matchFits (wide true) c (matchOffset c 8 (0 * 8 + (0 : BitVec 3).toNat)) 256) :=
  ⟨fun ext _ => ⟨rfl, longer_ok ext⟩, rfl, by decide, ⟨by decide, rfl⟩,
    ⟨by decide, rfl, by unfold matchFits; decide +kernel⟩, by unfold matchFits; decide +kernel, by decide,
    by unfold matchFits; decide +kernel⟩

theorem witness_ExtendedLengthsAreAdded :
    let c := longer
    let s : State := inStep (wide true) c (.extLen 0 257 0)
    (s.work = some ⟨c, .extLen 0 257 0⟩ ∧ c.Ok s.cfg ∧ c.state = .aligned)
      ∧ ((∃ x, Instr.extLen0 0xff = .extLen0 x ∧ 255 = x.toNat) ∧ matchFits s.cfg c (matchOffset c 0 0) (257 + 255))
      ∧ ((∃ x, Instr.extLen10 0 = .extLen10 x ∧ 256 = x.toNat + 0x100) ∧ matchFits s.cfg c (matchOffset c 0 0) (257 + 256))
      ∧ ((∃ x, Instr.extLen110 0 = .extLen110 x ∧ 1280 = x.toNat + 0x500)
        ∧ matchFits s.cfg c (matchOffset c 0 0) (257 + 1280))
      ∧ ((∃ x, Instr.extLen111 0x7000 = .extLen111 x ∧ 28672 = x.toNat) ∧ matchFits s.cfg c (matchOffset c 0 0) (257 + 28672)) :=
  ⟨⟨rfl, longer_ok true, rfl⟩, ⟨⟨_, rfl, by decide⟩, by unfold matchFits; decide +kernel⟩,
    ⟨⟨_, rfl, by decide⟩, by unfold matchFits; decide +kernel⟩, ⟨⟨_, rfl, by decide⟩, by unfold matchFits; decide +kernel⟩,
    ⟨_, rfl, by decide⟩, by unfold matchFits; decide +kernel⟩

theorem witness_UncompressedHeaderLoadsTheCache :
    (inTiny (freshRegs (tiny [])) .uncompR).work = some ⟨freshRegs (tiny []), .uncompR⟩ := rfl

/-- A byte inside the block, the last one before a pad byte, the last one at a word boundary, and the pad byte. -/
theorem witness_RawBytesEndTheirBlock :
    let c : Nat → Nat → Regs := fun left p => (block .uncomp left).at p
    (∀ left p, (inTiny (c left p) .raw).work = some ⟨c left p, .raw⟩ ∧ (c left p).state = .uncomp)
      ∧ (c 2 24).remaining - 1 ≠ 0
      ∧ ((c 1 24).remaining - 1 = 0 ∧ (c 1 24).bitpos < min (roundup (c 1 24).bitpos 16) (8 * (tiny zeros8).len))
      ∧ ¬ (c 1 32).bitpos < min (roundup (c 1 32).bitpos 16) (8 * (tiny zeros8).len)
      ∧ (inTiny (c 0 24) .oddPad).work = some ⟨c 0 24, .oddPad⟩ :=
  ⟨fun _ _ => ⟨rfl, rfl⟩, by decide +kernel, by decide +kernel, by decide +kernel, rfl⟩

/-- Every kind of state that witness_steps steps. -/
theorem witness_StepKeepsTheInvariant :
    (inPreamble.Inv ∧ ∃ t, step inPreamble = .next t ∧ true = true) ∧ (inAwait.Inv ∧ ∃ t, step inAwait = .next t ∧ true = true)
      ∧ (inVerbatim.Inv ∧ ∃ t, step inVerbatim = .next t ∧ true = true)
      ∧ (inAligned.Inv ∧ ∃ t, step inAligned = .next t ∧ true = true)
      ∧ (inUncomp.Inv ∧ ∃ t, step inUncomp = .next t ∧ true = true)
      ∧ (beforePad.Inv ∧ ∃ t, step beforePad = .next t ∧ true = true)
      ∧ (beforeLastOp.Inv ∧ ∃ t, step beforeLastOp = .next t ∧ true = true)
      ∧ (beforeAligned.Inv ∧ ∃ t, step beforeAligned = .next t ∧ true = true) :=
  ⟨⟨inPreamble_inv, next_of (by decide +kernel)⟩, ⟨inAwait_inv, next_of (by decide +kernel)⟩,
    ⟨inVerbatim_inv, next_of (by decide +kernel)⟩, ⟨inAligned_inv, next_of (by decide +kernel)⟩,
    ⟨inUncomp_inv, next_of (by decide +kernel)⟩, ⟨beforePad_inv, next_of (by decide +kernel)⟩,
    ⟨beforeLastOp_inv, next_of (by decide +kernel)⟩, beforeAligned_inv, next_of (by decide +kernel)⟩

theorem witness_RunningStepNeverStops :
    (inPreamble.Inv ∧ inPreamble.running = true) ∧ (beforePad.Inv ∧ beforePad.running = true)
      ∧ (beforeAligned.Inv ∧ beforeAligned.running = true) :=
  ⟨⟨inPreamble_inv, rfl⟩, ⟨beforePad_inv, rfl⟩, beforeAligned_inv, rfl⟩

/-- Between commands: after reset, in TERMINAL, and with a fault. -/
theorem witness_EveryNextChunkEnds :
    (State.reset.Inv ∧ State.reset.running = false) ∧ (terminated.Inv ∧ terminated.running = false)
      ∧ (faulted.Inv ∧ faulted.running = false) :=
  ⟨⟨inv_of_check (by decide +kernel), rfl⟩, ⟨terminated_inv, rfl⟩, faulted_inv, rfl⟩

theorem witness_FaultCommitsNothing :
    inAwait.Inv ∧ inAwait.running = true ∧ ∃ t, step inAwait = .next t ∧ t.regs.fault.isSome = true :=
  ⟨inAwait_inv, rfl, next_of (by decide +kernel)⟩

/-- One state for each transition: to AWAIT from PREAMBLE, a header's end, a block's end, the end of the stream. -/
theorem witness_StateGraph :
    (inPreamble.Inv ∧ inPreamble.running = true ∧ ∃ t, step inPreamble = .next t ∧ (t.regs.state == .await) = true)
      ∧ (beforeLastOp.Inv ∧ ∃ t, step beforeLastOp = .next t ∧ (t.regs.state == .verbatim && t.regs.remaining == 3) = true)
      ∧ (inUncomp.Inv ∧ ∃ t, step inUncomp = .next t ∧ (t.regs.state == .await && t.regs.remaining == 0) = true)
      ∧ (atEnd.Inv ∧ ∃ t, step atEnd = .next t ∧ (t.regs.state == .terminal) = true) :=
  ⟨⟨inPreamble_inv, rfl, next_of (by decide +kernel)⟩, ⟨beforeLastOp_inv, next_of (by decide +kernel)⟩,
    ⟨inUncomp_inv, next_of (by decide +kernel)⟩, atEnd_inv, next_of (by decide +kernel)⟩

/-- A step of a NEXT_CHUNK, and a NEW. -/
theorem witness_ConfigurationIsFixed :
    (∃ t, step inVerbatim = .next t ∧ true = true)
      ∧ ∃ t, step { State.reset with port := [.new 1 [0x34] Params.defaults] } = .next t ∧ (t.cfg.windowCode == 1) = true :=
  ⟨next_of (by decide +kernel), next_of (by decide +kernel)⟩

theorem witness_CursorNeverGoesBack :
    (inVerbatim.Inv ∧ inVerbatim.Forward ∧ inVerbatim.running = true ∧ ∃ t, step inVerbatim = .next t ∧ true = true)
      ∧ (beforePad.Inv ∧ beforePad.Forward ∧ beforePad.running = true ∧ ∃ t, step beforePad = .next t ∧ true = true) := by
  refine ⟨⟨inVerbatim_inv, fun w hw => ?_, rfl, next_of (by decide +kernel)⟩,
    ⟨beforePad_inv, fun w hw => ?_, rfl, next_of (by decide +kernel)⟩⟩
  · cases hw
  · cases hw
    decide +kernel

/-- Two bytes produced and pending, and the same as a full chunk. -/
theorem witness_WindowHoldsTheOutput :
    (inVerbatim.Inv ∧ inVerbatim.History ∧ ∃ t, step inVerbatim = .next t ∧ true = true)
      ∧ (fullChunk.Inv ∧ fullChunk.History ∧ ∃ t, step fullChunk = .next t ∧ true = true) := by
  have two : ∀ (g : Config) (c : Regs), c.hist g = 2 → (∃ b, winRead c.win (behind g c.wpos 1) = some b ∧ ([1, 2] : List Byte)[1]? = some b) →
      (∃ b, winRead c.win (behind g c.wpos 2) = some b ∧ ([1, 2] : List Byte)[0]? = some b) → c.produced = 2 → historyOk g [1, 2] c := by
    intro g c hh h1 h2 hp
    refine ⟨hp.symm, fun d hd hd' => ?_⟩
    rw [hh] at hd'
    obtain rfl | rfl : d = 1 ∨ d = 2 := by omega
    · exact h1
    · exact h2
  refine ⟨⟨inVerbatim_inv, fun _ => ⟨two _ _ (by decide +kernel) ⟨2, by decide +kernel⟩ ⟨1, by decide +kernel⟩ rfl,
      fun w hw => by cases hw⟩, next_of (by decide +kernel)⟩,
    ⟨fullChunk_inv, fun _ => ⟨two _ _ (by decide +kernel) ⟨2, by decide +kernel⟩ ⟨1, by decide +kernel⟩ rfl,
      fun w hw => by cases hw⟩, next_of (by decide +kernel)⟩⟩

theorem witness_TranslationRegistersAreNotRead :
    inVerbatim.running = true ∧ inVerbatim.regs.state ≠ .preamble ∧ inVerbatim.work = none
      ∧ ∃ t, step inVerbatim = .next t ∧ true = true := ⟨rfl, by decide, rfl, next_of (by decide +kernel)⟩

/-- Also for MainItemIsTheSpecsMainStep and HeaderIsTheSpecsAwaitStep. -/
theorem witness_ShortStepsAreTheSpecs :
    (inPreamble.Inv ∧ inPreamble.running = true ∧ inPreamble.work = none
        ∧ inPreamble.regs.chunkFill ≠ inPreamble.cfg.params.chunkSize ∧ inPreamble.regs.state = .preamble)
      ∧ (inUncomp.Inv ∧ inUncomp.running = true ∧ inUncomp.work = none
        ∧ inUncomp.regs.chunkFill ≠ inUncomp.cfg.params.chunkSize ∧ inUncomp.regs.state = .uncomp) :=
  ⟨⟨inPreamble_inv, rfl, rfl, by decide, rfl⟩, inUncomp_inv, rfl, rfl, by decide, rfl⟩

theorem witness_MainItemIsTheSpecsMainStep :
    (inVerbatim.Inv ∧ inVerbatim.running = true ∧ inVerbatim.work = none
        ∧ inVerbatim.regs.chunkFill ≠ inVerbatim.cfg.params.chunkSize ∧ inVerbatim.regs.state = .verbatim)
      ∧ (inAligned.Inv ∧ inAligned.running = true ∧ inAligned.work = none
        ∧ inAligned.regs.chunkFill ≠ inAligned.cfg.params.chunkSize ∧ inAligned.regs.state = .aligned) :=
  ⟨⟨inVerbatim_inv, rfl, rfl, by decide, rfl⟩, inAligned_inv, rfl, rfl, by decide, rfl⟩

theorem witness_HeaderIsTheSpecsAwaitStep :
    inAwait.Inv ∧ inAwait.running = true ∧ inAwait.work = none ∧ inAwait.regs.chunkFill ≠ inAwait.cfg.params.chunkSize
      ∧ inAwait.regs.state = .await := ⟨inAwait_inv, rfl, rfl, by decide, rfl⟩

/-- A first NEXT_CHUNK that ends the stream, one that faults, and one that hands back a chunk. -/
theorem witness_RunEndsByItsLastResult :
    (terminated.Inv ∧ terminated.running = false
        ∧ ∃ t, nextChunkCall terminated = .next t ∧ (t.results == [.none]) = true)
      ∧ (faulted.Inv ∧ faulted.running = false
        ∧ ∃ t, nextChunkCall faulted = .next t ∧ (t.results == [.error .invalidCode]) = true)
      ∧ (betweenChunks.Inv ∧ betweenChunks.running = false
        ∧ ∃ t, nextChunkCall betweenChunks = .next t ∧ (t.results == [.chunk [0x34]]) = true) :=
  ⟨⟨terminated_inv, rfl, next_of (by decide +kernel)⟩, ⟨faulted_inv, rfl, next_of (by decide +kernel)⟩,
    betweenChunks_inv, rfl, next_of (by decide +kernel)⟩

/-- R440: right after a refused NEW nothing has been handed back, so the run has not ended; the first NEXT_CHUNK ends it. -/
theorem test_refused_new_has_not_ended :
    let s : State := { State.reset with regs := { base with fault := some .invalidConfig } }
    ¬ endedAbnormally s ∧ ∃ t, exec .nextChunk s = .next t ∧ endedAbnormally t :=
  ⟨fun ⟨_, _, _, h⟩ => (by cases h), _, rfl, rfl, _, rfl, rfl⟩

end Sys2Proof.Tests
end

section
/-! PROOFS. What the fetch finds, and the step that runs it. -/

namespace Sys2Proof.Machine

/-- A running machine fetches the element that it reads next. -/
theorem fetch_of_reads {s : State} {c : Regs} {ph : Phase} (hrun : s.running = true) (hr : Reads s c ph) :
    fetch s = fetchElement s c ph := by
  unfold fetch
  rw [if_pos hrun]
  obtain hw | ⟨hw, rfl, hf, hc, hb⟩ := hr
  · rw [hw]
  · simp only [hw, fetchPass, hf, if_neg hc, hb, ne_eq, not_true_eq_false, if_false]

/-- An element that decodes is fetched with the cursor past its bits. -/
theorem fetchElement_of_decode_ok {s : State} {c : Regs} {ph : Phase} {i : Instr} {p : Nat}
    (hd : decode s.cfg (formatOf c ph) c.bitpos = .ok (i, p)) :
    fetchElement s c ph = .run i (s.working (c.at p) ph) := by
  rw [fetchElement, hd]

/-- Between commands the fetch takes the oldest command from the queue. -/
theorem fetch_of_port_cons {s : State} {cmd : Command} {rest : List Command} (hrun : s.running = false)
    (hp : s.port = cmd :: rest) : fetch s = .run cmd.instr { s with port := rest } := by
  simp only [fetch, hrun, fetchCommand, hp, Bool.false_eq_true, if_false]

/-- A step runs the instruction that the fetch finds. -/
theorem step_of_fetch_run {s t : State} {i : Instr} (h : fetch s = .run i t) : step s = exec i t := by
  rw [step, h]

/-- The element that a running machine reads next is run, when it decodes, on the working registers past its bits. -/
theorem step_of_reads {s : State} {c : Regs} {ph : Phase} {i : Instr} {p : Nat} (hrun : s.running = true)
    (hr : Reads s c ph) (hd : decode s.cfg (formatOf c ph) c.bitpos = .ok (i, p)) :
    step s = exec i (s.working (c.at p) ph) :=
  step_of_fetch_run ((fetch_of_reads hrun hr).trans (fetchElement_of_decode_ok hd))

end Sys2Proof.Machine

namespace Sys2Proof

open Machine

/-- Settles O8: both places of a Step are what `Reads` says, and a command is what the queue holds first. -/
theorem stepRunsTheDecodedInstruction : Obligations.StepRunsTheDecodedInstruction := by
  refine ⟨?inStep, ?atBoundary, ?betweenCommands⟩
  case inStep =>
    intro s c ph i p hrun hw hd
    exact step_of_reads hrun (.inl hw) hd
  case atBoundary =>
    intro s ph i p hrun hw hf hc hb hd
    exact step_of_reads hrun (.inr ⟨hw, rfl, hf, hc, hb⟩) hd
  case betweenCommands =>
    intro s cmd rest hrun hp
    exact step_of_fetch_run (fetch_of_port_cons hrun hp)

end Sys2Proof
end

section
/-! PROOFS. The invariant of the machine is kept by every step: first what each element of a Step leaves, then the host's
commands. -/

namespace Sys2Proof.Machine

/-! ## The cursor of a decoded element -/

/-- A decode moves the bit cursor forward, and not out of the input. -/
theorem decodesTo_forward {g : Config} {pos p : Nat} {i : Instr} {fmt : Format} (d : DecodesTo g pos i p fmt) :
    pos ≤ p ∧ (pos ≤ 8 * g.len → p ≤ 8 * g.len) := by
  have := avail_le_len g
  cases fmt <;> simp only [DecodesTo] at d <;> omega

/-- The next word boundary is in the input. -/
theorem clampWord_le (g : Config) (pos : Nat) : clampWord g pos ≤ 8 * g.len := Nat.min_le_right _ _

/-- The next word boundary is not before a cursor in the input. -/
theorem le_clampWord {g : Config} {pos : Nat} (h : pos ≤ 8 * g.len) : pos ≤ clampWord g pos := by
  unfold clampWord roundup; omega

/-- Moving the cursor keeps what holds inside a header. -/
theorem HeaderWork.at {g : Config} {base c : Regs} (hw : HeaderWork g base c) (p : Nat) : HeaderWork g base (c.at p) where
  waiting := hw.waiting
  ok := hw.ok.at p
  blockLen := hw.blockLen
  same := SameButHeader.trans hw.same rfl

/-- Moving the cursor in the input keeps what holds inside a tree read. -/
theorem TreeWork.at {g : Config} {base c : Regs} {t : Target} (hw : TreeWork g base c t) {p : Nat}
    (hp : p ≤ 8 * g.len) : TreeWork g base (c.at p) t where
  header := hw.header.at p
  block := hw.block
  main := hw.main
  inInput := hp

/-- Moving the cursor in the input keeps what holds inside a main item. -/
theorem ItemWork.at {g : Config} {base c : Regs} (hw : ItemWork g base c) {p : Nat} (hp : p ≤ 8 * g.len) :
    ItemWork g base (c.at p) where
  block := hw.block
  same := by show c.at p = (base.at c.bitpos).at p; rw [← hw.same]
  inInput := hp

/-- The working registers of a Step meet the register invariant. -/
theorem phaseInv_ok {g : Config} {base c : Regs} {ph : Phase} (hb : base.Ok g) (h : phaseInv g base c ph) : c.Ok g := by
  have moved : ∀ {p}, c = base.at p → c.Ok g := fun e => e ▸ hb.at _
  cases ph with
  | preamble => exact moved h.2.1
  | header => exact moved h.2.1
  | altree => exact h.1.ok
  | pretree t => exact h.header.ok
  | ptOp t i => exact h.1.header.ok
  | uncompR => exact h.1.ok
  | mainSym => exact moved h.same
  | lenSym slot => exact moved h.same
  | footerV slot n => exact moved h.1.same
  | footerA slot n => exact moved h.1.same
  | alignedLo slot n hi => exact moved h.1.same
  | extLen slot n f => exact moved h.1.same
  | raw => exact moved h.2.1
  | oddPad => exact h.2.1

/-! ## Registers that begin or leave a block -/

/-- The register invariant at a Step boundary does not look at the offset cache. -/
theorem Regs.Inv.setCache {g : Config} {c : Regs} (h : c.Inv g) (a b d : U32) : (c.setCache a b d).Inv g :=
  { h with ok := h.ok.setCache a b d }

/-- In AWAIT, with nothing owed and the persistent trees built, the registers meet the invariant (44_block.md R280). -/
theorem Regs.Ok.await_inv {g : Config} {c : Regs} (h : c.Ok g) (hs : c.state = .await) (hp : c.bitpos ≤ 8 * g.len)
    (hm : builtFrom c.mainLen c.mainTree) (hl : builtFrom c.lenLen c.lengthTree) : c.Inv g where
  ok := h
  inInput := hp
  mainBuilt := hm
  lengthBuilt := hl
  inBlock := by simp [hs]
  trees := by simp [hs]
  alignedTree := by simp [hs]
  byteAligned := by simp [hs]

/-- EndUncomp leaves registers that meet the invariant. -/
theorem Regs.Ok.endUncomp_inv {g : Config} {c : Regs} (h : c.Ok g) (hr : c.remaining = 0)
    (hm : builtFrom c.mainLen c.mainTree) (hl : builtFrom c.lenLen c.lengthTree) : (endUncomp g c).Inv g :=
  Regs.Ok.await_inv { h with nothingOwed := fun _ => hr } rfl (clampWord_le g c.bitpos) hm hl

/-- A header with its length not 0 has begun: the block's type and length stand in the working registers. -/
theorem headerWork_of_moved {g : Config} {base : Regs} (hb : base.Ok g) (hs : base.state = .await) (p : Nat)
    (t : BitVec 3) {n : U24} (hn : n ≠ 0) : HeaderWork g base { base.at p with btype := t, blockLen := n } where
  waiting := hs
  ok := { hb with owed := by simp [hb.nothingOwed (.inr (.inl hs))] }
  blockLen := hn
  same := rfl

/-! ## The elements of a Step -/

section Elements
variable {s u : State} {c : Regs}

/-- A header's length of 0 is a fault; any other header goes on. -/
theorem blockHeader_next {t : BitVec 3} {n : U24} {k : Regs → Host.Outcome State Fault Refusal}
    (hw : s.work = some ⟨c, .header⟩) (e : blockHeader t n s k = .next u) :
    u = s.takeFault .emptyBlock ∨ (n ≠ 0 ∧ k { c with btype := t, blockLen := n } = .next u) := by
  simp only [blockHeader, hw] at e
  split at e
  · cases e; exact .inl rfl
  · next hn => exact .inr ⟨hn, e⟩

/-- The main-tree read of a Verbatim or AlignedOffset header begins at its first range. -/
theorem firstTarget_inv (h : Live s) (hw : HeaderWork s.cfg s.regs c)
    (hb : c.btype = 1 ∨ (c.btype = 2 ∧ c.alignedTree.isSome = true)) (hp : c.bitpos ≤ 8 * s.cfg.len) :
    (s.working c (.pretree (firstTarget s.cfg))).Inv := by
  refine working_inv h ⟨hw, hb, fun ht => ?_, hp⟩
  unfold firstTarget at ht
  split at ht <;> cases ht

/-- The preamble's end keeps the invariant. -/
theorem preamble_inv (h : Live s) (hs : s.regs.state = .preamble) {p : Nat} (hp : p ≤ 8 * s.cfg.len) (flag : Bool)
    (size : U32) : (s.commit { s.regs.at p with e8Flag := flag, e8Size := size, state := .await }).Inv := by
  refine commit_inv h (Regs.Ok.await_inv ?_ rfl hp h.regs.mainBuilt h.regs.lengthBuilt) h.fault
  exact { h.regs.ok with nothingOwed := fun _ => h.regs.ok.nothingOwed (.inl hs) }

/-- A Verbatim header keeps the invariant. -/
theorem execBlockVerbatim_inv (h : Live s) {p : Nat} {n : U24} (hwork : s.work = some ⟨s.regs.at p, .header⟩)
    (hs : s.regs.state = .await) (hp : p ≤ 8 * s.cfg.len) (e : execBlockVerbatim n s = .next u) : u.Inv := by
  obtain rfl | ⟨hn, e⟩ := blockHeader_next hwork e
  · exact takeFault_inv h.regs _
  · cases e; exact firstTarget_inv h (headerWork_of_moved h.regs.ok hs p 1 hn) (.inl rfl) hp

/-- An AlignedOffset header keeps the invariant. -/
theorem execBlockAligned_inv (h : Live s) {p : Nat} {n : U24} (hwork : s.work = some ⟨s.regs.at p, .header⟩)
    (hs : s.regs.state = .await) (hp : p ≤ 8 * s.cfg.len) (e : execBlockAligned n s = .next u) : u.Inv := by
  obtain rfl | ⟨hn, e⟩ := blockHeader_next hwork e
  · exact takeFault_inv h.regs _
  · cases e; exact working_inv h ⟨headerWork_of_moved h.regs.ok hs p 2 hn, rfl, hp⟩

/-- An Uncompressed header keeps the invariant: its alignment stops at a byte boundary. -/
theorem execBlockUncomp_inv (h : Live s) {p : Nat} {n : U24} (hwork : s.work = some ⟨s.regs.at p, .header⟩)
    (hs : s.regs.state = .await) (e : execBlockUncomp n s = .next u) : u.Inv := by
  obtain rfl | ⟨hn, e⟩ := blockHeader_next hwork e
  · exact takeFault_inv h.regs _
  · split at e
    · next q hq =>
      cases e
      exact working_inv h ⟨(headerWork_of_moved h.regs.ok hs p 3 hn).at q, rfl, rfl, rfl, rfl, rfl,
        (uncompAlign_ok hq).1⟩
    · cases e; exact takeFault_inv h.regs _

/-- An invalid block type keeps the invariant: it is a fault. -/
theorem invalidType_inv (h : Live s) (hwork : s.work = some ⟨c, .header⟩) (e : invalidType s = .next u) : u.Inv := by
  simp only [invalidType, hwork] at e
  cases e; exact takeFault_inv h.regs _

/-- The aligned tree keeps the invariant. -/
theorem execAltree_inv (h : Live s) {lens : List (BitVec 4)} (hwork : s.work = some ⟨c, .altree⟩)
    (hw : HeaderWork s.cfg s.regs c) (hb : c.btype = 2) (hp : c.bitpos ≤ 8 * s.cfg.len)
    (hlen : lens.length = alignedSymbols) (hlt : ∀ l ∈ lens, l.toNat < 2 ^ s.cfg.params.alignedLenBits)
    (e : execAltree lens s = .next u) : u.Inv := by
  simp only [execAltree, hwork] at e
  split at e
  · next tree ht =>
    cases e
    refine firstTarget_inv h ⟨hw.waiting, ?_, hw.blockLen, SameButHeader.trans hw.same rfl⟩ (.inr ⟨hb, rfl⟩) hp
    exact { hw.ok with
      alignedLens := ⟨by simpa using hlen, by simpa using hlt⟩
      alignedBuilt := fun t et => by cases et; exact ht }
  · cases e; exact takeFault_inv h.regs _

/-- A pretree keeps the invariant. -/
theorem execPretree_inv (h : Live s) {t : Target} {lens : List (BitVec 4)} (hwork : s.work = some ⟨c, .pretree t⟩)
    (hw : TreeWork s.cfg s.regs c t) (hlen : lens.length = pretreeSymbols) (e : execPretree lens s = .next u) :
    u.Inv := by
  simp only [execPretree, hwork] at e
  split at e
  · next tree ht =>
    have hw' : TreeWork s.cfg s.regs { c with ptLen := lens.map BitVec.toNat, preTree := some tree } t :=
      ⟨⟨hw.header.waiting,
        { hw.header.ok with
          pretreeLens := ⟨by simpa using hlen, by simpa using fun l _ => l.isLt⟩
          pretreeBuilt := fun t et => by cases et; exact ht },
        hw.header.blockLen, SameButHeader.trans hw.header.same rfl⟩, hw.block, hw.main, hw.inInput⟩
    exact rangeAt_inv h hw' rfl (Nat.le_refl _) e
  · cases e; exact takeFault_inv h.regs _

/-- One entry of a length array keeps the invariant. -/
theorem execPtDelta_inv (h : Live s) {t : Target} {i sym : Nat} (hwork : s.work = some ⟨c, .ptOp t i⟩)
    (hw : TreeWork s.cfg s.regs c t) (hpre : c.preTree.isSome = true) (hi : t.first ≤ i)
    (e : execPtDelta sym s = .next u) : u.Inv := by
  simp only [execPtDelta, hwork] at e
  refine rangeAt_inv h (hw.put _ (by simp) fun l hl => ?_) (by simpa using hpre) (by omega) e
  obtain hl | rfl := getD_set_mem hl
  · exact array_le hw.header.ok t l hl
  · exact deltaLen_le _ _

/-- A run of one length keeps the invariant. -/
theorem execPtSame_inv (h : Live s) {t : Target} {i sym : Nat} {z : BitVec 1} (hwork : s.work = some ⟨c, .ptOp t i⟩)
    (hw : TreeWork s.cfg s.regs c t) (hpre : c.preTree.isSome = true) (hi : t.first ≤ i)
    (e : execPtSame z sym s = .next u) : u.Inv := by
  simp only [execPtSame, hwork] at e
  split at e
  · cases e; exact takeFault_inv h.regs _
  · exact runOf_inv h hw hpre hi (deltaLen_le _ _) e

/-- The R values of an Uncompressed header keep the invariant: the block begins. -/
theorem uncompBegins_inv (h : Live s) (hw : HeaderWork s.cfg s.regs c) (hm : c.mainLen = s.regs.mainLen)
    (hl : c.lenLen = s.regs.lenLen) (hmt : c.mainTree = s.regs.mainTree) (hlt : c.lengthTree = s.regs.lengthTree)
    (hp : c.bitpos ≤ 8 * s.cfg.len) (h8 : c.bitpos % 8 = 0) (a b d : U32) :
    (s.commit { c.setCache a b d with state := .uncomp, remaining := c.blockLen }).Inv := by
  have hf : c.fault = none := by rw [hw.same]; exact h.fault
  have hc : ({ c with state := .uncomp, remaining := c.blockLen } : Regs).Inv s.cfg :=
    hw.commit .uncomp (.inr (.inr rfl)) (by rw [hm, hmt]; exact h.regs.mainBuilt)
      (by rw [hl, hlt]; exact h.regs.lengthBuilt) (fun e => absurd rfl e) (fun e => nomatch e) hp (fun _ => h8)
  exact commit_inv h (hc.setCache a b d) hf

/-- A literal keeps the invariant. -/
theorem execLit_inv (h : Live s) {b : Byte} (hwork : s.work = some ⟨c, .mainSym⟩) (hi : ItemWork s.cfg s.regs c)
    (e : execLit b s = .next u) : u.Inv := by
  simp only [execLit, hwork] at e
  cases e
  have hr : c.remaining ≠ 0 := by
    rw [hi.same]; exact h.regs.inBlock (hi.block.imp_right .inl)
  have hf : c.chunkFill < s.cfg.params.chunkSize := by rw [hi.same]; exact h.room
  exact finish_inv h hi rfl ((item_ok h hi).emitByte b hr hf)

/-- The main symbol of a match keeps the invariant. -/
theorem matchSymbol_inv (h : Live s) {slot : Nat} {lh : BitVec 3} (hwork : s.work = some ⟨c, .mainSym⟩)
    (hi : ItemWork s.cfg s.regs c) (e : matchSymbol slot lh s = .next u) : u.Inv := by
  simp only [matchSymbol, hwork] at e
  split at e
  · cases e; exact working_inv h hi
  · exact afterLength_inv h hi e

/-- The literal footer bits of an AlignedOffset block keep the invariant. -/
theorem execFooterHi_inv (h : Live s) {slot n : Nat} {hi : BitVec 17} (hwork : s.work = some ⟨c, .footerA slot n⟩)
    (hw : ItemWork s.cfg s.regs c) (hs : s.regs.state = .aligned) (e : execFooterHi hi s = .next u) : u.Inv := by
  simp only [execFooterHi, hwork] at e
  split at e
  · next hfb => cases e; exact working_inv h ⟨hw, hs, hfb⟩
  · exact afterFooter_inv h hw e

/-- An extended length keeps the invariant. -/
theorem extended_inv (h : Live s) {slot n f v : Nat} (hwork : s.work = some ⟨c, .extLen slot n f⟩)
    (hi : ItemWork s.cfg s.regs c) (e : extended v s = .next u) : u.Inv := by
  simp only [extended, hwork] at e
  exact finishMatch_inv h hi e

/-- A raw byte keeps the invariant: the block goes on, or waits for its pad byte, or ends. -/
theorem execRaw_inv (h : Live s) {p : Nat} {b : Byte} (hwork : s.work = some ⟨s.regs.at p, .raw⟩)
    (hs : s.regs.state = .uncomp) (hp : p ≤ 8 * s.cfg.len) (h8 : p % 8 = 0) (e : execRaw b s = .next u) : u.Inv := by
  have hb := h.regs
  have hok : (emitByte s.cfg (s.regs.at p) b).Ok s.cfg :=
    (hb.ok.at p).emitByte b (hb.inBlock (.inr (.inr hs))) h.room
  simp only [execRaw, hwork] at e
  split at e
  · next hr =>
    split at e
    · next hlt => cases e; exact working_inv h ⟨hs, hok, hr, h8, hlt, rfl⟩
    · cases e; exact commit_inv h (hok.endUncomp_inv hr hb.mainBuilt hb.lengthBuilt) h.fault
  · next hr =>
    cases e
    refine commit_inv h ?_ h.fault
    exact { ok := hok, inInput := hp, mainBuilt := hb.mainBuilt, lengthBuilt := hb.lengthBuilt, inBlock := fun _ => hr
            trees := by simp [hs]
            alignedTree := by simp [hs]
            byteAligned := fun _ => h8 }

/-- The pad byte keeps the invariant: the block ends. -/
theorem padEnds_inv (h : Live s) (hok : c.Ok s.cfg) (hr : c.remaining = 0)
    (hsame : c = { s.regs with
      bitpos := c.bitpos, win := c.win, wpos := c.wpos, produced := c.produced, remaining := c.remaining,
      chunkFill := c.chunkFill, chunkBuf := c.chunkBuf }) : (s.commit (endUncomp s.cfg c)).Inv := by
  refine commit_inv h (hok.endUncomp_inv hr ?_ ?_) ?_
  · rw [hsame]; exact h.regs.mainBuilt
  · rw [hsame]; exact h.regs.lengthBuilt
  · rw [hsame]; exact h.fault

end Elements

/-- The meaning of the element that a phase calls for keeps the invariant. -/
theorem element_inv {s u : State} {c : Regs} {ph : Phase} {i : Instr} {p : Nat} (h : Live s)
    (hph : phaseInv s.cfg s.regs c ph) (d : DecodesTo s.cfg c.bitpos i p (formatOf c ph))
    (e : exec i (s.working (c.at p) ph) = .next u) : u.Inv := by
  have hL : Live (s.working (c.at p) ph) := live_working h _ _
  obtain ⟨-, hp⟩ := decodesTo_forward d
  cases ph with
  | preamble =>
    obtain ⟨hs, hc, hb⟩ := hph
    rw [hc] at e
    obtain rfl | ⟨n, rfl⟩ := d.1 <;> cases e <;> exact preamble_inv hL hs (hp hb) _ _
  | header =>
    obtain ⟨hs, hc, hb⟩ := hph
    have hw : (s.working (c.at p) .header).work = some ⟨s.regs.at p, .header⟩ := by rw [hc]; rfl
    obtain ⟨n, rfl⟩ | ⟨n, rfl⟩ | ⟨n, rfl⟩ | rfl | ⟨t, rfl⟩ := d.1
    · exact execBlockVerbatim_inv hL hw hs (hp hb) e
    · exact execBlockAligned_inv hL hw hs (hp hb) e
    · exact execBlockUncomp_inv hL hw hs e
    · exact invalidType_inv hL rfl e
    · exact invalidType_inv hL rfl e
  | altree =>
    obtain ⟨hw, hbt, hb⟩ := hph
    obtain ⟨⟨ls, rfl, hlen, hlt⟩, -⟩ := d
    exact execAltree_inv hL rfl (hw.at p) hbt (hp hb) hlen hlt e
  | pretree t =>
    obtain ⟨⟨ls, rfl, hlen⟩, -⟩ := d
    exact execPretree_inv hL rfl (hph.at (hp hph.inInput)) hlen e
  | ptOp t j =>
    obtain ⟨hw, hpre, hj, -⟩ := hph
    have hw' := hw.at (hp hw.inInput)
    obtain ⟨x, -, rfl⟩ | ⟨z, rfl⟩ | ⟨z, rfl⟩ | ⟨z, x, rfl⟩ := d.1
    · exact execPtDelta_inv hL rfl hw' hpre hj e
    · exact runOf_inv hL hw' hpre hj (Nat.zero_le _) e
    · exact runOf_inv hL hw' hpre hj (Nat.zero_le _) e
    · exact execPtSame_inv hL rfl hw' hpre hj e
  | uncompR =>
    obtain ⟨hw, -, hm, hl, hmt, hlt, -⟩ := hph
    obtain ⟨⟨a, b, v, rfl⟩, h8, rfl, hp⟩ := d
    cases e
    exact uncompBegins_inv hL (hw.at (c.bitpos + 96)) hm hl hmt hlt hp (by simp only [at_bitpos]; omega) a b v
  | mainSym =>
    have hi := ItemWork.at hph (hp hph.inInput)
    obtain ⟨b, rfl⟩ | ⟨lh, rfl⟩ | ⟨lh, rfl⟩ | ⟨lh, rfl⟩ | ⟨slot, lh, -, rfl⟩ := d.1
    · exact execLit_inv hL rfl hi e
    all_goals exact matchSymbol_inv hL rfl hi e
  | lenSym slot =>
    obtain ⟨⟨ls, rfl⟩, -⟩ := d
    exact afterLength_inv hL (ItemWork.at hph (hp hph.inInput)) e
  | footerV slot n =>
    obtain ⟨⟨f, rfl⟩, -⟩ := d
    exact afterFooter_inv hL (hph.1.at (hp hph.1.inInput)) e
  | footerA slot n =>
    obtain ⟨hi, hs, -⟩ := hph
    obtain ⟨⟨f, rfl⟩, -⟩ := d
    exact execFooterHi_inv hL rfl (hi.at (hp hi.inInput)) hs e
  | alignedLo slot n hi =>
    obtain ⟨⟨lo, rfl⟩, -⟩ := d
    exact afterFooter_inv hL (hph.1.at (hp hph.1.inInput)) e
  | extLen slot n f =>
    have hi := hph.1.at (hp hph.1.inInput)
    obtain ⟨v, rfl⟩ | ⟨v, rfl⟩ | ⟨v, rfl⟩ | ⟨v, rfl⟩ := d.1 <;> exact extended_inv hL rfl hi e
  | raw =>
    obtain ⟨hs, hc, hb, -⟩ := hph
    obtain ⟨⟨b, rfl⟩, h8, rfl, hp⟩ := d
    exact execRaw_inv hL (by rw [hc]; rfl) hs hp (by omega) e
  | oddPad =>
    obtain ⟨-, hok, hr, -, -, hsame⟩ := hph
    obtain ⟨⟨b, rfl⟩, -⟩ := d
    cases e
    exact padEnds_inv hL (hok.at p) hr (congrArg (Regs.at · p) hsame)

/-! ## The step -/

/-- A running machine that meets the invariant and whose chunk is not full is live. -/
theorem State.Inv.live_of_room {s : State} (h : s.Inv) (hrun : s.running = true)
    (hroom : s.regs.chunkFill < s.cfg.params.chunkSize) : Live s := by
  obtain ⟨hf, hs⟩ := h.live hrun
  exact ⟨h.regs, hf, h.valid hf, hs, hrun, hroom⟩

/-- A Step boundary with a chunk that is not full has room in it. -/
theorem State.Inv.room_of_ne {s : State} (h : s.Inv) (hc : s.regs.chunkFill ≠ s.cfg.params.chunkSize) :
    s.regs.chunkFill < s.cfg.params.chunkSize := Nat.lt_of_le_of_ne h.regs.ok.room hc

/-- A machine that reads an element is live, and the registers it reads at fit the element's phase. -/
theorem State.Inv.reads {s : State} {c : Regs} {ph : Phase} (h : s.Inv) (hrun : s.running = true) (hr : Reads s c ph) :
    Live s ∧ phaseInv s.cfg s.regs c ph := by
  obtain hw | ⟨-, rfl, -, hc, hb⟩ := hr
  · obtain ⟨hroom, hph⟩ := h.inStep _ hw
    exact ⟨h.live_of_room hrun hroom, hph⟩
  · have hL := h.live_of_room hrun (h.room_of_ne hc)
    exact ⟨hL, begin_phase hL hb⟩

/-- Every entry of an array of zeros is below a positive bound. -/
theorem zeros_lt (n : Nat) {b : Nat} (hb : 0 < b) : ∀ l ∈ List.replicate n 0, l < b := by
  intro l hl
  rw [List.eq_of_mem_replicate hl]; exact hb

/-- Every length of an array of zeros is in 0..16. -/
theorem zeros_le (n : Nat) : ∀ l ∈ List.replicate n 0, l ≤ maxCodeLen := by
  intro l hl
  rw [List.eq_of_mem_replicate hl]; exact Nat.zero_le _

/-- The registers after NEW meet the invariant, be its configuration valid or not (10_state.md R62). -/
theorem freshRegs_inv (g : Config) : (freshRegs g).Inv g where
  ok :=
    { window := rfl
      cursor := rfl
      history := by intro d h1 h2; simp only [Regs.hist, freshRegs] at h2; omega
      owed := Nat.le_refl _
      nothingOwed := fun _ => rfl
      filled := rfl
      room := Nat.zero_le _
      mainLens := ⟨List.length_replicate, zeros_le _⟩
      lengthLens := ⟨List.length_replicate, zeros_le _⟩
      alignedLens := ⟨List.length_replicate, zeros_lt _ (Nat.two_pow_pos _)⟩
      pretreeLens := ⟨List.length_replicate, zeros_lt _ (Nat.two_pow_pos _)⟩
      alignedBuilt := fun _ e => nomatch e
      pretreeBuilt := fun _ e => nomatch e }
  inInput := Nat.zero_le _
  mainBuilt := fun _ e => nomatch e
  lengthBuilt := fun _ e => nomatch e
  inBlock := by simp [freshRegs]
  trees := by simp [freshRegs]
  alignedTree := by simp [freshRegs]
  byteAligned := by simp [freshRegs]

/-- NEW leaves a machine that meets the invariant, whatever the state before it. -/
theorem execNew_inv {code : Nat} {input : List Byte} {params : Params} {s t : State}
    (e : execNew code input params s = .next t) : t.Inv := by
  cases e
  exact {
    regs := faulted_inv (freshRegs_inv _) _
    valid := by simp
    idle := fun _ => rfl
    live := fun e => nomatch e
    inStep := fun _ e => nomatch e }

/-- A result handed back between commands keeps the invariant. -/
theorem answer_inv {s : State} (h : s.Inv) (hrun : s.running = false) (r : Result) : (s.answer r).Inv where
  regs := h.regs
  valid := h.valid
  idle := fun _ => h.idle hrun
  live := fun e => nomatch e
  inStep := fun w hw => h.inStep w hw

/-- The commands still in the queue are no part of the invariant. -/
theorem State.Inv.withPort {s : State} (h : s.Inv) (port : List Command) : ({ s with port := port } : State).Inv :=
  { h with }

/-- NEXT_CHUNK keeps the invariant. -/
theorem execNextChunk_inv {s t : State} (h : s.Inv) (e : execNextChunk s = .next t) : t.Inv := by
  unfold execNextChunk at e
  split at e
  · cases e
  · next hrun =>
    have hrun : s.running = false := by simpa using hrun
    split at e
    · cases e; exact answer_inv h hrun _
    · next hf =>
      split at e
      · cases e; exact answer_inv h hrun _
      · next hs =>
        cases e
        exact {
          regs := { h.regs with ok := { h.regs.ok with filled := rfl, room := Nat.zero_le _ } }
          valid := h.valid
          idle := fun e => nomatch e
          live := fun _ => ⟨hf, hs⟩
          inStep := fun w hw => by rw [h.idle hrun] at hw; cases hw }


/-- Every step inside a NEXT_CHUNK keeps the invariant. -/
theorem running_step_inv {s t : State} (h : s.Inv) (hrun : s.running = true) (e : step s = .next t) : t.Inv := by
  cases step_cases hrun e with
  | readFault c ph k => exact takeFault_inv h.regs k
  | element c ph i p _ hr hd _ =>
    obtain ⟨hL, hph⟩ := h.reads hrun hr
    rw [step_of_reads hrun hr hd] at e
    exact element_inv hL hph (decode_ok hd) e
  | full hw => exact returnChunk_inv h hw
  | silent c _ _ hc hb => exact begin_silent (h.live_of_room hrun (h.room_of_ne hc)) hb

/-- A step between commands takes the oldest command from the queue. -/
theorem idle_step {s t : State} (hrun : s.running = false) (e : step s = .next t) :
    ∃ cmd rest, s.port = cmd :: rest ∧ exec cmd.instr { s with port := rest } = .next t := by
  cases hp : s.port with
  | nil => simp [step, fetch, hrun, fetchCommand, hp] at e
  | cons cmd rest =>
    rw [step_of_fetch_run (fetch_of_port_cons hrun hp)] at e
    exact ⟨cmd, rest, rfl, e⟩

/-- Every host command keeps the invariant. -/
theorem command_inv {s t : State} {cmd : Command} (h : s.Inv) (e : exec cmd.instr s = .next t) : t.Inv := by
  cases cmd with
  | new code input params => exact execNew_inv e
  | nextChunk => exact execNextChunk_inv h e

/-- Every step keeps the invariant. -/
theorem step_inv {s t : State} (h : s.Inv) (e : step s = .next t) : t.Inv := by
  cases hrun : s.running with
  | true => exact running_step_inv h hrun e
  | false =>
    obtain ⟨cmd, rest, -, e⟩ := idle_step hrun e
    exact command_inv (h.withPort rest) e

end Sys2Proof.Machine

namespace Sys2Proof

open Machine

/-- Settles O47: inside a NEXT_CHUNK by the phase of the element read, between commands by the command. -/
theorem stepKeepsTheInvariant : Obligations.StepKeepsTheInvariant := fun _ _ => step_inv

end Sys2Proof
end

section
/-! PROOFS. The window is the end of the output: the operations that write it, the elements of a Step, and the host's
commands. -/

namespace Sys2Proof.Machine

/-! ## The output delivered -/

@[simp] theorem output_answer_chunk (s : State) (bytes : List Byte) :
    output (s.answer (.chunk bytes)) = output s ++ bytes := by
  simp [output]

@[simp] theorem output_answer_none (s : State) : output (s.answer .none) = output s := by
  simp [output]

/-- The bytes that a full chunk hands back are delivered. -/
@[simp] theorem output_returnChunk (s : State) : output s.returnChunk = output s ++ s.regs.chunkBuf :=
  output_answer_chunk { s with regs := chunkRealign s.cfg s.regs } s.regs.chunkBuf

/-- The end of a Step keeps the bytes delivered and pending: the Step into TERMINAL delivers those that were pending. -/
theorem output_commit {s : State} {c : Regs} (hrun : s.running = true) (hfill : c.chunkFill = c.chunkBuf.length) :
    (output (s.commit c) ++ if (s.commit c).running then c.chunkBuf else []) = output s ++ c.chunkBuf := by
  by_cases hs : c.state = .terminal
  · obtain h0 | h0 := Nat.eq_zero_or_pos c.chunkFill
    · have : c.chunkBuf = [] := List.eq_nil_of_length_eq_zero (hfill.symm.trans h0)
      simp [output, hs, h0, this]
    · simp [output, hs, h0]
  · simp [output, hs, hrun]

/-! ## Registers whose window is the end of the output -/

/-- The cell at a distance below the window's capacity is not the one at the cursor. -/
theorem behind_ne (g : Config) {wpos d : Nat} (hw : wpos < g.capacity) (h1 : 1 ≤ d) (h2 : d < g.capacity) :
    behind g wpos d ≠ wpos := by
  unfold behind
  generalize g.capacity = W at *
  by_cases h : d ≤ wpos
  · rw [show wpos + W - d = (wpos - d) + W by omega, Nat.add_mod_right, Nat.mod_eq_of_lt (by omega)]; omega
  · rw [Nat.mod_eq_of_lt (by omega)]; omega

/-- The window is the end of the output `out` delivered before this NEXT_CHUNK and of the chunk in progress. -/
def PendingOk (g : Config) (out : List Byte) (c : Regs) : Prop := historyOk g (out ++ c.chunkBuf) c

/-- EmitByte appends its byte to the output and to the window (20_memory.md R83). -/
theorem PendingOk.emitByte {g : Config} {out : List Byte} {c : Regs} (h : PendingOk g out c) (hw : c.wpos < g.capacity)
    (b : Byte) : PendingOk g out (emitByte g c b) := by
  unfold PendingOk at *
  rw [emitByte_chunkBuf, ← List.append_assoc]
  generalize out ++ c.chunkBuf = o at *
  obtain ⟨hlen, hcell⟩ := h
  refine ⟨by simp [hlen], fun d h1 h2 => ?_⟩
  simp only [Regs.hist, emitByte_produced] at h2
  rw [emitByte_win, emitByte_wpos]
  by_cases hd : d = 1
  · subst hd
    rw [behind_one g _ hw]
    exact ⟨b, by simp, by simp⟩
  · obtain ⟨x, hx, ho⟩ := hcell (d - 1) (by omega) (by simp only [Regs.hist]; omega)
    rw [behind_succ g _ _ hw (by omega) (by omega),
      winRead_winWrite_other _ _ (behind_ne g hw (by omega) (by omega))]
    refine ⟨x, hx, ?_⟩
    rw [List.length_append, List.length_singleton, List.getElem?_append_left (by omega), ← ho]
    congr 1; omega

/-- EmitByte of a run of bytes appends them. -/
theorem PendingOk.emitBytes {g : Config} {out : List Byte} {c : Regs} (h : PendingOk g out c) (hw : c.wpos < g.capacity)
    (bytes : List Byte) : PendingOk g out (bytes.foldl (Machine.emitByte g) c) := by
  induction bytes generalizing c with
  | nil => exact h
  | cons b rest ih => exact ih (h.emitByte hw b) (Nat.mod_lt _ (capacity_pos g))

/-- The end of a main item leaves the window. -/
theorem PendingOk.endOfItem {g : Config} {out : List Byte} {c : Regs} (h : PendingOk g out c) :
    PendingOk g out (endOfItem c) := by
  unfold Machine.endOfItem; split <;> exact h

/-- A header leaves the window. -/
theorem PendingOk.of_sameButHeader {g : Config} {out : List Byte} {c c' : Regs} (h : PendingOk g out c)
    (hs : SameButHeader c c') : PendingOk g out c' := by
  rw [hs]; exact h

/-! ## The machine's history -/

/-- Fault entry keeps the history, which says nothing of a faulted machine. -/
theorem takeFault_history (s : State) (k : FaultKind) : (s.takeFault k).History := fun e => nomatch e

/-- A Step that goes on keeps the history. -/
theorem working_history {s : State} {c : Regs} (hrun : s.running = true) (hb : PendingOk s.cfg (output s) s.regs)
    (hc : PendingOk s.cfg (output s) c) (ph : Phase) : (s.working c ph).History := by
  refine fun _ => ⟨?_, fun w hw => by cases hw; exact hc⟩
  rw [working_running, hrun, if_pos rfl]
  exact hb

/-- The end of a Step keeps the history. -/
theorem commit_history {s : State} {c : Regs} (hrun : s.running = true) (hi : (s.commit c).Inv)
    (hc : PendingOk s.cfg (output s) c) : (s.commit c).History := by
  have hfill : c.chunkFill = c.chunkBuf.length := by simpa using hi.regs.ok.filled
  refine fun _ => ⟨?_, fun w hw => by simp at hw⟩
  rw [commit_cfg, commit_regs, output_commit hrun hfill]
  exact hc

/-- The registers that a running machine reads at, and those of the Step boundary before, stand at the end of the output. -/
theorem State.History.reads {s : State} {c : Regs} {ph : Phase} (h : s.History) (hrun : s.running = true)
    (hf : s.regs.fault = none) (hr : Reads s c ph) :
    PendingOk s.cfg (output s) s.regs ∧ PendingOk s.cfg (output s) c := by
  obtain ⟨hb, hin⟩ := h hf
  rw [hrun, if_pos rfl] at hb
  obtain hw | ⟨-, rfl, -⟩ := hr
  · exact ⟨hb, hin _ hw⟩
  · exact ⟨hb, hb⟩

/-- Whatever an element makes of the machine keeps the history. -/
theorem elementEnds_history {s t : State} {c : Regs} {ph : Phase} (he : ElementEnds s c ph t) (hrun : s.running = true)
    (hb : PendingOk s.cfg (output s) s.regs) (hc : PendingOk s.cfg (output s) c) (hw : c.wpos < s.cfg.capacity)
    (hi : t.Inv) : t.History := by
  cases he with
  | fault k => exact takeFault_history s k
  | preamble flag size => exact commit_history hrun hi hc
  | headerGoes c' ph' _ _ hs => exact working_history hrun hb (hc.of_sameButHeader hs) ph'
  | blockBegins c' _ hs =>
    have hc' := hc.of_sameButHeader hs
    exact commit_history hrun hi hc'
  | uncompBegins a b d => exact commit_history hrun hi hc
  | itemGoes ph' => exact working_history hrun hb hc ph'
  | itemEnds a b d bytes =>
    have hc' : PendingOk s.cfg (output s) (c.setCache a b d) := hc
    exact commit_history hrun hi (hc'.emitBytes hw bytes).endOfItem
  | rawGoes b => exact commit_history hrun hi (hc.emitByte hw b)
  | rawPads b => exact working_history hrun hb (hc.emitByte hw b) .oddPad
  | rawEnds b => exact commit_history hrun hi (hc.emitByte hw b)
  | padEnds => exact commit_history hrun hi hc

/-- The return of a full chunk keeps the history. -/
theorem returnChunk_history {s : State} (h : s.History) (hrun : s.running = true) (hf : s.regs.fault = none)
    (hw : s.work = none) : s.returnChunk.History := by
  obtain ⟨hb, -⟩ := h hf
  rw [hrun, if_pos rfl] at hb
  refine fun _ => ⟨?_, fun w e => by simp [hw] at e⟩
  rw [output_returnChunk, returnChunk_running, returnChunk_regs, returnChunk_cfg, chunkRealign]
  simp only [Bool.false_eq_true, if_false, List.append_nil]
  split <;> exact hb

/-- A transition that reads nothing writes STATE only. -/
theorem beginStep_silent {g : Config} {c c' : Regs} (h : beginStep g c = .silent c') : ∃ x, c' = c.enter x := by
  unfold beginStep at h
  repeat' split at h
  all_goals cases h
  all_goals exact ⟨_, rfl⟩

/-- Every step inside a NEXT_CHUNK keeps the history. -/
theorem running_step_history {s t : State} (hi : s.Inv) (h : s.History) (hrun : s.running = true)
    (e : step s = .next t) : t.History := by
  have ht := step_inv hi e
  have hf := (hi.live hrun).1
  cases step_cases hrun e with
  | readFault c ph k => exact takeFault_history s k
  | element c ph i p _ hr hd he =>
    obtain ⟨hb, hc⟩ := h.reads hrun hf hr
    have hw := (phaseInv_ok hi.regs.ok (hi.reads hrun hr).2).wpos_lt
    exact elementEnds_history he hrun hb hc hw ht
  | full hw => exact returnChunk_history h hrun hf hw
  | silent c _ _ _ hb =>
    obtain ⟨x, rfl⟩ := beginStep_silent hb
    have hp := (h hf).1
    rw [hrun, if_pos rfl] at hp
    exact commit_history hrun ht hp

/-- After NEW nothing is produced. -/
theorem execNew_history {code : Nat} {input : List Byte} {params : Params} {s t : State}
    (e : execNew code input params s = .next t) : t.History := by
  cases e
  refine fun _ => ⟨⟨rfl, fun d h1 h2 => ?_⟩, fun w e => nomatch e⟩
  simp only [Regs.hist, freshRegs] at h2
  omega

/-- NEXT_CHUNK keeps the history: no byte is pending where it begins. -/
theorem execNextChunk_history {s t : State} (hi : s.Inv) (h : s.History) (e : execNextChunk s = .next t) :
    t.History := by
  unfold execNextChunk at e
  split at e
  · cases e
  · next hrun =>
    have hrun : s.running = false := by simpa using hrun
    have hw := hi.idle hrun
    split at e
    · next k hk => cases e; exact fun hf => by simp [hk] at hf
    · next hf =>
      have hb := (h hf).1
      simp only [hrun, Bool.false_eq_true, if_false] at hb
      split at e
      · cases e
        refine fun _ => ⟨?_, fun w e => by simp [hw] at e⟩
        rw [output_answer_none]
        exact hb
      · cases e
        exact fun _ => ⟨hb, fun w e => by rw [hw] at e; cases e⟩

/-- Every host command keeps the history. -/
theorem command_history {s t : State} {cmd : Command} (hi : s.Inv) (h : s.History) (e : exec cmd.instr s = .next t) :
    t.History := by
  cases cmd with
  | new code input params => exact execNew_history e
  | nextChunk => exact execNextChunk_history hi h e

end Sys2Proof.Machine

namespace Sys2Proof

open Machine

/-- Settles O54: inside a NEXT_CHUNK by what an element can make of the machine, between commands by the command. -/
theorem windowHoldsTheOutput : Obligations.WindowHoldsTheOutput := by
  intro s t hi h e
  cases hrun : s.running with
  | true => exact running_step_history hi h hrun e
  | false =>
    obtain ⟨cmd, rest, -, e⟩ := idle_step hrun e
    exact command_history (s := { s with port := rest }) (hi.withPort rest) h e

end Sys2Proof
end

section
/-! PROOFS. The configuration of a session, and the bit cursor in it. -/

namespace Sys2Proof.Machine

/-! ## The configuration -/

/-- The machine t has the configuration and the fault codes of s. -/
def SameSession (s t : State) : Prop := t.cfg = s.cfg ∧ t.impl = s.impl

/-- The end of a Step writes neither. -/
theorem commit_sameSession (s : State) (c : Regs) : SameSession s (s.commit c) := ⟨commit_cfg s c, commit_impl s c⟩

/-- No element writes the configuration or the fault codes. -/
theorem elementEnds_sameSession {s t : State} {c : Regs} {ph : Phase} (he : ElementEnds s c ph t) : SameSession s t := by
  cases he with
  | fault => exact ⟨rfl, rfl⟩
  | headerGoes => exact ⟨rfl, rfl⟩
  | itemGoes => exact ⟨rfl, rfl⟩
  | rawPads => exact ⟨rfl, rfl⟩
  | _ => exact commit_sameSession s _

/-- No step inside a NEXT_CHUNK writes the configuration or the fault codes. -/
theorem running_step_sameSession {s t : State} (hrun : s.running = true) (e : step s = .next t) : SameSession s t := by
  cases step_cases hrun e with
  | readFault => exact ⟨rfl, rfl⟩
  | element c ph i p _ _ _ he =>
    have hsame : SameSession (s.working (c.at p) ph) t := elementEnds_sameSession he
    exact hsame
  | full => exact ⟨rfl, rfl⟩
  | silent c => exact commit_sameSession s c

/-- NEXT_CHUNK writes neither the configuration nor the fault codes. -/
theorem execNextChunk_sameSession {s t : State} (e : execNextChunk s = .next t) : SameSession s t := by
  unfold execNextChunk at e
  repeat' split at e
  all_goals cases e
  all_goals exact ⟨rfl, rfl⟩

/-! ## The bit cursor -/

/-- From the machine s to t the committed cursor goes forward, and a Step in progress in t is not behind its beginning. -/
def GoesForward (s t : State) : Prop := t.Forward ∧ s.regs.bitpos ≤ t.regs.bitpos

/-- Fault entry leaves the cursor of the Step's beginning. -/
theorem takeFault_goesForward (s : State) (k : FaultKind) : GoesForward s (s.takeFault k) :=
  ⟨fun _ e => (nomatch e), Nat.le_refl _⟩

/-- A Step that goes on with a cursor not behind its beginning goes forward. -/
theorem working_goesForward {s : State} {c : Regs} (h : s.regs.bitpos ≤ c.bitpos) (ph : Phase) :
    GoesForward s (s.working c ph) :=
  ⟨fun _ e => by cases e; exact h, Nat.le_refl _⟩

/-- A Step that ends with a cursor not behind its beginning goes forward. -/
theorem commit_goesForward {s : State} {c : Regs} (h : s.regs.bitpos ≤ c.bitpos) : GoesForward s (s.commit c) :=
  ⟨fun _ e => by simp at e, by simpa using h⟩

/-- EmitByte of a run of bytes leaves the cursor. -/
theorem foldl_emitByte_bitpos (g : Config) (bytes : List Byte) (c : Regs) :
    (bytes.foldl (emitByte g) c).bitpos = c.bitpos := by
  induction bytes generalizing c with
  | nil => rfl
  | cons b rest ih => exact ih (emitByte g c b)

/-- EndUncomp moves a cursor in the input forward. -/
theorem endUncomp_bitpos_le {g : Config} {c : Regs} (h : c.bitpos ≤ 8 * g.len) : c.bitpos ≤ (endUncomp g c).bitpos :=
  le_clampWord h

/-- ChunkRealign moves a cursor in the input forward. -/
theorem chunkRealign_bitpos_le {g : Config} {c : Regs} (h : c.bitpos ≤ 8 * g.len) :
    c.bitpos ≤ (chunkRealign g c).bitpos := by
  rw [chunkRealign_bitpos]
  split
  · exact le_clampWord h
  · exact Nat.le_refl _

/-- An element whose bits are consumed goes forward; the end of an Uncompressed block does where its cursor is in the
input. -/
theorem elementEnds_goesForward {s t : State} {c : Regs} {ph : Phase} (he : ElementEnds s c ph t)
    (h : s.regs.bitpos ≤ c.bitpos) (hin : ph = .raw ∨ ph = .oddPad → c.bitpos ≤ 8 * s.cfg.len) : GoesForward s t := by
  cases he with
  | fault k => exact takeFault_goesForward s k
  | preamble => exact commit_goesForward h
  | headerGoes c' ph' _ _ _ hp => exact working_goesForward (Nat.le_trans h hp) ph'
  | blockBegins c' _ _ hp => exact commit_goesForward (Nat.le_trans h (Nat.le_of_eq hp))
  | uncompBegins => exact commit_goesForward h
  | itemGoes ph' => exact working_goesForward h ph'
  | itemEnds a b d bytes => exact commit_goesForward (by rw [endOfItem_bitpos, foldl_emitByte_bitpos]; exact h)
  | rawGoes => exact commit_goesForward h
  | rawPads b => exact working_goesForward (c := emitByte s.cfg c b) h .oddPad
  | rawEnds b hraw =>
    exact commit_goesForward (Nat.le_trans h (endUncomp_bitpos_le (c := emitByte s.cfg c b) (hin (.inl hraw))))
  | padEnds hpad => exact commit_goesForward (Nat.le_trans h (endUncomp_bitpos_le (hin (.inr hpad))))

/-- The cursor that a running machine reads at is not behind the Step's beginning. -/
theorem State.Forward.reads {s : State} {c : Regs} {ph : Phase} (h : s.Forward) (hr : Reads s c ph) :
    s.regs.bitpos ≤ c.bitpos := by
  obtain hw | ⟨-, rfl, -⟩ := hr
  · exact h _ hw
  · exact Nat.le_refl _

/-- A raw byte or a pad byte that decodes leaves the cursor in the input. -/
theorem decode_raw_le {g : Config} {c : Regs} {ph : Phase} {i : Instr} {pos p : Nat}
    (hd : decode g (formatOf c ph) pos = .ok (i, p)) (hph : ph = .raw ∨ ph = .oddPad) : p ≤ 8 * g.len := by
  obtain rfl | rfl := hph
  · obtain ⟨-, -, -, hp⟩ := decode_ok hd
    exact hp
  · obtain ⟨-, -, -, hp⟩ := decode_ok hd
    exact hp

/-- A step inside a NEXT_CHUNK goes forward. -/
theorem running_step_goesForward {s t : State} (hi : s.Inv) (h : s.Forward) (hrun : s.running = true)
    (e : step s = .next t) : GoesForward s t := by
  cases step_cases hrun e with
  | readFault c ph k => exact takeFault_goesForward s k
  | element c ph i p _ hr hd he =>
    have hle : s.regs.bitpos ≤ p := Nat.le_trans (h.reads hr) (decodesTo_forward (decode_ok hd)).1
    have hgo : GoesForward (s.working (c.at p) ph) t := elementEnds_goesForward he hle (decode_raw_le hd)
    exact hgo
  | full hw =>
    exact ⟨fun w e => (by rw [returnChunk_work, hw] at e; cases e), chunkRealign_bitpos_le hi.regs.inInput⟩
  | silent c _ _ _ hb =>
    obtain ⟨x, rfl⟩ := beginStep_silent hb
    exact commit_goesForward (Nat.le_refl _)

end Sys2Proof.Machine

namespace Sys2Proof

open Machine

/-- Settles O52: inside a NEXT_CHUNK nothing writes the configuration; between commands the command is NEW, whose operands
it then is, or NEXT_CHUNK, which leaves it. -/
theorem configurationIsFixed : Obligations.ConfigurationIsFixed := by
  intro s t e
  cases hrun : s.running with
  | true =>
    obtain ⟨hcfg, himpl⟩ := running_step_sameSession hrun e
    exact ⟨himpl, .inl hcfg⟩
  | false =>
    obtain ⟨cmd, rest, hport, e⟩ := idle_step hrun e
    cases cmd with
    | new code input params =>
      cases e
      exact ⟨rfl, .inr ⟨code, input, params, rest, rfl, hport, rfl⟩⟩
    | nextChunk =>
      obtain ⟨hcfg, himpl⟩ := execNextChunk_sameSession e
      exact ⟨himpl, .inl hcfg⟩

/-- Settles O53: forward by what a step can do, and inside the input because the step keeps the invariant. -/
theorem cursorNeverGoesBack : Obligations.CursorNeverGoesBack := by
  intro s t hi h hrun e
  obtain ⟨hfwd, hle⟩ := running_step_goesForward hi h hrun e
  exact ⟨hfwd, hle, (step_inv hi e).regs.inInput⟩

end Sys2Proof
end

section
/-! PROOFS. The reset state, and the host's view of the registers. -/

namespace Sys2Proof.Machine

/-- The reset state is what NEW of its own operands leaves of it (70_reset_and_hazards.md R410). -/
theorem reset_of_execNew : execNew 0 [] Params.defaults State.reset = .next State.reset := rfl

/-- FAULT as a register is the code of the fault, and 0 where there is none (10_state.md R57). -/
theorem faultReg_eq (c : Regs) : c.faultReg = (c.fault.map faultCode).getD 0 := by
  unfold Regs.faultReg; cases c.fault <;> rfl

end Sys2Proof.Machine

namespace Sys2Proof

open Machine

/-- Settles O1: a valid configuration has no fault, and every other register is that of `freshRegs`. -/
theorem newResetsEveryElement : Obligations.NewResetsEveryElement := by
  intro code input params s hv
  have hfault : (if (⟨code, input, params⟩ : Config).valid then none else some FaultKind.invalidConfig) = none :=
    if_pos hv
  exact ⟨_, rfl, rfl, rfl, rfl, rfl, rfl, rfl, rfl, rfl, rfl, rfl, fun _ => rfl, rfl, rfl, rfl, rfl, rfl, rfl, rfl, rfl,
    rfl, rfl, rfl, rfl, rfl, rfl, rfl, rfl, hfault, rfl, rfl⟩

/-- Settles O46: the reset state is left by a NEW, and has no Step in progress. -/
theorem resetMeetsTheInvariant : Obligations.ResetMeetsTheInvariant :=
  ⟨execNew_inv reset_of_execNew, fun _ e => (nomatch e), execNew_history reset_of_execNew⟩

/-- Settles O59: the codes by their tables, and the view by what FAULT is as a register. The name is kept apart from that
of the model's `statusView`. -/
theorem statusView_eq : Obligations.StatusView := by
  refine ⟨rfl, rfl, fun s => ?_⟩
  rw [statusView, faultReg_eq]

end Sys2Proof
end

section
/-! PROOFS. The input memory: its byte reads as the raw reads of the stream, and its words as bits. -/

namespace Sys2Proof

/-! ## Reads of the memory -/

/-- A read past the input is InputExhausted (20_memory.md R72). -/
theorem memRead_of_lt {g : Config} {a n : Nat} (h : g.len < a + n) : memRead g a n = .error (.fault .inputExhausted) :=
  if_pos h

/-- A read of one byte in the input (20_memory.md R72). -/
theorem memRead_one {g : Config} {a : Nat} (h : a + 1 ≤ g.len) : memRead g a 1 = .ok (g.byteAt a).toNat := by
  rw [memRead, if_neg (by omega)]
  simp

/-- The little-endian value of the four bytes from address a (20_memory.md R72). -/
def Config.u32At (g : Config) (a : Nat) : Nat :=
  (g.byteAt a).toNat + 256 * (g.byteAt (a + 1)).toNat + 256 ^ 2 * (g.byteAt (a + 2)).toNat
    + 256 ^ 3 * (g.byteAt (a + 3)).toNat

/-- A read of four bytes in the input (20_memory.md R72). -/
theorem memRead_four {g : Config} {a : Nat} (h : a + 4 ≤ g.len) : memRead g a 4 = .ok (g.u32At a) := by
  rw [memRead, if_neg (by omega)]
  simp [List.range_succ, Config.u32At, Nat.mul_comm, Nat.add_assoc]

/-! ## The raw reads of the stream -/

/-- A raw byte is refused off a byte boundary (20_memory.md R79). -/
theorem readRawByte_of_unaligned {g : Config} {pos : Nat} (h : pos % 8 ≠ 0) : readRawByte g pos = .error .unaligned :=
  if_pos h

/-- A raw 32-bit value is refused off a byte boundary, at its first byte (20_memory.md R79). -/
theorem readU32LE_of_unaligned {g : Config} {pos : Nat} (h : pos % 8 ≠ 0) : readU32LE g pos = .error .unaligned :=
  except_bind_error.2 (.inl (readRawByte_of_unaligned h))

/-- A raw byte at byte address a of the input (40_bitstream_reader.md R148). -/
theorem readRawByte_of_lt {g : Config} {a : Nat} (h : a < g.len) :
    readRawByte g (8 * a) = .ok (g.byteAt a, 8 * a + 8) := by
  refine readRawByte_ok.2 ⟨by omega, by omega, ?_⟩
  rw [Nat.mul_div_cancel_left a (by decide)]

/-- Two bit vectors side by side, as a number. -/
theorem append_toNat {m n : Nat} (hi : BitVec m) (lo : BitVec n) : (hi ++ lo).toNat = 2 ^ n * hi.toNat + lo.toNat := by
  rw [BitVec.toNat_append, ← Nat.shiftLeft_add_eq_or_of_lt lo.isLt, Nat.shiftLeft_eq, Nat.mul_comm]

/-- Four bytes side by side, the first lowest, are their little-endian value. -/
theorem append_bytes_eq_u32At (g : Config) (a : Nat) :
    g.byteAt (a + 3) ++ g.byteAt (a + 2) ++ g.byteAt (a + 1) ++ g.byteAt a = BitVec.ofNat 32 (g.u32At a) := by
  rw [← BitVec.toNat_inj, BitVec.toNat_ofNat, Config.u32At]
  simp only [append_toNat]
  omega

/-- A raw 32-bit value in the input, at byte address a (40_bitstream_reader.md R149). -/
theorem readU32LE_of_le {g : Config} {a : Nat} (h : a + 4 ≤ g.len) :
    readU32LE g (8 * a) = .ok (BitVec.ofNat 32 (g.u32At a), 8 * a + 32) := by
  refine except_bind_ok.2 ⟨_, readRawByte_of_lt (a := a) (by omega), ?_⟩
  refine except_bind_ok.2 ⟨_, readRawByte_of_lt (a := a + 1) (by omega), ?_⟩
  refine except_bind_ok.2 ⟨_, readRawByte_of_lt (a := a + 2) (by omega), ?_⟩
  refine except_bind_ok.2 ⟨_, readRawByte_of_lt (a := a + 3) (by omega), ?_⟩
  exact congrArg (fun v => Except.ok (v, 8 * a + 32)) (append_bytes_eq_u32At g a)

/-- A raw byte past the input is InputExhausted (40_bitstream_reader.md R148). -/
theorem readRawByte_of_le {g : Config} {a : Nat} (h : g.len ≤ a) :
    readRawByte g (8 * a) = .error (.fault .inputExhausted) := by
  cases e : readRawByte g (8 * a) with
  | error k => rw [readRawByte_error e (by omega)]
  | ok r =>
    obtain ⟨-, hlt, -⟩ := readRawByte_ok.1 e
    omega

/-- A raw 32-bit value that is not whole in the input is InputExhausted (40_bitstream_reader.md R149). -/
theorem readU32LE_of_lt {g : Config} {a : Nat} (h : g.len < a + 4) :
    readU32LE g (8 * a) = .error (.fault .inputExhausted) := by
  cases e : readU32LE g (8 * a) with
  | error k => rw [readU32LE_error e (by omega)]
  | ok r =>
    obtain ⟨-, hp, hle⟩ := readU32LE_ok_pos e
    omega

/-- A raw byte at a byte boundary is the memory's byte there (40_bitstream_reader.md R148). -/
theorem readRawByte_eq_memRead (g : Config) (a : Nat) :
    readRawByte g (8 * a) = (memRead g a 1).map fun v => (BitVec.ofNat 8 v, 8 * a + 8) := by
  obtain h | h := Nat.lt_or_ge g.len (a + 1)
  · rw [memRead_of_lt h, readRawByte_of_le (by omega)]
    rfl
  · rw [memRead_one h, readRawByte_of_lt h]
    simp [Except.map]

/-- A raw 32-bit value at a byte boundary is the memory's four bytes there (40_bitstream_reader.md R149). -/
theorem readU32LE_eq_memRead (g : Config) (a : Nat) :
    readU32LE g (8 * a) = (memRead g a 4).map fun v => (BitVec.ofNat 32 v, 8 * a + 32) := by
  obtain h | h := Nat.lt_or_ge g.len (a + 4)
  · rw [memRead_of_lt h, readU32LE_of_lt h]
    rfl
  · rw [memRead_four h, readU32LE_of_le h]
    rfl

/-! ## The bits of a word -/

/-- A bit of a word is a bit of its low byte, or of its high byte from bit 8 on (20_memory.md R71). -/
theorem word_testBit (g : Config) (w i : Nat) : (g.word w).testBit i =
    if i < 8 then (g.byteAt (2 * w)).getLsbD i else (g.byteAt (2 * w + 1)).getLsbD (i - 8) := by
  rw [Config.word, Nat.add_comm]
  exact Nat.testBit_two_pow_mul_add _ (g.byteAt (2 * w)).isLt i

/-- Stream bit j of word w is the word's bit 15 - j (20_memory.md R73). -/
theorem bit_of_word (g : Config) (w : Nat) {j : Nat} (hj : j < 16) :
    g.bit (16 * w + j) = (g.word w).testBit (15 - j) := by
  rw [Config.bit, Nat.mul_add_div (by decide), Nat.div_eq_of_lt hj, Nat.mul_add_mod, Nat.mod_eq_of_lt hj, Nat.add_zero]

/-- The first eight bits of a word are its high byte's, the most-significant first (20_memory.md R75). -/
theorem bit_first_half (g : Config) (w : Nat) {k : Nat} (hk : k < 8) :
    g.bit (16 * w + k) = (g.byteAt (2 * w + 1)).getLsbD (7 - k) := by
  rw [bit_of_word g w (by omega), word_testBit, if_neg (by omega), show 15 - k - 8 = 7 - k by omega]

/-- The last eight bits of a word are its low byte's, the most-significant first (20_memory.md R75). -/
theorem bit_last_half (g : Config) (w : Nat) {k : Nat} (hk : k < 8) :
    g.bit (16 * w + 8 + k) = (g.byteAt (2 * w)).getLsbD (7 - k) := by
  rw [Nat.add_assoc, bit_of_word g w (by omega), word_testBit, if_pos (by omega), show 15 - (8 + k) = 7 - k by omega]

/-- Settles O14: at byte address a each raw read is the memory's read there, whether the bytes are in the input or not. -/
theorem rawReadsAreMemoryReads : Obligations.RawReadsAreMemoryReads := by
  intro g pos
  have byteAddress (h : pos % 8 = 0) : pos = 8 * (pos / 8) := by omega
  refine ⟨fun h => ⟨readRawByte_of_unaligned h, readU32LE_of_unaligned h⟩, fun h => ?rawByte, fun h => ?u32,
    fun _ => memRead_of_lt, fun _ => memRead_of_lt, fun _ => memRead_one, fun _ => memRead_four⟩
  case rawByte => simpa [← byteAddress h] using readRawByte_eq_memRead g (pos / 8)
  case u32 => simpa [← byteAddress h] using readU32LE_eq_memRead g (pos / 8)

/-- Settles O15: by the two halves of a word, and the raw byte at the word's address 2w, bit 16w. -/
theorem bitViewOfAWord : Obligations.BitViewOfAWord := by
  intro g w k hk
  refine ⟨rfl, bit_first_half g w hk, bit_last_half g w hk, fun h => ?_⟩
  have hpos : 8 * (2 * w) = 16 * w := by omega
  simpa only [hpos] using readRawByte_of_lt h

end Sys2Proof
end

section
/-! PROOFS. What a read of the stream answers is what stands there: fields, runs of fields and raw values are read exactly
where their encoding stands. -/

namespace Sys2Proof

/-! ## Encodings that stand in the stream -/

/-- The encoding stands at bit pos and ends at bit p. -/
def Encoding.spans (g : Config) (pos p : Nat) (e : Encoding) : Prop := e.standsAt g pos ∧ p = pos + e.size

@[simp] theorem spans_bits_nil {g : Config} {pos p : Nat} : (Encoding.bits []).spans g pos p ↔ p = pos := by
  simp [Encoding.spans, Encoding.standsAt, Encoding.size]

/-- Bits stand in the stream when the first one does, and the rest after it. -/
theorem spans_bits_cons {g : Config} {pos p : Nat} {b : Bool} {bs : List Bool} :
    (Encoding.bits (b :: bs)).spans g pos p ↔
      (pos < g.avail ∧ g.bit pos = b) ∧ (Encoding.bits bs).spans g (pos + 1) p := by
  have hshift (k : Nat) : pos + 1 + k = pos + (k + 1) := by omega
  simp only [Encoding.spans, Encoding.standsAt, Encoding.size, List.length_cons, and_assoc, hshift]
  constructor
  · rintro ⟨h, rfl⟩
    obtain ⟨hpos, hbit⟩ := h 0 (by omega)
    exact ⟨hpos, hbit, fun k hk => h (k + 1) (by omega), rfl⟩
  · rintro ⟨hpos, hbit, h, rfl⟩
    refine ⟨fun k hk => ?_, rfl⟩
    cases k with
    | zero => exact ⟨hpos, hbit⟩
    | succ k => exact h k (by omega)

/-- Bits in two parts stand one part after the other. -/
theorem spans_bits_append {g : Config} {pos p : Nat} {as bs : List Bool} :
    (Encoding.bits (as ++ bs)).spans g pos p ↔
      ∃ m, (Encoding.bits as).spans g pos m ∧ (Encoding.bits bs).spans g m p := by
  induction as generalizing pos with
  | nil => simp
  | cons a as ih => simp only [List.cons_append, spans_bits_cons, ih, and_assoc, exists_and_left]

theorem spans_bytes_nil {g : Config} {pos p : Nat} :
    (Encoding.bytes []).spans g pos p ↔ pos % 8 = 0 ∧ pos / 8 ≤ g.len ∧ p = pos := by
  simp [Encoding.spans, Encoding.standsAt, Encoding.size, and_assoc]

/-- Raw bytes stand in the input when the first one is read there, and the rest stand after it. -/
theorem spans_bytes_cons {g : Config} {pos p : Nat} {b : Byte} {bs : List Byte} :
    (Encoding.bytes (b :: bs)).spans g pos p ↔
      ∃ m, readRawByte g pos = .ok (b, m) ∧ (Encoding.bytes bs).spans g m p := by
  have hshift (k : Nat) : (pos + 8) / 8 + k = pos / 8 + (k + 1) := by omega
  simp only [Encoding.spans, Encoding.standsAt, Encoding.size, List.length_cons, readRawByte_ok, Prod.mk.injEq]
  constructor
  · rintro ⟨⟨ha, hlen, h⟩, rfl⟩
    refine ⟨pos + 8, ⟨ha, by omega, (h 0 (by omega)).symm, rfl⟩, ⟨by omega, by omega, fun k hk => ?_⟩, by omega⟩
    rw [hshift]
    exact h (k + 1) (by omega)
  · rintro ⟨_, ⟨ha, hlen, hb, rfl⟩, ⟨-, hrest, h⟩, rfl⟩
    refine ⟨⟨ha, by omega, fun k hk => ?_⟩, by omega⟩
    cases k with
    | zero => exact hb.symm
    | succ k =>
      rw [← hshift]
      exact h k (by omega)

/-! ## Fields -/

/-- Two numbers of a high part and n low bits are equal when their parts are. -/
theorem mul_two_pow_add_inj {n a b x y : Nat} (hx : x < 2 ^ n) (hy : y < 2 ^ n) :
    a * 2 ^ n + x = b * 2 ^ n + y ↔ a = b ∧ x = y := by
  refine ⟨fun h => ?_, by rintro ⟨rfl, rfl⟩; rfl⟩
  have hlow := congrArg (· % 2 ^ n) h
  simp only [Nat.mul_add_mod_self_right, Nat.mod_eq_of_lt hx, Nat.mod_eq_of_lt hy] at hlow
  exact ⟨Nat.eq_of_mul_eq_mul_right (Nat.two_pow_pos n) (by omega), hlow⟩

/-- The n low bits of v stand at pos exactly where n bits remain and are v's. -/
theorem spans_fieldBits {g : Config} {pos p v n : Nat} :
    (Encoding.bits (fieldBits v n)).spans g pos p ↔
      (n = 0 ∨ pos + n ≤ g.avail) ∧ g.gather pos n = v % 2 ^ n ∧ p = pos + n := by
  induction n generalizing pos with
  | zero => simp [fieldBits, Config.gather, Nat.mod_one]
  | succ n ih =>
    have hlow : v % 2 ^ n < 2 ^ n := Nat.mod_lt _ (Nat.two_pow_pos n)
    have hgather : g.gather pos (n + 1) = (g.bit pos).toNat * 2 ^ n + g.gather (pos + 1) n := by
      rw [Nat.add_comm n 1, gather_add]
      simp [Config.gather]
    have hmod : v % 2 ^ (n + 1) = (v.testBit n).toNat * 2 ^ n + v % 2 ^ n := by
      rw [Nat.mod_pow_succ, Nat.toNat_testBit, Nat.add_comm, Nat.mul_comm]
    have hbit : (g.bit pos).toNat = (v.testBit n).toNat ↔ g.bit pos = v.testBit n := by
      cases g.bit pos <;> cases v.testBit n <;> decide
    rw [fieldBits, spans_bits_cons, ih, hgather, hmod, mul_two_pow_add_inj (gather_lt g _ n) hlow, hbit]
    constructor
    · rintro ⟨⟨hpos, hb⟩, ha, hg, rfl⟩
      exact ⟨by omega, ⟨hb, hg⟩, by omega⟩
    · rintro ⟨ha, ⟨hb, hg⟩, rfl⟩
      exact ⟨⟨by omega, hb⟩, by omega, hg, by omega⟩

/-- ReadBits answers v exactly where v stands as a field of n bits (40_bitstream_reader.md R142). -/
theorem readBits_ok_iff_spans {g : Config} {pos n v p : Nat} (hn : n ≠ 0) :
    readBits g pos n = .ok (v, p) ↔ v < 2 ^ n ∧ (Encoding.bits (fieldBits v n)).spans g pos p := by
  rw [readBits_ok, spans_fieldBits, Prod.mk.injEq, or_iff_right hn]
  constructor
  · rintro ⟨ha, rfl, rfl⟩
    exact ⟨gather_lt g pos n, ha, (Nat.mod_eq_of_lt (gather_lt g pos n)).symm, rfl⟩
  · rintro ⟨hv, ha, hg, rfl⟩
    exact ⟨ha, by rw [hg, Nat.mod_eq_of_lt hv], rfl⟩

/-- ReadField of a width above 0 is one read of the whole field (40_bitstream_reader.md R144). -/
theorem readField_eq_readBits {g : Config} {pos n : Nat} (hn : n ≠ 0) : readField g pos n = readBits g pos n := by
  rw [readField, if_neg hn]
  split
  · next ha => exact (readBits_error.2 ⟨ha, rfl⟩).symm
  · next ha =>
    split
    · next h16 =>
      obtain ⟨k, rfl⟩ : ∃ k, n = 16 + k := ⟨n - 16, by omega⟩
      have hhi : readBits g pos 16 = .ok (g.gather pos 16, pos + 16) := readBits_ok.2 ⟨by omega, rfl⟩
      have hlo : readBits g (pos + 16) k = .ok (g.gather (pos + 16) k, pos + 16 + k) := readBits_ok.2 ⟨by omega, rfl⟩
      have hall : readBits g pos (16 + k) = .ok (g.gather pos 16 * 2 ^ k + g.gather (pos + 16) k, pos + 16 + k) :=
        readBits_ok.2 ⟨by omega, by rw [gather_add, Nat.add_assoc]⟩
      rw [Nat.add_sub_cancel_left, hall]
      exact except_bind_ok.2 ⟨_, hhi, except_bind_ok.2 ⟨_, hlo, rfl⟩⟩
    · rfl

/-- ReadField answers v exactly where v stands as a field of n bits (40_bitstream_reader.md R144). -/
theorem readField_ok_iff_spans {g : Config} {pos n v p : Nat} :
    readField g pos n = .ok (v, p) ↔ v < 2 ^ n ∧ (Encoding.bits (fieldBits v n)).spans g pos p := by
  by_cases hn : n = 0
  · subst hn
    simp [readField, fieldBits, eq_comm]
  · rw [readField_eq_readBits hn, readBits_ok_iff_spans hn]

/-! ## Runs of fields and raw values -/

/-- A run of fields is read exactly where its values stand one after the other (30_encoding.md R105, R106). -/
theorem readRun_ok_iff_spans {g : Config} {w n pos p : Nat} {ls : List Nat} (hw : w ≠ 0) :
    readRun g w pos n = .ok (ls, p) ↔
      ls.length = n ∧ (∀ l ∈ ls, l < 2 ^ w) ∧ (Encoding.bits (ls.flatMap fun l => fieldBits l w)).spans g pos p := by
  induction n generalizing pos ls with
  | zero =>
    rw [List.length_eq_zero_iff]
    constructor
    · rintro ⟨⟩
      simp
    · rintro ⟨rfl, -, h⟩
      rw [spans_bits_nil.1 h]
      rfl
  | succ n ih =>
    constructor
    · intro h
      obtain ⟨⟨v, q⟩, hv, h⟩ := except_bind_ok.1 h
      obtain ⟨⟨vs, r⟩, hvs, h⟩ := except_bind_ok.1 h
      cases h
      obtain ⟨hlt, hspan⟩ := (readBits_ok_iff_spans hw).1 hv
      obtain ⟨hlen, hlts, hspans⟩ := ih.1 hvs
      exact ⟨by simp [hlen], List.forall_mem_cons.2 ⟨hlt, hlts⟩, spans_bits_append.2 ⟨q, hspan, hspans⟩⟩
    · rintro ⟨hlen, hlts, hspans⟩
      cases ls with
      | nil => cases hlen
      | cons l ls =>
        obtain ⟨hlt, hlts⟩ := List.forall_mem_cons.1 hlts
        obtain ⟨q, hspan, hspans⟩ := spans_bits_append.1 hspans
        exact except_bind_ok.2 ⟨_, (readBits_ok_iff_spans hw).2 ⟨hlt, hspan⟩,
          except_bind_ok.2 ⟨_, ih.2 ⟨by simpa using hlen, hlts, hspans⟩, rfl⟩⟩

/-- Four bytes side by side, the last one first, are the raw value they are the bytes of. -/
theorem u32Bytes_append (b0 b1 b2 b3 : Byte) : u32Bytes (b3 ++ b2 ++ b1 ++ b0) = [b0, b1, b2, b3] := by
  have byte_eq {s : Nat} {v : U32} {b : Byte} (h : v.toNat / 2 ^ s % 2 ^ 8 = b.toNat) : v.extractLsb' s 8 = b :=
    BitVec.eq_of_toNat_eq (by rw [BitVec.extractLsb'_toNat, Nat.shiftRight_eq_div_pow, h])
  have hv : (b3 ++ b2 ++ b1 ++ b0).toNat = 2 ^ 24 * b3.toNat + 2 ^ 16 * b2.toNat + 2 ^ 8 * b1.toNat + b0.toNat := by
    simp only [append_toNat]
    omega
  rw [u32Bytes, byte_eq (b := b0), byte_eq (b := b1), byte_eq (b := b2), byte_eq (b := b3)] <;> rw [hv] <;> omega

/-- A raw value is its bytes side by side, the last one first. -/
theorem append_u32Bytes (v : U32) :
    v.extractLsb' 24 8 ++ v.extractLsb' 16 8 ++ v.extractLsb' 8 8 ++ v.extractLsb' 0 8 = v := by
  rw [BitVec.extractLsb'_append_extractLsb'_eq_extractLsb' (show 24 = 16 + 8 from rfl),
    BitVec.extractLsb'_append_extractLsb'_eq_extractLsb' (show 16 = 8 + 8 from rfl),
    BitVec.extractLsb'_append_extractLsb'_eq_extractLsb' (show 8 = 0 + 8 from rfl)]
  exact BitVec.extractLsb'_eq_self

/-- A raw 32-bit value is read exactly where its four bytes stand (40_bitstream_reader.md R149). -/
theorem spans_u32Bytes_append {g : Config} {pos p : Nat} {v : U32} {bs : List Byte} :
    (Encoding.bytes (u32Bytes v ++ bs)).spans g pos p ↔
      ∃ m, readU32LE g pos = .ok (v, m) ∧ (Encoding.bytes bs).spans g m p := by
  constructor
  · intro h
    obtain ⟨p0, h0, h⟩ := spans_bytes_cons.1 h
    obtain ⟨p1, h1, h⟩ := spans_bytes_cons.1 h
    obtain ⟨p2, h2, h⟩ := spans_bytes_cons.1 h
    obtain ⟨p3, h3, h⟩ := spans_bytes_cons.1 h
    refine ⟨p3, ?_, h⟩
    refine except_bind_ok.2 ⟨_, h0, except_bind_ok.2 ⟨_, h1, except_bind_ok.2 ⟨_, h2, except_bind_ok.2 ⟨_, h3, ?_⟩⟩⟩⟩
    exact congrArg (fun u => Except.ok (u, p3)) (append_u32Bytes v)
  · rintro ⟨m, hv, h⟩
    obtain ⟨⟨b0, p0⟩, h0, hv⟩ := except_bind_ok.1 hv
    obtain ⟨⟨b1, p1⟩, h1, hv⟩ := except_bind_ok.1 hv
    obtain ⟨⟨b2, p2⟩, h2, hv⟩ := except_bind_ok.1 hv
    obtain ⟨⟨b3, p3⟩, h3, hv⟩ := except_bind_ok.1 hv
    cases hv
    rw [u32Bytes_append]
    simp only [List.cons_append, List.nil_append, spans_bytes_cons]
    exact ⟨p0, h0, p1, h1, p2, h2, m, h3, h⟩

end Sys2Proof
end

section
/-! PROOFS. The codes Build assigns are canonical, none begins another, and Decode answers a symbol exactly where
its code stands. -/

namespace Sys2Proof

/-! ## The codes of a built tree -/

/-- The codes assigned from symbol k on: one for each used symbol, counted up from `next` of its length
(41_huffman.md R173). -/
theorem mem_assignCodes {next lens : List Nat} {k : Nat} {e : Code} (hnext : ∀ l ∈ lens, l < next.length) :
    e ∈ assignCodes next k lens ↔
      ∃ i, e.sym = k + i ∧ lens[i]? = some e.len ∧ e.len ≠ 0 ∧ e.code = next.getD e.len 0 + (lens.take i).count e.len := by
  induction lens generalizing next k with
  | nil => simp [assignCodes]
  | cons l rest ih =>
    obtain ⟨hl, hrest⟩ := List.forall_mem_cons.1 hnext
    have hshift (i : Nat) : k + 1 + i = k + (i + 1) := by omega
    rw [assignCodes, ← Nat.or_exists_add_one]
    simp only [List.getElem?_cons_zero, List.getElem?_cons_succ, List.take_succ_cons, List.take_zero, List.count_nil]
    split
    · next hzero =>
      rw [ih hrest, or_iff_right (by rintro ⟨-, hlen, hne, -⟩; exact hne (hzero ▸ (Option.some.inj hlen).symm))]
      refine exists_congr fun i => ?_
      rw [hshift]
      refine and_congr_right fun _ => and_congr_right fun _ => and_congr_right fun hne => ?_
      rw [List.count_cons_of_ne (by omega)]
    · next hne =>
      rw [List.mem_cons, ih (by simpa using hrest)]
      refine or_congr ?_ (exists_congr fun i => ?_)
      · cases e
        simp only [Code.mk.injEq, Option.some.injEq, Nat.add_zero]
        constructor
        · rintro ⟨rfl, rfl, rfl⟩
          exact ⟨rfl, rfl, hne, rfl⟩
        · rintro ⟨rfl, rfl, -, rfl⟩
          exact ⟨rfl, rfl, rfl⟩
      · rw [hshift]
        refine and_congr_right fun _ => and_congr_right fun _ => and_congr_right fun _ => ?_
        by_cases heq : l = e.len
        · rw [← heq, List.count_cons_self, List.getD_eq_getElem?_getD, List.getElem?_set_self hl]
          simp only [Option.getD_some, Nat.add_assoc, Nat.add_comm 1]
        · rw [List.count_cons_of_ne heq, List.getD_eq_getElem?_getD, List.getElem?_set_ne heq,
            ← List.getD_eq_getElem?_getD]

/-- `next` before any symbol is assigned. -/
theorem firstCodes_getD (lens : List Nat) {l : Nat} (hl : l ≤ 16) : (firstCodes lens).getD l 0 = firstCode lens l := by
  simp [firstCodes, List.getD_eq_getElem?_getD, show l < 17 by omega]

/-- The codes of length l + 1 begin past those of length l (41_huffman.md R173). -/
theorem firstCode_succ (lens : List Nat) {l : Nat} (hl : l ≠ 0) :
    firstCode lens (l + 1) = 2 * (firstCode lens l + lens.count l) := by
  cases l with
  | zero => exact absurd rfl hl
  | succ l => rfl

/-- The codes of a longer length begin past every continuation of a code of length l. -/
theorem firstCode_add_count_mul_le (lens : List Nat) {l l' : Nat} (hl : l ≠ 0) (hlt : l < l') :
    (firstCode lens l + lens.count l) * 2 ^ (l' - l) ≤ firstCode lens l' := by
  obtain ⟨k, rfl⟩ : ∃ k, l' = l + 1 + k := ⟨l' - (l + 1), by omega⟩
  rw [show l + 1 + k - l = k + 1 by omega]
  clear hlt
  induction k with
  | zero =>
    rw [Nat.add_zero, firstCode_succ lens hl]
    omega
  | succ k ih =>
    rw [← Nat.add_assoc, firstCode_succ lens (by omega), Nat.pow_succ, ← Nat.mul_assoc]
    omega

@[simp] theorem kraft_nil : kraft [] = 0 := rfl

@[simp] theorem kraft_cons (a : Nat) (lens : List Nat) :
    kraft (a :: lens) = (if a = 0 then 0 else 2 ^ (16 - a)) + kraft lens := by
  simp [kraft]

/-- Unused symbols have no part in the Kraft sum (41_huffman.md R171). -/
theorem kraft_filter_zero (lens : List Nat) : kraft (lens.filter (· ≤ 0)) = 0 := by
  induction lens with
  | nil => simp
  | cons a rest ih => cases a <;> simpa using ih

/-- The Kraft sum of the lengths up to l + 1. -/
theorem kraft_filter_succ (lens : List Nat) (l : Nat) :
    kraft (lens.filter (· ≤ l + 1)) = kraft (lens.filter (· ≤ l)) + lens.count (l + 1) * 2 ^ (16 - (l + 1)) := by
  induction lens with
  | nil => simp
  | cons a rest ih =>
    obtain hlt | rfl | hgt := Nat.lt_trichotomy a (l + 1)
    · rw [List.filter_cons_of_pos (by simp; omega), List.filter_cons_of_pos (by simp; omega),
        List.count_cons_of_ne (by omega), kraft_cons, kraft_cons, ih, Nat.add_assoc]
    · rw [List.filter_cons_of_pos (by simp), List.filter_cons_of_neg (by simp), List.count_cons_self, kraft_cons, ih,
        if_neg (by omega), Nat.succ_mul]
      omega
    · rw [List.filter_cons_of_neg (by simp; omega), List.filter_cons_of_neg (by simp; omega),
        List.count_cons_of_ne (by omega), ih]

/-- The codes of length l end, scaled to 16 bits, at the Kraft sum of the lengths up to l (41_huffman.md R171). -/
theorem firstCode_add_count_mul_eq_kraft (lens : List Nat) {l : Nat} (h16 : l < 16) :
    (firstCode lens (l + 1) + lens.count (l + 1)) * 2 ^ (16 - (l + 1)) = kraft (lens.filter (· ≤ l + 1)) := by
  induction l with
  | zero => rw [kraft_filter_succ, kraft_filter_zero, Nat.zero_add]; simp [firstCode]
  | succ l ih =>
    rw [kraft_filter_succ, ← ih (by omega), firstCode_succ lens (by omega), Nat.add_mul,
      show 16 - (l + 1) = 16 - (l + 1 + 1) + 1 by omega, Nat.pow_succ, Nat.mul_comm 2, Nat.mul_assoc, Nat.mul_comm 2]

/-- A part of an array has no more than its Kraft sum. -/
theorem kraft_filter_le (lens : List Nat) (f : Nat → Bool) : kraft (lens.filter f) ≤ kraft lens := by
  induction lens with
  | nil => exact Nat.le_refl _
  | cons a rest ih =>
    rw [List.filter_cons]
    split
    · rw [kraft_cons, kraft_cons]
      exact Nat.add_le_add_left ih _
    · rw [kraft_cons]
      exact Nat.le_trans ih (Nat.le_add_left ..)

/-- The codes of a length fit in it where the Kraft sum does (41_huffman.md R172). -/
theorem firstCode_add_count_le_two_pow {lens : List Nat} {l : Nat} (hk : kraft lens ≤ 2 ^ 16) (hl : l ≠ 0) (h16 : l ≤ 16) :
    firstCode lens l + lens.count l ≤ 2 ^ l := by
  obtain ⟨m, rfl⟩ := Nat.exists_eq_succ_of_ne_zero hl
  have hle := Nat.le_trans (kraft_filter_le lens (· ≤ m + 1)) hk
  rw [← firstCode_add_count_mul_eq_kraft lens (by omega), show 2 ^ 16 = 2 ^ (m + 1) * 2 ^ (16 - (m + 1)) by
    rw [← Nat.pow_add]; congr 1; omega] at hle
  exact Nat.le_of_mul_le_mul_right hle (Nat.two_pow_pos _)

/-- Before a later symbol, more symbols have the length. -/
theorem count_take_lt {lens : List Nat} {i j l : Nat} (hi : lens[i]? = some l) (hij : i < j) :
    (lens.take i).count l < (lens.take j).count l := by
  have hstep : (lens.take (i + 1)).count l = (lens.take i).count l + 1 := by
    rw [List.take_add_one, hi, List.count_append]
    simp
  have hle := (List.take_sublist_take_left (l := lens) (show i + 1 ≤ j from hij)).count_le l
  omega

/-- What Decode relies on in a tree: no code is empty, longer than LMAX or outside its length, none begins another,
and a symbol has one code only. -/
structure Tree.Decodable (t : Tree) : Prop where
  len_ne_zero : ∀ e ∈ t.codes, e.len ≠ 0
  len_le_lmax : ∀ e ∈ t.codes, e.len ≤ t.lmax
  code_lt : ∀ e ∈ t.codes, e.code < 2 ^ e.len
  eq_of_begins : ∀ e ∈ t.codes, ∀ e' ∈ t.codes, e.len ≤ e'.len → e'.code / 2 ^ (e'.len - e.len) = e.code → e = e'
  sym_inj : ∀ e ∈ t.codes, ∀ e' ∈ t.codes, e.sym = e'.sym → e = e'

/-- A code of the array: that of a used symbol, counted from the first code of its length (41_huffman.md R173). -/
structure Code.CanonicalIn (lens : List Nat) (e : Code) : Prop where
  len_of_sym : lens[e.sym]? = some e.len
  len_ne_zero : e.len ≠ 0
  code_eq : e.code = firstCode lens e.len + (lens.take e.sym).count e.len

/-- Build gives each used symbol its canonical code, and nothing else (41_huffman.md R173). -/
theorem mem_codes_of_buildTree {lens : List Nat} {t : Tree} {e : Code} (h16 : ∀ l ∈ lens, l ≤ maxCodeLen)
    (hb : buildTree lens = .ok t) : e ∈ t.codes ↔ e.CanonicalIn lens := by
  obtain ⟨-, rfl⟩ := buildTree_ok hb
  have hnext : ∀ l ∈ lens, l < (firstCodes lens).length := by
    simpa [firstCodes, Nat.lt_succ_iff, maxCodeLen] using h16
  have hfirst (hlen : lens[e.sym]? = some e.len) : (firstCodes lens).getD e.len 0 = firstCode lens e.len :=
    firstCodes_getD lens (h16 _ (List.mem_of_getElem? hlen))
  simp only [mem_assignCodes hnext, Nat.zero_add, exists_eq_left']
  constructor
  · rintro ⟨hlen, hne, hcode⟩
    exact ⟨hlen, hne, hfirst hlen ▸ hcode⟩
  · rintro ⟨hlen, hne, hcode⟩
    exact ⟨hlen, hne, (hfirst hlen).symm ▸ hcode⟩

/-- A canonical code ends before the codes of its length do. -/
theorem Code.CanonicalIn.lt_firstCode_add_count {lens : List Nat} {e : Code} (h : e.CanonicalIn lens) :
    e.code < firstCode lens e.len + lens.count e.len := by
  obtain ⟨hlen, -, hcode⟩ := h
  have hlt := count_take_lt hlen (List.getElem?_eq_some_iff.1 hlen).1
  rw [List.take_length] at hlt
  omega

/-- A canonical code is fixed by its symbol. -/
theorem Code.CanonicalIn.eq_of_sym {lens : List Nat} {e e' : Code} (h : e.CanonicalIn lens) (h' : e'.CanonicalIn lens)
    (hsym : e.sym = e'.sym) : e = e' := by
  obtain ⟨hlen, -, hcode⟩ := h
  obtain ⟨hlen', -, hcode'⟩ := h'
  cases e
  cases e'
  cases hsym
  cases hlen.symm.trans hlen'
  cases hcode.trans hcode'.symm
  rfl

/-- No canonical code begins another (41_huffman.md R175). -/
theorem Code.CanonicalIn.eq_of_begins {lens : List Nat} {e e' : Code} (h : e.CanonicalIn lens)
    (h' : e'.CanonicalIn lens) (hle : e.len ≤ e'.len) (hp : e'.code / 2 ^ (e'.len - e.len) = e.code) : e = e' := by
  obtain hlt | heq := Nat.lt_or_eq_of_le hle
  · have hend : firstCode lens e.len + lens.count e.len ≤ e.code := by
      rw [← hp, Nat.le_div_iff_mul_le (Nat.two_pow_pos _)]
      have hfirst := firstCode_add_count_mul_le lens h.len_ne_zero hlt
      have hcode := h'.code_eq
      omega
    exact absurd h.lt_firstCode_add_count (by omega)
  · refine h.eq_of_sym h' ?_
    obtain ⟨hlen, -, hcode⟩ := h
    obtain ⟨hlen', -, hcode'⟩ := h'
    rw [heq] at hlen hcode hp
    rw [Nat.sub_self, Nat.pow_zero, Nat.div_one] at hp
    obtain hlt | hsym | hlt := Nat.lt_trichotomy e.sym e'.sym
    · exact absurd (count_take_lt hlen hlt) (by omega)
    · exact hsym
    · exact absurd (count_take_lt hlen' hlt) (by omega)

/-- A maximum taken from the left is at least where it starts and every element. -/
theorem le_foldl_max (lens : List Nat) (start : Nat) :
    start ≤ lens.foldl max start ∧ ∀ l ∈ lens, l ≤ lens.foldl max start := by
  induction lens generalizing start with
  | nil => exact ⟨Nat.le_refl _, fun _ h => (nomatch h)⟩
  | cons a rest ih =>
    obtain ⟨hstart, hrest⟩ := ih (max start a)
    rw [List.foldl_cons]
    exact ⟨Nat.le_trans (Nat.le_max_left ..) hstart,
      List.forall_mem_cons.2 ⟨Nat.le_trans (Nat.le_max_right ..) hstart, hrest⟩⟩

/-- Decode can rely on a tree that Build made. -/
theorem buildTree_decodable {lens : List Nat} {t : Tree} (h16 : ∀ l ∈ lens, l ≤ maxCodeLen)
    (hb : buildTree lens = .ok t) : t.Decodable := by
  have hcanon {e : Code} : e ∈ t.codes → e.CanonicalIn lens := (mem_codes_of_buildTree h16 hb).1
  have hmem {e : Code} (he : e ∈ t.codes) : e.len ∈ lens := List.mem_of_getElem? (hcanon he).len_of_sym
  obtain ⟨hk, rfl⟩ := buildTree_ok hb
  exact
    { len_ne_zero := fun e he => (hcanon he).len_ne_zero
      len_le_lmax := fun e he => (le_foldl_max lens 0).2 _ (hmem he)
      code_lt := fun e he =>
        Nat.lt_of_lt_of_le (hcanon he).lt_firstCode_add_count
          (firstCode_add_count_le_two_pow hk (hcanon he).len_ne_zero (h16 _ (hmem he)))
      eq_of_begins := fun e he e' he' => (hcanon he).eq_of_begins (hcanon he')
      sym_inj := fun e he e' he' => (hcanon he).eq_of_sym (hcanon he') }

/-! ## Decode -/

/-- The symbol found is that of the code looked for (41_huffman.md R178). -/
theorem lookup_of_mem {t : Tree} {e : Code} (ht : t.Decodable) (he : e ∈ t.codes) :
    t.lookup e.len e.code = some e.sym := by
  cases hl : t.lookup e.len e.code with
  | none =>
    simp only [Tree.lookup, Option.map_eq_none_iff, List.find?_eq_none] at hl
    exact absurd (hl e he) (by simp)
  | some s =>
    obtain ⟨e', he', hlen, hcode, rfl⟩ := lookup_some hl
    rw [ht.eq_of_begins e he e' he' (by omega) (by simp [hlen, hcode])]

/-- One round of the loop of Decode, after the first l bits at pos (41_huffman.md R178). -/
theorem decodeLoop_succ_ok {g : Config} {t : Tree} {fuel l pos : Nat} {r : Nat × Nat} :
    decodeLoop g t (fuel + 1) l (g.gather pos l) (pos + l) = .ok r ↔
      pos + (l + 1) ≤ g.avail ∧
        ((∃ s, t.lookup (l + 1) (g.gather pos (l + 1)) = some s ∧ r = (s, pos + (l + 1)))
          ∨ t.lookup (l + 1) (g.gather pos (l + 1)) = none
              ∧ decodeLoop g t fuel (l + 1) (g.gather pos (l + 1)) (pos + (l + 1)) = .ok r) := by
  have hvalue : 2 * g.gather pos l + g.gather (pos + l) 1 = g.gather pos (l + 1) := by simp [Config.gather]
  rw [decodeLoop, except_bind_ok]
  simp only [readBits_ok, and_assoc, exists_and_left, exists_eq_left, hvalue, Nat.add_assoc]
  refine and_congr_right fun _ => ?_
  cases t.lookup (l + 1) (g.gather pos (l + 1)) with
  | none => simp
  | some s => simp [pure, Except.pure, eq_comm]

/-- A symbol that the loop of Decode answers has its code at pos (41_huffman.md R178). -/
theorem decodeLoop_code_stands {g : Config} {t : Tree} {fuel l pos s p : Nat}
    (h : decodeLoop g t fuel l (g.gather pos l) (pos + l) = .ok (s, p)) :
    ∃ e ∈ t.codes, e.sym = s ∧ g.gather pos e.len = e.code ∧ pos + e.len ≤ g.avail ∧ p = pos + e.len := by
  induction fuel generalizing l with
  | zero => cases h
  | succ fuel ih =>
    obtain ⟨ha, ⟨s', hs, hr⟩ | ⟨-, h⟩⟩ := decodeLoop_succ_ok.1 h
    · cases hr
      obtain ⟨e, he, hlen, hcode, hsym⟩ := lookup_some hs
      exact ⟨e, he, hsym, by rw [hlen, hcode], by rw [hlen]; exact ha, by rw [hlen]⟩
    · exact ih h

/-- The loop of Decode comes to the code that stands at pos, and meets no other on the way (41_huffman.md R175, R178). -/
theorem decodeLoop_of_code {g : Config} {t : Tree} {fuel l pos : Nat} {e : Code} (ht : t.Decodable) (he : e ∈ t.codes)
    (hg : g.gather pos e.len = e.code) (ha : pos + e.len ≤ g.avail) (hl : l < e.len) (hfuel : e.len ≤ l + fuel) :
    decodeLoop g t fuel l (g.gather pos l) (pos + l) = .ok (e.sym, pos + e.len) := by
  induction fuel generalizing l with
  | zero => omega
  | succ fuel ih =>
    refine decodeLoop_succ_ok.2 ⟨by omega, ?_⟩
    obtain heq | hlt := Nat.eq_or_lt_of_le hl
    · have heq : l + 1 = e.len := heq
      exact .inl ⟨e.sym, by rw [heq, hg]; exact lookup_of_mem ht he, by rw [heq]⟩
    · refine .inr ⟨?_, ih hlt (by omega)⟩
      cases hs : t.lookup (l + 1) (g.gather pos (l + 1)) with
      | none => rfl
      | some s =>
        obtain ⟨e', he', hlen, hcode, -⟩ := lookup_some hs
        have hbegins : e.code / 2 ^ (e.len - e'.len) = e'.code := by
          obtain ⟨k, hk⟩ : ∃ k, e.len = e'.len + k := ⟨e.len - e'.len, by omega⟩
          rw [← hg, hk, gather_add, Nat.add_sub_cancel_left, Nat.add_comm, Nat.add_mul_div_right _ _ (Nat.two_pow_pos k),
            Nat.div_eq_of_lt (gather_lt g _ k), Nat.zero_add, hcode, hlen]
        have := ht.eq_of_begins e' he' e he (by omega) hbegins
        subst this
        omega

/-- The bits of a symbol are those of its code (41_huffman.md R174). -/
theorem codeBits_eq_some_iff {t : Tree} {s : Nat} {bs : List Bool} (ht : t.Decodable) :
    t.codeBits s = some bs ↔ ∃ e ∈ t.codes, e.sym = s ∧ fieldBits e.code e.len = bs := by
  rw [Tree.codeBits, Option.map_eq_some_iff]
  constructor
  · rintro ⟨e, hfind, rfl⟩
    exact ⟨e, List.mem_of_find?_eq_some hfind, by simpa using List.find?_some hfind, rfl⟩
  · rintro ⟨e, he, rfl, rfl⟩
    cases hfind : t.codes.find? fun e' => e'.sym == e.sym with
    | none => exact absurd (List.find?_eq_none.1 hfind e he) (by simp)
    | some e' =>
      rw [ht.sym_inj e' (List.mem_of_find?_eq_some hfind) e he (by simpa using List.find?_some hfind)]
      exact ⟨e, rfl, rfl⟩

/-- The bits of a code stand at pos exactly where they are read as its value (41_huffman.md R174). -/
theorem spans_codeBits {g : Config} {t : Tree} {e : Code} {pos p : Nat} (ht : t.Decodable) (he : e ∈ t.codes) :
    (Encoding.bits (fieldBits e.code e.len)).spans g pos p ↔
      g.gather pos e.len = e.code ∧ pos + e.len ≤ g.avail ∧ p = pos + e.len := by
  rw [spans_fieldBits, Nat.mod_eq_of_lt (ht.code_lt e he), or_iff_right (ht.len_ne_zero e he), and_left_comm]

/-- Decode answers a symbol exactly where its code stands (41_huffman.md R178). -/
theorem decodeSymbol_ok_iff_spans {g : Config} {t : Tree} {pos s p : Nat} (ht : t.Decodable) :
    decodeSymbol g (some t) pos = .ok (s, p) ↔ ∃ bs, t.codeBits s = some bs ∧ (Encoding.bits bs).spans g pos p := by
  simp only [codeBits_eq_some_iff ht, decodeSymbol]
  constructor
  · intro h
    obtain ⟨e, he, hsym, hstands⟩ := decodeLoop_code_stands (l := 0) h
    exact ⟨_, ⟨e, he, hsym, rfl⟩, (spans_codeBits ht he).2 hstands⟩
  · rintro ⟨_, ⟨e, he, rfl, rfl⟩, hspan⟩
    obtain ⟨hg, ha, rfl⟩ := (spans_codeBits ht he).1 hspan
    exact decodeLoop_of_code (l := 0) ht he hg ha (Nat.pos_of_ne_zero (ht.len_ne_zero e he))
      (by simpa using ht.len_le_lmax e he)

end Sys2Proof
end

section
/-! PROOFS. Decode and encode agree: a format's decoder answers an element exactly where the element is well formed and its
encoding stands. -/

namespace Sys2Proof

/-! ## The parts of an encoding, and the reads that answer them -/

/-- A field in front of an encoding is read before the rest of it. -/
theorem spans_field_append {g : Config} {pos p v n : Nat} {bs : List Bool} (hn : n ≠ 0) (hv : v < 2 ^ n) :
    (Encoding.bits (fieldBits v n ++ bs)).spans g pos p ↔
      ∃ q, readBits g pos n = .ok (v, q) ∧ (Encoding.bits bs).spans g q p := by
  simp only [spans_bits_append, readBits_ok_iff_spans hn, hv, true_and]

/-- A bit in front of an encoding is a flag that is read before the rest of it. -/
theorem spans_flag_cons {g : Config} {pos p : Nat} {b : Bool} {bs : List Bool} :
    (Encoding.bits (b :: bs)).spans g pos p ↔
      ∃ q, readBits g pos 1 = .ok (b.toNat, q) ∧ (Encoding.bits bs).spans g q p := by
  have hflag : b :: bs = fieldBits b.toNat 1 ++ bs := by cases b <;> rfl
  rw [hflag, spans_field_append Nat.one_ne_zero (Bool.toNat_lt b)]

/-- A flag that is read is 0 or 1, and a bit in front of the encoding that stands after it. -/
theorem flag_cases {g : Config} {pos b q : Nat} (h : readBits g pos 1 = .ok (b, q)) :
    (b = 0 ∧ ∀ {bs p}, (Encoding.bits bs).spans g q p → (Encoding.bits (false :: bs)).spans g pos p)
      ∨ (b = 1 ∧ ∀ {bs p}, (Encoding.bits bs).spans g q p → (Encoding.bits (true :: bs)).spans g pos p) := by
  obtain ⟨hlt, -⟩ := (readBits_ok_iff_spans Nat.one_ne_zero).1 h
  obtain rfl | rfl : b = 0 ∨ b = 1 := by omega
  · exact .inl ⟨rfl, fun hspan => spans_flag_cons.2 ⟨q, h, hspan⟩⟩
  · exact .inr ⟨rfl, fun hspan => spans_flag_cons.2 ⟨q, h, hspan⟩⟩

/-- A value of n bits, held in m ≥ n bits, stands exactly where ReadField answers it. -/
theorem spans_iff_readField {g : Config} {pos p n m : Nat} {x : BitVec m} (hnm : n ≤ m) :
    x.toNat < 2 ^ n ∧ (Encoding.bits (fieldBits x.toNat n)).spans g pos p ↔
      ∃ v, readField g pos n = .ok (v, p) ∧ BitVec.ofNat m v = x := by
  rw [← readField_ok_iff_spans]
  constructor
  · exact fun h => ⟨_, h, by simp⟩
  · rintro ⟨v, hv, rfl⟩
    have hlt : v < 2 ^ m := Nat.lt_of_lt_of_le (readField_ok_iff_spans.1 hv).1 (Nat.pow_le_pow_right (by decide) hnm)
    rwa [BitVec.toNat_ofNat, Nat.mod_eq_of_lt hlt]

/-- A value of n bits, held in m ≥ n bits, stands exactly where ReadBits answers it. -/
theorem spans_iff_readBits {g : Config} {pos p n m : Nat} {x : BitVec m} (hn : n ≠ 0) (hnm : n ≤ m) :
    x.toNat < 2 ^ n ∧ (Encoding.bits (fieldBits x.toNat n)).spans g pos p ↔
      ∃ v, readBits g pos n = .ok (v, p) ∧ BitVec.ofNat m v = x := by
  rw [spans_iff_readField hnm, readField_eq_readBits hn]

/-- A word of n bits stands exactly where ReadField answers it. -/
theorem spans_word_iff_readField {g : Config} {pos p n : Nat} {x : BitVec n} :
    (Encoding.bits (fieldBits x.toNat n)).spans g pos p ↔ ∃ v, readField g pos n = .ok (v, p) ∧ BitVec.ofNat n v = x := by
  rw [← spans_iff_readField (Nat.le_refl n), and_iff_right x.isLt]

/-- A word of n bits stands exactly where ReadBits answers it. -/
theorem spans_word_iff_readBits {g : Config} {pos p n : Nat} {x : BitVec n} (hn : n ≠ 0) :
    (Encoding.bits (fieldBits x.toNat n)).spans g pos p ↔ ∃ v, readBits g pos n = .ok (v, p) ∧ BitVec.ofNat n v = x := by
  rw [spans_word_iff_readField, readField_eq_readBits hn]

/-- A run of values of w bits, each held in m ≥ w bits, stands exactly where the run is read. -/
theorem spans_iff_readRun {g : Config} {pos p n w m : Nat} {xs : List (BitVec m)} (hw : w ≠ 0) (hwm : w ≤ m) :
    (xs.length = n ∧ (∀ x ∈ xs, x.toNat < 2 ^ w)
        ∧ (Encoding.bits (xs.flatMap fun x => fieldBits x.toNat w)).spans g pos p) ↔
      ∃ ls, readRun g w pos n = .ok (ls, p) ∧ ls.map (BitVec.ofNat m) = xs := by
  have hread : readRun g w pos n = .ok (xs.map BitVec.toNat, p) ↔ xs.length = n ∧ (∀ x ∈ xs, x.toNat < 2 ^ w)
      ∧ (Encoding.bits (xs.flatMap fun x => fieldBits x.toNat w)).spans g pos p := by
    rw [readRun_ok_iff_spans hw, List.length_map, List.forall_mem_map, List.flatMap_map]
  rw [← hread]
  constructor
  · refine fun h => ⟨_, h, ?_⟩
    rw [List.map_map]
    exact List.map_id'' (fun x => by simp) xs
  · rintro ⟨ls, hls, rfl⟩
    obtain ⟨-, hlts, -⟩ := (readRun_ok_iff_spans hw).1 hls
    have hself : (ls.map (BitVec.ofNat m)).map BitVec.toNat = ls := by
      rw [List.map_map]
      refine (List.map_congr_left fun l hl => ?_).trans (List.map_id ls)
      exact Nat.mod_eq_of_lt (Nat.lt_of_lt_of_le (hlts l hl) (Nat.pow_le_pow_right (by decide) hwm))
    rwa [hself]

/-- A coded symbol and its fields stand exactly where Decode answers the symbol and the fields follow. -/
theorem codedBits_spans_iff {g : Config} {t : Tree} {pos p s : Nat} {fields : List Bool} (ht : t.Decodable) :
    (∃ e, codedBits (some t) s fields = some e ∧ e.spans g pos p) ↔
      ∃ q, decodeSymbol g (some t) pos = .ok (s, q) ∧ (Encoding.bits fields).spans g q p := by
  simp only [codedBits, Option.map_eq_some_iff, decodeSymbol_ok_iff_spans ht]
  constructor
  · rintro ⟨_, ⟨bs, hbs, rfl⟩, hspan⟩
    obtain ⟨q, hcode, hfields⟩ := spans_bits_append.1 hspan
    exact ⟨q, ⟨bs, hbs, hcode⟩, hfields⟩
  · rintro ⟨q, ⟨bs, hbs, hcode⟩, hfields⟩
    exact ⟨_, ⟨bs, hbs, rfl⟩, spans_bits_append.2 ⟨q, hcode, hfields⟩⟩

/-- A coded symbol alone stands exactly where Decode answers it. -/
theorem codedBits_nil_spans_iff {g : Config} {t : Tree} {pos p s : Nat} (ht : t.Decodable) :
    (∃ e, codedBits (some t) s [] = some e ∧ e.spans g pos p) ↔ decodeSymbol g (some t) pos = .ok (s, p) := by
  simp only [codedBits_spans_iff ht, spans_bits_nil, exists_eq_right']

/-- A tree over n symbols: Decode can rely on it, and answers one of them. -/
theorem treeOver_decodable {n : Nat} {tree : Option Tree} (h : treeOver n tree) :
    ∃ t, tree = some t ∧ t.Decodable ∧ ∀ {g pos s p}, decodeSymbol g (some t) pos = .ok (s, p) → s < n := by
  obtain ⟨lens, t, rfl, h16, hb, rfl⟩ := h
  exact ⟨t, rfl, buildTree_decodable h16 hb, fun hs => decodeSymbol_lt hs fun _ e => by cases e; exact hb⟩

/-! ## The elements of main symbols -/

/-- The element of a main symbol has that symbol (30_encoding.md R108). -/
theorem symbol_mainElement (s : Nat) : (mainElement s).symbol = s := by
  unfold mainElement
  split
  · next hlit => exact Nat.mod_eq_of_lt hlit
  · next hmatch =>
    have hlh : (BitVec.ofNat 3 ((s - 256) % 8)).toNat = (s - 256) % 8 := by simp
    simp only
    split <;> simp only [Instr.symbol, hlh] <;> omega

/-- The element of a match symbol, by its slot (30_encoding.md R108). -/
theorem mainElement_match (slot : Nat) (lh : BitVec 3) : mainElement (256 + 8 * slot + lh.toNat) =
    if slot = 0 then .matchRep0 lh else if slot = 1 then .matchRep1 lh else if slot = 2 then .matchRep2 lh
    else .matchNew slot lh := by
  have hlt := lh.isLt
  have hslot : (256 + 8 * slot + lh.toNat - 256) / 8 = slot := by omega
  have hlh : BitVec.ofNat 3 ((256 + 8 * slot + lh.toNat - 256) % 8) = lh := by
    rw [show (256 + 8 * slot + lh.toNat - 256) % 8 = lh.toNat by omega]
    simp
  rw [mainElement, if_neg (by omega), hslot, hlh]
  split
  · rfl
  · rfl
  · rfl
  · next h0 h1 h2 => rw [if_neg h0, if_neg h1, if_neg h2]

/-- The element of a main symbol is coded by that symbol (30_encoding.md R108). -/
theorem encode_mainElement (g : Config) (tree : Option Tree) (s : Nat) :
    encode g (.mainSym tree) (mainElement s) = codedBits tree s [] := by
  have hcoded : encode g (.mainSym tree) (mainElement s) = codedBits tree (mainElement s).symbol [] := by
    obtain ⟨b, h⟩ | ⟨lh, h⟩ | ⟨lh, h⟩ | ⟨lh, h⟩ | ⟨slot, lh, -, h⟩ := mainElement_cases s <;> rw [h] <;> rfl
  rw [hcoded, symbol_mainElement]

/-- Only elements of main symbols are coded in the place of one (30_encoding.md R108). -/
theorem mainElement_symbol_of_encode {g : Config} {tree : Option Tree} {i : Instr} {e : Encoding}
    (hw : wellFormed g i = true) (he : encode g (.mainSym tree) i = some e) : mainElement i.symbol = i := by
  cases i with
  | lit b => exact (if_pos b.isLt).trans (by simp [Instr.symbol])
  | matchRep0 lh => exact mainElement_match 0 lh
  | matchRep1 lh => exact mainElement_match 1 lh
  | matchRep2 lh => exact mainElement_match 2 lh
  | matchNew slot lh =>
    obtain ⟨h3, -⟩ := Bool.and_eq_true_iff.1 hw
    have h3 : 3 ≤ slot := of_decide_eq_true h3
    refine (mainElement_match slot lh).trans ?_
    rw [if_neg (by omega), if_neg (by omega), if_neg (by omega)]
  | _ => cases he

/-- The element of a symbol of the main tree is well formed. -/
theorem wellFormed_mainElement {g : Config} {s : Nat} (hs : s < g.nmain) : wellFormed g (mainElement s) = true := by
  rw [← symbol_mainElement s] at hs
  obtain ⟨b, h⟩ | ⟨lh, h⟩ | ⟨lh, h⟩ | ⟨lh, h⟩ | ⟨slot, lh, h3, h⟩ := mainElement_cases s <;> rw [h] at hs ⊢
  · rfl
  · exact decide_eq_true hs
  · exact decide_eq_true hs
  · exact decide_eq_true hs
  · exact Bool.and_eq_true_iff.2 ⟨decide_eq_true h3, decide_eq_true hs⟩

/-! ## Each format's decoder and its encoding -/

/-- The element i is well formed, and its encoding in the place of the format stands from bit pos to bit p. -/
def Written (g : Config) (fmt : Format) (pos : Nat) (i : Instr) (p : Nat) : Prop :=
  wellFormed g i = true ∧ ∃ e, encode g fmt i = some e ∧ e.spans g pos p

section Formats

variable {g : Config} {pos p : Nat} {i : Instr}

/-- The preamble (30_encoding.md R102): the flag, and the size where it is 1. -/
theorem decodePreamble_ok_iff (hp : g.params.preambleE8 = true) :
    decodePreamble g pos = .ok (i, p) ↔ Written g .preamble pos i p := by
  constructor
  · intro h
    obtain ⟨⟨b, q⟩, hb, h⟩ := except_bind_ok.1 h
    obtain ⟨rfl, no⟩ | ⟨rfl, yes⟩ := flag_cases hb
    · cases h
      exact ⟨hp, _, rfl, no (spans_bits_nil.2 rfl)⟩
    · obtain ⟨⟨n, r⟩, hn, h⟩ := except_bind_ok.1 h
      cases h
      exact ⟨hp, _, rfl, yes (spans_word_iff_readField.2 ⟨n, hn, rfl⟩)⟩
  · rintro ⟨-, e, he, hspan⟩
    cases i with
    | preamble0 =>
      cases he
      obtain ⟨q, hb, hnil⟩ := spans_flag_cons.1 hspan
      cases spans_bits_nil.1 hnil
      exact except_bind_ok.2 ⟨_, hb, rfl⟩
    | preamble1 size =>
      cases he
      obtain ⟨q, hb, hsize⟩ := spans_flag_cons.1 hspan
      obtain ⟨n, hn, rfl⟩ := spans_word_iff_readField.1 hsize
      exact except_bind_ok.2 ⟨_, hb, except_bind_ok.2 ⟨_, hn, rfl⟩⟩
    | _ => cases he

/-- A block header (30_encoding.md R103, R104): the type, and the length where it is 1, 2 or 3. -/
theorem decodeHeader_ok_iff : decodeHeader g pos = .ok (i, p) ↔ Written g .header pos i p := by
  have typeAlone {t : Nat} : readBits g pos 3 = .ok (t, p) ↔ t < 8 ∧ (Encoding.bits (fieldBits t 3)).spans g pos p :=
    readBits_ok_iff_spans (by decide)
  have typeThen {t : Nat} {bs : List Bool} (ht : t < 8) : (Encoding.bits (fieldBits t 3 ++ bs)).spans g pos p ↔
      ∃ q, readBits g pos 3 = .ok (t, q) ∧ (Encoding.bits bs).spans g q p := spans_field_append (by decide) ht
  constructor
  · intro h
    obtain ⟨⟨t, q⟩, ht, h⟩ := except_bind_ok.1 h
    simp only at h
    split at h
    · next hzero =>
      cases h
      subst hzero
      exact ⟨rfl, _, rfl, (typeAlone.1 ht).2⟩
    · next hne =>
      split at h
      · next hge =>
        cases h
        obtain ⟨hlt, hspan⟩ := typeAlone.1 ht
        have htype : 4 + (BitVec.ofNat 2 (t - 4)).toNat = t := by rw [BitVec.toNat_ofNat]; omega
        exact ⟨rfl, _, rfl, by rw [htype]; exact hspan⟩
      · next hlt =>
        obtain ⟨⟨n, r⟩, hn, h⟩ := except_bind_ok.1 h
        have hlen := spans_word_iff_readField.2 ⟨n, hn, rfl⟩
        obtain rfl | rfl | rfl : t = 1 ∨ t = 2 ∨ t = 3 := by omega
        all_goals
          cases h
          exact ⟨rfl, _, rfl, (typeThen (by decide)).2 ⟨q, ht, hlen⟩⟩
  · have typed {t : Nat} {n : U24} (ht : t < 8)
        (hspan : (Encoding.bits (fieldBits t 3 ++ fieldBits n.toNat 24)).spans g pos p) :
        ∃ q v, readBits g pos 3 = .ok (t, q) ∧ readField g q 24 = .ok (v, p) ∧ BitVec.ofNat 24 v = n := by
      obtain ⟨q, ht, hlen⟩ := (typeThen ht).1 hspan
      obtain ⟨v, hv, hn⟩ := spans_word_iff_readField.1 hlen
      exact ⟨q, v, ht, hv, hn⟩
    rintro ⟨-, e, he, hspan⟩
    cases i with
    | blockVerbatim n | blockAligned n | blockUncomp n =>
      cases he
      obtain ⟨q, v, ht, hv, rfl⟩ := typed (by decide) hspan
      exact except_bind_ok.2 ⟨_, ht, except_bind_ok.2 ⟨_, hv, rfl⟩⟩
    | blockInvalid0 =>
      cases he
      exact except_bind_ok.2 ⟨_, typeAlone.2 ⟨by decide, hspan⟩, rfl⟩
    | blockInvalid4 t =>
      cases he
      have htype : BitVec.ofNat 2 (4 + t.toNat - 4) = t := by simp
      refine except_bind_ok.2 ⟨_, typeAlone.2 ⟨by omega, hspan⟩, ?_⟩
      simp only
      rw [if_neg (by omega), if_pos (by omega), htype]
      rfl
    | _ => cases he

/-- The widths of a valid session's fields: PT17_BITS and ALIGNED_LEN_BITS are from 1 to 4 (45_chunk_driver.md R341). -/
theorem valid_widths (hv : g.valid = true) : (g.params.pt17Bits ≠ 0 ∧ g.params.pt17Bits ≤ 4)
    ∧ g.params.alignedLenBits ≠ 0 ∧ g.params.alignedLenBits ≤ 4 := by
  simp only [Config.valid, Params.valid, Bool.and_eq_true, Bool.or_eq_true, beq_iff_eq, decide_eq_true_eq] at hv
  omega

/-- A pretree op (30_encoding.md R107): the symbol, and the run field and the value symbol that it calls for. -/
theorem decodePtOp_ok_iff {tree : Option Tree} (hv : g.valid = true) (htree : treeOver pretreeSymbols tree) :
    decodePtOp g tree pos = .ok (i, p) ↔ Written g (.ptOp tree) pos i p := by
  obtain ⟨t, rfl, ht, hsym⟩ := treeOver_decodable htree
  obtain ⟨hpt, -⟩ := valid_widths hv
  constructor
  · intro h
    obtain ⟨⟨s, q⟩, hs, h⟩ := except_bind_ok.1 h
    simp only at h
    split at h
    · next hle =>
      cases h
      exact ⟨decide_eq_true hle, (codedBits_nil_spans_iff ht).2 hs⟩
    split at h
    · next h17 =>
      subst h17
      obtain ⟨⟨z, r⟩, hz, h⟩ := except_bind_ok.1 h
      cases h
      obtain ⟨hlt, hspan⟩ := (spans_iff_readBits hpt.1 hpt.2).2 ⟨z, hz, rfl⟩
      exact ⟨decide_eq_true hlt, (codedBits_spans_iff ht).2 ⟨q, hs, hspan⟩⟩
    split at h
    · next h18 =>
      subst h18
      obtain ⟨⟨z, r⟩, hz, h⟩ := except_bind_ok.1 h
      cases h
      exact ⟨rfl, (codedBits_spans_iff ht).2 ⟨q, hs, (spans_word_iff_readBits (by decide)).2 ⟨z, hz, rfl⟩⟩⟩
    · next hgt h17 h18 =>
      obtain ⟨⟨z, r⟩, hz, h⟩ := except_bind_ok.1 h
      obtain ⟨⟨s', r'⟩, hs', h⟩ := except_bind_ok.1 h
      cases h
      have hlt := hsym hs
      have h19 : s = 19 := by unfold pretreeSymbols at hlt; omega
      subst h19
      obtain ⟨bs, hbs, hspan⟩ := (decodeSymbol_ok_iff_spans ht).1 hs'
      have hfield := (spans_word_iff_readBits (by decide)).2 ⟨z, hz, rfl⟩
      obtain ⟨e, he, hspan⟩ := (codedBits_spans_iff ht).2 ⟨q, hs, spans_bits_append.2 ⟨r, hfield, hspan⟩⟩
      exact ⟨decide_eq_true (hsym hs'), e, Option.bind_eq_some_iff.2 ⟨bs, hbs, he⟩, hspan⟩
  · rintro ⟨hw, e, he, hspan⟩
    cases i with
    | ptDelta s =>
      have hle : s ≤ 16 := of_decide_eq_true hw
      refine except_bind_ok.2 ⟨_, (codedBits_nil_spans_iff ht).1 ⟨e, he, hspan⟩, ?_⟩
      simp only
      rw [if_pos hle]
      rfl
    | ptZrun4 z =>
      have hlt : z.toNat < 2 ^ g.params.pt17Bits := of_decide_eq_true hw
      obtain ⟨q, hs, hspan⟩ := (codedBits_spans_iff ht).1 ⟨e, he, hspan⟩
      obtain ⟨v, hv, rfl⟩ := (spans_iff_readBits hpt.1 hpt.2).1 ⟨hlt, hspan⟩
      exact except_bind_ok.2 ⟨_, hs, except_bind_ok.2 ⟨_, hv, rfl⟩⟩
    | ptZrun20 z =>
      obtain ⟨q, hs, hspan⟩ := (codedBits_spans_iff ht).1 ⟨e, he, hspan⟩
      obtain ⟨v, hv, rfl⟩ := (spans_word_iff_readBits (by decide)).1 hspan
      exact except_bind_ok.2 ⟨_, hs, except_bind_ok.2 ⟨_, hv, rfl⟩⟩
    | ptSame z s =>
      obtain ⟨bs, hbs, he⟩ := Option.bind_eq_some_iff.1 he
      obtain ⟨q, hs, hspan⟩ := (codedBits_spans_iff ht).1 ⟨e, he, hspan⟩
      obtain ⟨r, hfield, hcode⟩ := spans_bits_append.1 hspan
      obtain ⟨v, hv, rfl⟩ := (spans_word_iff_readBits (by decide)).1 hfield
      have hs' := (decodeSymbol_ok_iff_spans ht).2 ⟨bs, hbs, hcode⟩
      exact except_bind_ok.2 ⟨_, hs, except_bind_ok.2 ⟨_, hv, except_bind_ok.2 ⟨_, hs', rfl⟩⟩⟩
    | _ => cases he

/-- An extended length (44_block.md R316): the flags, and the field that belongs to them. -/
theorem decodeExtLen_ok_iff (hx : g.params.extLen = true) :
    decodeExtLen g pos = .ok (i, p) ↔ Written g .extLen pos i p := by
  constructor
  · have word {q n v : Nat} (hn : n ≠ 0) (hv : readBits g q n = .ok (v, p)) :
        (Encoding.bits (fieldBits (BitVec.ofNat n v).toNat n)).spans g q p := (spans_word_iff_readBits hn).2 ⟨v, hv, rfl⟩
    intro h
    obtain ⟨⟨b0, p0⟩, h0, h⟩ := except_bind_ok.1 h
    obtain ⟨rfl, no0⟩ | ⟨rfl, yes0⟩ := flag_cases h0
    · obtain ⟨⟨v, q⟩, hv, h⟩ := except_bind_ok.1 h
      cases h
      exact ⟨hx, _, rfl, no0 (word (by decide) hv)⟩
    obtain ⟨⟨b1, p1⟩, h1, h⟩ := except_bind_ok.1 h
    obtain ⟨rfl, no1⟩ | ⟨rfl, yes1⟩ := flag_cases h1
    · obtain ⟨⟨v, q⟩, hv, h⟩ := except_bind_ok.1 h
      cases h
      exact ⟨hx, _, rfl, yes0 (no1 (word (by decide) hv))⟩
    obtain ⟨⟨b2, p2⟩, h2, h⟩ := except_bind_ok.1 h
    obtain ⟨rfl, no2⟩ | ⟨rfl, yes2⟩ := flag_cases h2
    · obtain ⟨⟨v, q⟩, hv, h⟩ := except_bind_ok.1 h
      cases h
      exact ⟨hx, _, rfl, yes0 (yes1 (no2 (word (by decide) hv)))⟩
    · obtain ⟨⟨v, q⟩, hv, h⟩ := except_bind_ok.1 h
      cases h
      exact ⟨hx, _, rfl, yes0 (yes1 (yes2 (word (by decide) hv)))⟩
  · rintro ⟨-, e, he, hspan⟩
    cases i with
    | extLen0 x =>
      cases he
      obtain ⟨p0, h0, hspan⟩ := spans_flag_cons.1 hspan
      obtain ⟨v, hv, rfl⟩ := (spans_word_iff_readBits (by decide)).1 hspan
      exact except_bind_ok.2 ⟨_, h0, except_bind_ok.2 ⟨_, hv, rfl⟩⟩
    | extLen10 x =>
      cases he
      obtain ⟨p0, h0, hspan⟩ := spans_flag_cons.1 hspan
      obtain ⟨p1, h1, hspan⟩ := spans_flag_cons.1 hspan
      obtain ⟨v, hv, rfl⟩ := (spans_word_iff_readBits (by decide)).1 hspan
      exact except_bind_ok.2 ⟨_, h0, except_bind_ok.2 ⟨_, h1, except_bind_ok.2 ⟨_, hv, rfl⟩⟩⟩
    | extLen110 x | extLen111 x =>
      cases he
      obtain ⟨p0, h0, hspan⟩ := spans_flag_cons.1 hspan
      obtain ⟨p1, h1, hspan⟩ := spans_flag_cons.1 hspan
      obtain ⟨p2, h2, hspan⟩ := spans_flag_cons.1 hspan
      obtain ⟨v, hv, rfl⟩ := (spans_word_iff_readBits (by decide)).1 hspan
      exact except_bind_ok.2 ⟨_, h0, except_bind_ok.2 ⟨_, h1, except_bind_ok.2 ⟨_, h2, except_bind_ok.2 ⟨_, hv, rfl⟩⟩⟩⟩
    | _ => cases he

/-- The three raw values of an Uncompressed header (44_block.md R331). -/
theorem decodeUncompR_ok_iff : decodeUncompR g pos = .ok (i, p) ↔ Written g .uncompR pos i p := by
  have last {q p : Nat} {v : U32} : (Encoding.bytes (u32Bytes v)).spans g q p ↔ readU32LE g q = .ok (v, p) := by
    rw [← List.append_nil (u32Bytes v), spans_u32Bytes_append]
    constructor
    · rintro ⟨m, hv, hnil⟩
      obtain ⟨-, -, rfl⟩ := spans_bytes_nil.1 hnil
      exact hv
    · intro hv
      have := readU32LE_ok_pos hv
      exact ⟨p, hv, spans_bytes_nil.2 ⟨by omega, by omega, rfl⟩⟩
  constructor
  · intro h
    obtain ⟨⟨r0, p0⟩, h0, h⟩ := except_bind_ok.1 h
    obtain ⟨⟨r1, p1⟩, h1, h⟩ := except_bind_ok.1 h
    obtain ⟨⟨r2, p2⟩, h2, h⟩ := except_bind_ok.1 h
    cases h
    refine ⟨rfl, _, rfl, ?_⟩
    rw [List.append_assoc]
    exact spans_u32Bytes_append.2 ⟨p0, h0, spans_u32Bytes_append.2 ⟨p1, h1, last.2 h2⟩⟩
  · rintro ⟨-, e, he, hspan⟩
    cases i with
    | uncompR r0 r1 r2 =>
      cases he
      rw [List.append_assoc] at hspan
      obtain ⟨p0, h0, hspan⟩ := spans_u32Bytes_append.1 hspan
      obtain ⟨p1, h1, hspan⟩ := spans_u32Bytes_append.1 hspan
      exact except_bind_ok.2 ⟨_, h0, except_bind_ok.2 ⟨_, h1, except_bind_ok.2 ⟨_, last.1 hspan, rfl⟩⟩⟩
    | _ => cases he

/-- The lengths of a pretree (30_encoding.md R105). -/
theorem decode_pretree_ok_iff : decode g .pretree pos = .ok (i, p) ↔ Written g .pretree pos i p := by
  have hrun {xs : List (BitVec 4)} := spans_iff_readRun (g := g) (pos := pos) (p := p) (n := pretreeSymbols) (xs := xs)
    (w := pretreeLenBits) (by decide) (by decide)
  constructor
  · intro h
    obtain ⟨⟨ls, q⟩, hls, h⟩ := except_bind_ok.1 h
    cases h
    obtain ⟨hlen, -, hspan⟩ := hrun.2 ⟨ls, hls, rfl⟩
    exact ⟨beq_iff_eq.2 hlen, _, rfl, hspan⟩
  · rintro ⟨hw, e, he, hspan⟩
    cases i with
    | pretree xs =>
      cases he
      obtain ⟨ls, hls, rfl⟩ := hrun.1 ⟨beq_iff_eq.1 hw, fun x _ => x.isLt, hspan⟩
      exact except_bind_ok.2 ⟨_, hls, rfl⟩
    | _ => cases he

/-- The lengths of an aligned-offset tree (30_encoding.md R106). -/
theorem decode_altree_ok_iff (hv : g.valid = true) : decode g .altree pos = .ok (i, p) ↔ Written g .altree pos i p := by
  obtain ⟨-, hw, hw4⟩ := valid_widths hv
  have hrun {xs : List (BitVec 4)} := spans_iff_readRun (g := g) (pos := pos) (p := p) (n := alignedSymbols) (xs := xs)
    hw hw4
  have hform {xs : List (BitVec 4)} : wellFormed g (.altree xs) = true ↔
      xs.length = alignedSymbols ∧ ∀ x ∈ xs, x.toNat < 2 ^ g.params.alignedLenBits := by
    simp [wellFormed]
  constructor
  · intro h
    obtain ⟨⟨ls, q⟩, hls, h⟩ := except_bind_ok.1 h
    cases h
    obtain ⟨hlen, hlts, hspan⟩ := hrun.2 ⟨ls, hls, rfl⟩
    exact ⟨hform.2 ⟨hlen, hlts⟩, _, rfl, hspan⟩
  · rintro ⟨hwf, e, he, hspan⟩
    cases i with
    | altree xs =>
      cases he
      obtain ⟨hlen, hlts⟩ := hform.1 hwf
      obtain ⟨ls, hls, rfl⟩ := hrun.1 ⟨hlen, hlts, hspan⟩
      exact except_bind_ok.2 ⟨_, hls, rfl⟩
    | _ => cases he

/-- A format that is one coded symbol: Decode answers it, and `con` makes the element of it. -/
theorem decode_ok_iff_of_symbol {fmt : Format} {tree : Option Tree} {n : Nat} {con : Nat → Instr} (htree : treeOver n tree)
    (hdec : decode g fmt pos = decodeSymbol g tree pos >>= fun r => .ok (con r.1, r.2))
    (hform : ∀ s, s < n → wellFormed g (con s) = true)
    (henc : ∀ s, s < n → encode g fmt (con s) = codedBits tree s [])
    (honly : ∀ {e}, wellFormed g i = true → encode g fmt i = some e → ∃ s, con s = i ∧ codedBits tree s [] = some e) :
    decode g fmt pos = .ok (i, p) ↔ Written g fmt pos i p := by
  obtain ⟨t, rfl, ht, hsym⟩ := treeOver_decodable htree
  rw [hdec]
  constructor
  · intro h
    obtain ⟨⟨s, q⟩, hs, h⟩ := except_bind_ok.1 h
    cases h
    refine ⟨hform s (hsym hs), ?_⟩
    rw [henc s (hsym hs)]
    exact (codedBits_nil_spans_iff ht).2 hs
  · rintro ⟨hw, e, he, hspan⟩
    obtain ⟨s, rfl, hcoded⟩ := honly hw he
    exact except_bind_ok.2 ⟨_, (codedBits_nil_spans_iff ht).1 ⟨e, hcoded, hspan⟩, rfl⟩

/-- A main-tree symbol (30_encoding.md R108). -/
theorem decode_mainSym_ok_iff {tree : Option Tree} (htree : treeOver g.nmain tree) :
    decode g (.mainSym tree) pos = .ok (i, p) ↔ Written g (.mainSym tree) pos i p := by
  refine decode_ok_iff_of_symbol htree rfl (fun _ => wellFormed_mainElement) (fun s _ => encode_mainElement g tree s) ?_
  intro e hw he
  have hi := mainElement_symbol_of_encode hw he
  exact ⟨i.symbol, hi, by rw [← encode_mainElement g, hi, he]⟩

/-- A length-tree symbol (30_encoding.md R109). -/
theorem decode_lenSym_ok_iff {tree : Option Tree} (htree : treeOver g.params.numLengthSymbols tree) :
    decode g (.lenSym tree) pos = .ok (i, p) ↔ Written g (.lenSym tree) pos i p := by
  refine decode_ok_iff_of_symbol htree rfl (fun _ => decide_eq_true) (fun _ _ => rfl) fun _ he => ?_
  cases i with
  | lenSym s => exact ⟨s, rfl, he⟩
  | _ => cases he

/-- An aligned-offset-tree symbol (30_encoding.md R110). -/
theorem decode_alignedLo_ok_iff {tree : Option Tree} (htree : treeOver alignedSymbols tree) :
    decode g (.alignedLo tree) pos = .ok (i, p) ↔ Written g (.alignedLo tree) pos i p := by
  refine decode_ok_iff_of_symbol (con := fun s => .alignedLo (BitVec.ofNat 3 s)) htree rfl (fun _ _ => rfl)
    (fun s hs => ?_) fun _ he => ?_
  · have hself : (BitVec.ofNat 3 s).toNat = s := Nat.mod_eq_of_lt hs
    exact congrArg (codedBits tree · []) hself
  · cases i with
    | alignedLo lo => exact ⟨lo.toNat, by simp, he⟩
    | _ => cases he

/-- A format that is a field of at most 17 bits: ReadField answers it, and `con` makes the element of it. -/
theorem decode_ok_iff_of_literalBits {fmt : Format} {n : Nat} {con : BitVec 17 → Instr} (hn : n ≤ 17)
    (hdec : decode g fmt pos = readField g pos n >>= fun r => .ok (con (BitVec.ofNat 17 r.1), r.2))
    (hform : ∀ x, wellFormed g (con x) = true)
    (henc : ∀ x, encode g fmt (con x) = if x.toNat < 2 ^ n then some (.bits (fieldBits x.toNat n)) else none)
    (honly : ∀ {e}, encode g fmt i = some e → ∃ x, con x = i) :
    decode g fmt pos = .ok (i, p) ↔ Written g fmt pos i p := by
  rw [hdec]
  constructor
  · intro h
    obtain ⟨⟨f, q⟩, hf, h⟩ := except_bind_ok.1 h
    cases h
    obtain ⟨hlt, hspan⟩ := (spans_iff_readField hn).2 ⟨f, hf, rfl⟩
    exact ⟨hform _, _, (henc _).trans (if_pos hlt), hspan⟩
  · rintro ⟨-, e, he, hspan⟩
    obtain ⟨x, rfl⟩ := honly he
    rw [henc] at he
    obtain ⟨hlt, he⟩ := Option.ite_none_right_eq_some.1 he
    cases he
    obtain ⟨f, hf, rfl⟩ := (spans_iff_readField hn).1 ⟨hlt, hspan⟩
    exact except_bind_ok.2 ⟨_, hf, rfl⟩

/-- The footer of a Verbatim block (30_encoding.md R110). -/
theorem decode_footerV_ok_iff {fb : Nat} (hfb : fb ≤ 17) :
    decode g (.footerV fb) pos = .ok (i, p) ↔ Written g (.footerV fb) pos i p := by
  refine decode_ok_iff_of_literalBits hfb rfl (fun _ => rfl) (fun _ => rfl) fun he => ?_
  cases i with
  | footerVerbatim x => exact ⟨x, rfl⟩
  | _ => cases he

/-- The literal footer bits of an AlignedOffset block (30_encoding.md R110). -/
theorem decode_footerA_ok_iff {fb : Nat} (hfb : fb ≤ 17) :
    decode g (.footerA fb) pos = .ok (i, p) ↔ Written g (.footerA fb) pos i p := by
  have hbits : literalFooterBits fb ≤ 17 := by unfold literalFooterBits; split <;> omega
  refine decode_ok_iff_of_literalBits hbits rfl (fun _ => rfl) (fun _ => rfl) fun he => ?_
  cases i with
  | footerHi x => exact ⟨x, rfl⟩
  | _ => cases he

/-- A raw byte stands exactly where it is read (40_bitstream_reader.md R148). -/
theorem spans_byte_iff_readRawByte {b : Byte} :
    (Encoding.bytes [b]).spans g pos p ↔ readRawByte g pos = .ok (b, p) := by
  rw [spans_bytes_cons]
  constructor
  · rintro ⟨m, hb, hnil⟩
    obtain ⟨-, -, rfl⟩ := spans_bytes_nil.1 hnil
    exact hb
  · intro hb
    obtain ⟨ha, hlt, hp⟩ := readRawByte_ok.1 hb
    cases hp
    exact ⟨pos + 8, hb, spans_bytes_nil.2 ⟨by omega, by omega, rfl⟩⟩

/-- A format that is one raw byte: `con` makes the element of it. -/
theorem decode_ok_iff_of_byte {fmt : Format} {con : Byte → Instr}
    (hdec : decode g fmt pos = readRawByte g pos >>= fun r => .ok (con r.1, r.2))
    (hform : ∀ b, wellFormed g (con b) = true) (henc : ∀ b, encode g fmt (con b) = some (.bytes [b]))
    (honly : ∀ {e}, encode g fmt i = some e → ∃ b, con b = i) :
    decode g fmt pos = .ok (i, p) ↔ Written g fmt pos i p := by
  rw [hdec]
  constructor
  · intro h
    obtain ⟨⟨b, q⟩, hb, h⟩ := except_bind_ok.1 h
    cases h
    exact ⟨hform b, _, henc b, spans_byte_iff_readRawByte.2 hb⟩
  · rintro ⟨-, e, he, hspan⟩
    obtain ⟨b, rfl⟩ := honly he
    cases (henc b).symm.trans he
    exact except_bind_ok.2 ⟨_, spans_byte_iff_readRawByte.1 hspan, rfl⟩

/-- One raw byte (44_block.md R332). -/
theorem decode_raw_ok_iff : decode g .raw pos = .ok (i, p) ↔ Written g .raw pos i p := by
  refine decode_ok_iff_of_byte rfl (fun _ => rfl) (fun _ => rfl) fun he => ?_
  cases i with
  | raw b => exact ⟨b, rfl⟩
  | _ => cases he

/-- The pad byte after an odd raw region (44_block.md R334). -/
theorem decode_oddPad_ok_iff : decode g .oddPad pos = .ok (i, p) ↔ Written g .oddPad pos i p := by
  refine decode_ok_iff_of_byte rfl (fun _ => rfl) (fun _ => rfl) fun he => ?_
  cases i with
  | oddPad b => exact ⟨b, rfl⟩
  | _ => cases he

/-- A format of the session decodes to an element exactly where the element is written. -/
theorem decode_ok_iff_written {fmt : Format} (hv : g.valid = true) (hfit : fmt.fits g) :
    decode g fmt pos = .ok (i, p) ↔ Written g fmt pos i p := by
  cases fmt with
  | preamble => exact decodePreamble_ok_iff hfit
  | header => exact decodeHeader_ok_iff
  | pretree => exact decode_pretree_ok_iff
  | ptOp tree => exact decodePtOp_ok_iff hv hfit
  | altree => exact decode_altree_ok_iff hv
  | mainSym tree => exact decode_mainSym_ok_iff hfit
  | lenSym tree => exact decode_lenSym_ok_iff hfit
  | footerV fb => exact decode_footerV_ok_iff hfit
  | footerA fb => exact decode_footerA_ok_iff hfit
  | alignedLo tree => exact decode_alignedLo_ok_iff hfit
  | extLen => exact decodeExtLen_ok_iff hfit
  | uncompR => exact decodeUncompR_ok_iff
  | raw => exact decode_raw_ok_iff
  | oddPad => exact decode_oddPad_ok_iff

end Formats

/-- Settles O19: an element whose encoding stands at the cursor is written there, which is what Decode answers. -/
theorem decodeOfEncode : Obligations.DecodeOfEncode := by
  intro g fmt i e pos hv hfit hw he hstands
  exact (decode_ok_iff_written hv hfit).2 ⟨hw, e, he, hstands, rfl⟩

/-- Settles O20: what Decode answers is written at the cursor. -/
theorem encodeOfDecode : Obligations.EncodeOfDecode := by
  intro g fmt i pos p hv hfit hd
  exact (decode_ok_iff_written hv hfit).1 hd

/-- Settles O21: the decoder is evaluated on each word. -/
theorem knownWordsDecode : Obligations.KnownWordsDecode :=
  ⟨rfl, rfl, rfl, rfl, rfl, rfl⟩

end Sys2Proof
end

section
/-! PROOFS. The bitstream reader: a read answers the bits at the cursor as one number, the same however it is split, and
the alignments are least multiples. -/

namespace Sys2Proof

/-! ## The number a read gathers -/

/-- A word has sixteen bits (20_memory.md R71). -/
theorem word_lt (g : Config) (w : Nat) : g.word w < 2 ^ 16 := by
  have hlow := (g.byteAt (2 * w)).isLt
  have hhigh := (g.byteAt (2 * w + 1)).isLt
  unfold Config.word
  omega

/-- Bit i of the stream from the cursor is bit n - 1 - i of the number: the first bit is the highest
(40_bitstream_reader.md R142). -/
theorem gather_testBit (g : Config) (pos : Nat) {n i : Nat} (hi : i < n) :
    (g.gather pos n).testBit (n - 1 - i) = g.bit (pos + i) := by
  induction n with
  | zero => omega
  | succ n ih =>
    have hlow : (g.bit (pos + n)).toNat < 2 ^ 1 := Bool.toNat_lt _
    have hsplit (j : Nat) : (g.gather pos (n + 1)).testBit j =
        if j < 1 then (g.bit (pos + n)).toNat.testBit j else (g.gather pos n).testBit (j - 1) :=
      Nat.testBit_two_pow_mul_add _ hlow j
    obtain rfl | hlt : i = n ∨ i < n := by omega
    · rw [hsplit, if_pos (by omega), Nat.add_sub_cancel, Nat.sub_self, Nat.testBit_bool_toNat, decide_eq_true rfl,
        Bool.true_and]
    · rw [hsplit, if_neg (by omega), show n + 1 - 1 - i - 1 = n - 1 - i by omega, ih hlt]

/-- The first bit read is the highest of the number (40_bitstream_reader.md R142). -/
theorem gather_succ_eq_head_add (g : Config) (pos n : Nat) :
    g.gather pos (n + 1) = (g.bit pos).toNat * 2 ^ n + g.gather (pos + 1) n := by
  rw [Nat.add_comm n 1, gather_add]
  simp [Config.gather]

/-- The number as the sum of its weighted bits (40_bitstream_reader.md R145). -/
theorem gather_eq_sum (g : Config) (pos n : Nat) :
    g.gather pos n = ((List.range n).map fun i => (g.bit (pos + i)).toNat * 2 ^ (n - 1 - i)).sum := by
  induction n generalizing pos with
  | zero => rfl
  | succ n ih =>
    have hterm (i : Nat) : (g.bit (pos + 1 + i)).toNat * 2 ^ (n - 1 - i)
        = (g.bit (pos + (i + 1))).toNat * 2 ^ (n + 1 - 1 - (i + 1)) := by
      rw [show pos + 1 + i = pos + (i + 1) by omega, show n + 1 - 1 - (i + 1) = n - 1 - i by omega]
    rw [gather_succ_eq_head_add, ih, List.range_succ_eq_map, List.map_cons, List.sum_cons, List.map_map]
    simp only [hterm]
    rfl

/-- Sixteen bits from a word boundary are the word (40_bitstream_reader.md R142). -/
theorem gather_word (g : Config) (w : Nat) : g.gather (16 * w) 16 = g.word w := by
  refine Nat.eq_of_testBit_eq fun j => ?_
  obtain hj | hj : j < 16 ∨ 16 ≤ j := by omega
  · calc (g.gather (16 * w) 16).testBit j
        = (g.gather (16 * w) 16).testBit (16 - 1 - (15 - j)) := by rw [show 16 - 1 - (15 - j) = j by omega]
      _ = g.bit (16 * w + (15 - j)) := gather_testBit g _ (by omega)
      _ = (g.word w).testBit (15 - (15 - j)) := bit_of_word g w (by omega)
      _ = (g.word w).testBit j := by rw [show 15 - (15 - j) = j by omega]
  · have above {x : Nat} (hx : x < 2 ^ 16) : x.testBit j = false :=
      Nat.testBit_lt_two_pow (Nat.lt_of_lt_of_le hx (Nat.pow_le_pow_right (by decide) hj))
    rw [above (gather_lt g _ 16), above (word_lt g w)]

/-- Settles O11: both reads answer the gathered number, which has the stream's bits, first bit highest. -/
theorem readBitsTakesTheNextBits : Obligations.ReadBitsTakesTheNextBits := by
  intro g pos n _ _
  refine ⟨fun h => readBits_error.2 ⟨h, rfl⟩, fun h => ?inside, ?peek⟩
  case inside =>
    refine ⟨g.gather pos n, readBits_ok.2 ⟨h, rfl⟩, gather_lt g pos n, fun i hi => gather_testBit g pos hi, ?_⟩
    rintro rfl hword
    rw [← gather_word, Nat.mul_div_cancel' (Nat.dvd_of_mod_eq_zero hword)]
  case peek => rw [peekBits, gather_eq_sum]

/-- Settles O12: a field is one read of all its bits, and the number gathered in two parts is the same. -/
theorem readFieldIsOneNumber : Obligations.ReadFieldIsOneNumber := by
  intro g pos n _
  refine ⟨?none, fun hn h => ?past, fun hn h => ?inside⟩
  case none => rintro rfl; rfl
  case past => exact (readField_eq_readBits hn).trans (readBits_error.2 ⟨h, rfl⟩)
  case inside =>
    refine ⟨g.gather pos n, (readField_eq_readBits hn).trans (readBits_ok.2 ⟨h, rfl⟩), gather_lt g pos n,
      fun i hi => gather_testBit g pos hi, fun m _ hm _ _ => ?split⟩
    obtain ⟨k, rfl⟩ := Nat.exists_eq_add_of_le (Nat.le_of_lt hm)
    rw [Nat.add_sub_cancel_left, ← Nat.add_assoc]
    exact ⟨_, _, readBits_ok.2 ⟨by omega, rfl⟩, readBits_ok.2 ⟨by omega, rfl⟩, gather_add g pos m k⟩

/-! ## Alignment -/

/-- A multiple of m is at or past `roundup x m` exactly when it is at or past x (00_scope.md R30). -/
theorem roundup_le_mul_iff {x m : Nat} (hm : 0 < m) (q : Nat) : roundup x m ≤ q * m ↔ x ≤ q * m := by
  rw [roundup, Nat.mul_le_mul_right_iff hm, Nat.div_le_iff_le_mul hm]
  omega

/-- `roundup x m` is the least multiple of m not before x (00_scope.md R30). -/
theorem roundup_least (x : Nat) {m : Nat} (hm : 0 < m) :
    roundup x m % m = 0 ∧ x ≤ roundup x m ∧ ∀ y, y % m = 0 → x ≤ y → roundup x m ≤ y := by
  refine ⟨Nat.mul_mod_left _ m, (roundup_le_mul_iff hm _).1 (Nat.le_refl (roundup x m)), fun y hy hxy => ?_⟩
  rw [← Nat.div_mul_cancel (Nat.dvd_of_mod_eq_zero hy)] at hxy ⊢
  exact (roundup_le_mul_iff hm _).2 hxy

/-- The next word boundary is at or past AVAIL exactly when no complete word is unread (40_bitstream_reader.md R150). -/
theorem avail_le_roundup_iff (g : Config) (pos : Nat) :
    g.avail ≤ roundup pos 16 ↔ ¬ ∃ w, pos ≤ 16 * w ∧ 16 * w + 16 ≤ g.avail := by
  obtain ⟨hmul, hle, hleast⟩ := roundup_least pos (m := 16) (by decide)
  constructor
  · rintro hdone ⟨w, hpos, hw⟩
    have := hleast (16 * w) (Nat.mul_mod_right 16 w) hpos
    omega
  · intro hnone
    refine Nat.le_of_not_lt fun hmore => ?_
    have havail : g.avail % 16 = 0 := Nat.mul_mod_right 16 _
    exact hnone ⟨roundup pos 16 / 16, by omega, by omega⟩

/-- Settles O13: the alignments are `roundup`, and InputDone compares the next word boundary with AVAIL, itself one. -/
theorem alignmentAndInputDone : Obligations.AlignmentAndInputDone := by
  intro g pos
  have hdone : inputDone g pos = true ↔ g.avail ≤ roundup pos 16 := decide_eq_true_iff
  obtain ⟨hmul16, hle16, hleast16⟩ := roundup_least pos (m := 16) (by decide)
  obtain ⟨hmul32, hle32, hleast32⟩ := roundup_least pos (m := 32) (by decide)
  refine ⟨hmul16, hle16, hleast16, hmul32, hle32, hleast32, fun hword => ?step, hdone,
    hdone.trans (avail_le_roundup_iff g pos)⟩
  obtain heven | hodd : pos % 32 = 0 ∨ (pos + 16) % 32 = 0 := by omega
  · exact .inl (Nat.le_antisymm (hleast32 pos heven (Nat.le_refl pos)) hle32)
  · have := hleast32 (pos + 16) hodd (Nat.le_add_right pos 16)
    exact .inr (show roundup pos 32 = pos + 16 by omega)

end Sys2Proof
end

section
/-! PROOFS. A NEXT_CHUNK in progress always goes on: what the grammar calls for can be decoded or takes a fault, and
every element that is decoded in its place has a next state. -/

namespace Sys2Proof.Machine

/-! ## A decoded element in its place -/

/-- The main symbol of a match in its place answers a next state. -/
theorem matchSymbol_next (s : State) (c : Regs) (slot : Nat) (lh : BitVec 3) :
    ∃ u, matchSymbol slot lh (s.working c .mainSym) = .next u := by
  simp only [matchSymbol, working_work]
  split
  · exact ⟨_, rfl⟩
  · exact afterLength_next ..

/-- A block header in its place answers a next state where the block's first element does. -/
theorem blockHeader_next_of {s : State} {c : Regs} {t : BitVec 3} {n : U24}
    {k : Regs → Host.Outcome State Fault Refusal} (hk : ∀ c', ∃ u, k c' = .next u) :
    ∃ u, blockHeader t n (s.working c .header) k = .next u := by
  simp only [blockHeader, working_work]
  split
  · exact ⟨_, rfl⟩
  · exact hk _

/-- A raw byte in its place answers a next state. -/
theorem execRaw_next (s : State) (c : Regs) (b : Byte) : ∃ u, execRaw b (s.working c .raw) = .next u := by
  simp only [execRaw, working_work]
  split
  · split <;> exact ⟨_, rfl⟩
  · exact ⟨_, rfl⟩

/-- The meaning of the element that a phase calls for answers a next state. -/
theorem exec_next {s : State} {c c' : Regs} {ph : Phase} {i : Instr} {pos p : Nat}
    (d : DecodesTo s.cfg pos i p (formatOf c ph)) : ∃ u, exec i (s.working c' ph) = .next u := by
  cases ph with
  | preamble => obtain rfl | ⟨n, rfl⟩ := d.1 <;> exact ⟨_, rfl⟩
  | header =>
    obtain ⟨n, rfl⟩ | ⟨n, rfl⟩ | ⟨n, rfl⟩ | rfl | ⟨t, rfl⟩ := d.1
    · exact blockHeader_next_of (t := 1) fun _ => ⟨_, rfl⟩
    · exact blockHeader_next_of (t := 2) fun _ => ⟨_, rfl⟩
    · rw [exec, execBlockUncomp]
      refine blockHeader_next_of fun c => ?_
      split <;> exact ⟨_, rfl⟩
    · exact ⟨_, rfl⟩
    · exact ⟨_, rfl⟩
  | altree =>
    obtain ⟨⟨ls, rfl, -⟩, -⟩ := d
    simp only [exec, execAltree, working_work]
    cases buildTree (ls.map BitVec.toNat) <;> exact ⟨_, rfl⟩
  | pretree t =>
    obtain ⟨⟨ls, rfl, -⟩, -⟩ := d
    simp only [exec, execPretree, working_work]
    cases buildTree (ls.map BitVec.toNat) with
    | ok tree => exact rangeAt_next ..
    | error k => exact ⟨_, rfl⟩
  | ptOp t j =>
    obtain ⟨x, -, rfl⟩ | ⟨z, rfl⟩ | ⟨z, rfl⟩ | ⟨z, x, rfl⟩ := d.1
    · exact rangeAt_next ..
    · exact runOf_next ..
    · exact runOf_next ..
    · simp only [exec, execPtSame, working_work]
      split
      · exact ⟨_, rfl⟩
      · exact runOf_next ..
  | uncompR =>
    obtain ⟨⟨a, b, v, rfl⟩, -⟩ := d
    exact ⟨_, rfl⟩
  | mainSym =>
    obtain ⟨b, rfl⟩ | ⟨lh, rfl⟩ | ⟨lh, rfl⟩ | ⟨lh, rfl⟩ | ⟨slot, lh, -, rfl⟩ := d.1
    · exact ⟨_, rfl⟩
    all_goals exact matchSymbol_next ..
  | lenSym slot =>
    obtain ⟨⟨ls, rfl⟩, -⟩ := d
    exact afterLength_next ..
  | footerV slot n =>
    obtain ⟨⟨f, rfl⟩, -⟩ := d
    exact afterFooter_next ..
  | footerA slot n =>
    obtain ⟨⟨f, rfl⟩, -⟩ := d
    simp only [exec, execFooterHi, working_work]
    split
    · exact ⟨_, rfl⟩
    · exact afterFooter_next ..
  | alignedLo slot n hi =>
    obtain ⟨⟨lo, rfl⟩, -⟩ := d
    exact afterFooter_next ..
  | extLen slot n f =>
    obtain ⟨v, rfl⟩ | ⟨v, rfl⟩ | ⟨v, rfl⟩ | ⟨v, rfl⟩ := d.1 <;> exact finishMatch_next ..
  | raw =>
    obtain ⟨⟨b, rfl⟩, -⟩ := d
    exact execRaw_next ..
  | oddPad =>
    obtain ⟨⟨b, rfl⟩, -⟩ := d
    exact ⟨_, rfl⟩

/-! ## What the invariant gives the decoder -/

/-- The tree that a phase decodes from is present, and the cursor of a raw read is at a byte (41_huffman.md R177,
20_memory.md R79). -/
theorem phaseInv_ready {g : Config} {base c : Regs} {ph : Phase} (hb : base.Inv g) (h : phaseInv g base c ph) :
    (formatOf c ph).ready c.bitpos := by
  have mainTree (hi : ItemWork g base c) : c.mainTree.isSome = true := by
    rw [hi.same]
    exact (hb.trees hi.block).1
  have lengthTree (hi : ItemWork g base c) : c.lengthTree.isSome = true := by
    rw [hi.same]
    exact (hb.trees hi.block).2
  cases ph with
  | ptOp t i => exact h.2.1
  | mainSym => exact mainTree h
  | lenSym slot => exact lengthTree h
  | alignedLo slot n hi =>
    obtain ⟨hi, hs, -⟩ := h
    show c.alignedTree.isSome = true
    rw [hi.same]
    exact hb.alignedTree hs
  | uncompR =>
    obtain ⟨-, -, -, -, -, -, h8⟩ := h
    exact h8
  | raw =>
    obtain ⟨-, -, -, h8⟩ := h
    exact h8
  | oddPad =>
    obtain ⟨-, -, -, h8, -⟩ := h
    exact h8
  | preamble | header | altree | pretree | footerV | footerA | extLen => trivial

/-! ## The step -/

/-- A read that fails takes its fault. -/
theorem step_of_reads_fault {s : State} {c : Regs} {ph : Phase} {k : FaultKind} (hrun : s.running = true)
    (hr : Reads s c ph) (hd : decode s.cfg (formatOf c ph) c.bitpos = .error (.fault k)) :
    step s = .next (s.takeFault k) := by
  rw [step, fetch_of_reads hrun hr, fetchElement, hd]

/-- A running machine that reads an element goes on. -/
theorem step_next_of_reads {s : State} {c : Regs} {ph : Phase} (h : s.Inv) (hrun : s.running = true) (hr : Reads s c ph) :
    ∃ t, step s = .next t := by
  obtain ⟨-, hph⟩ := h.reads hrun hr
  cases hd : decode s.cfg (formatOf c ph) c.bitpos with
  | ok r =>
    rw [step_of_reads hrun hr hd]
    exact exec_next (decode_ok hd)
  | error e =>
    obtain ⟨k, rfl⟩ := decode_error hd (phaseInv_ready h.regs hph)
    exact ⟨_, step_of_reads_fault hrun hr hd⟩

/-- Only in TERMINAL does no Step begin (45_chunk_driver.md R343). -/
theorem beginStep_nothing {g : Config} {c : Regs} (h : beginStep g c = .nothing) : c.state = .terminal := by
  unfold beginStep at h
  repeat' split at h
  case h_6 hs => exact hs
  all_goals cases h

/-- A step that fetches no instruction is the transition itself. -/
theorem step_of_fetch_quiet {s t : State} (h : fetch s = .quiet t) : step s = .next t := by
  rw [step, h]

/-- A running machine at a Step boundary makes a pass of the chunk loop (45_chunk_driver.md R345). -/
theorem fetch_boundary {s : State} (hrun : s.running = true) (hw : s.work = none) : fetch s = fetchPass s := by
  rw [fetch, if_pos hrun, hw]

/-- A running machine that meets the invariant goes on: it has an element to read, or its pass reads nothing. -/
theorem running_step_next {s : State} (h : s.Inv) (hrun : s.running = true) : ∃ t, step s = .next t := by
  cases hw : s.work with
  | some w => exact step_next_of_reads h hrun (.inl hw)
  | none =>
    obtain ⟨hf, hs⟩ := h.live hrun
    have hfetch := fetch_boundary hrun hw
    rw [fetchPass, if_neg (not_not_intro hf)] at hfetch
    by_cases hc : s.regs.chunkFill = s.cfg.params.chunkSize
    · rw [if_pos hc] at hfetch
      exact ⟨_, step_of_fetch_quiet hfetch⟩
    · cases hb : beginStep s.cfg s.regs with
      | element ph => exact step_next_of_reads h hrun (.inr ⟨hw, rfl, hf, hc, hb⟩)
      | silent c =>
        rw [if_neg hc, hb] at hfetch
        exact ⟨_, step_of_fetch_quiet hfetch⟩
      | nothing => exact absurd (beginStep_nothing hb) hs

end Sys2Proof.Machine

namespace Sys2Proof

open Machine

/-- Settles O48: by the place of the machine in the chunk loop; inside it no tree is absent, no raw read is off a byte, and
no element is out of its place. -/
theorem runningStepNeverStops : Obligations.RunningStepNeverStops := fun _ => running_step_next

end Sys2Proof
end

section
/-! PROOFS. Build and Decode as a whole: which arrays Build accepts, what its codes are, and what Decode answers where no
code stands. -/

namespace Sys2Proof

/-! ## Build -/

/-- The Kraft sum over the used symbols only (41_huffman.md R171). -/
theorem sum_used_eq_kraft (lens : List Nat) :
    ((lens.filter fun l => l ≠ 0).map fun l => 2 ^ (16 - l)).sum = kraft lens := by
  induction lens with
  | nil => rfl
  | cons a rest ih =>
    rw [kraft_cons, ← ih]
    by_cases ha : a = 0
    · rw [List.filter_cons_of_neg (by simpa using ha), if_pos ha, Nat.zero_add]
    · rw [List.filter_cons_of_pos (by simpa using ha), if_neg ha, List.map_cons, List.sum_cons]

/-- Build rejects an over-subscribed array (41_huffman.md R172). -/
theorem buildTree_of_lt_kraft {lens : List Nat} (h : 2 ^ 16 < kraft lens) : buildTree lens = .error .invalidCode :=
  if_pos h

/-- Build accepts every other array (41_huffman.md R172). -/
theorem buildTree_of_kraft_le {lens : List Nat} (h : kraft lens ≤ 2 ^ 16) : ∃ t, buildTree lens = .ok t :=
  ⟨_, if_neg (Nat.not_lt.2 h)⟩

/-- A maximum taken from the left is where it starts or an element. -/
theorem foldl_max_eq_or_mem (lens : List Nat) (start : Nat) :
    lens.foldl max start = start ∨ lens.foldl max start ∈ lens := by
  induction lens generalizing start with
  | nil => exact .inl rfl
  | cons a rest ih =>
    rw [List.foldl_cons, List.mem_cons]
    obtain heq | hmem := ih (max start a)
    · rw [heq]
      obtain hle | hle := Nat.le_total a start
      · exact .inl (Nat.max_eq_left hle)
      · exact .inr (.inl (Nat.max_eq_right hle))
    · exact .inr (.inr hmem)

/-- LMAX is the largest length (41_huffman.md R173). -/
theorem lmax_of_buildTree {lens : List Nat} {t : Tree} (hb : buildTree lens = .ok t) :
    (∀ l ∈ lens, l ≤ t.lmax) ∧ (t.lmax = 0 ∨ t.lmax ∈ lens) := by
  obtain ⟨-, rfl⟩ := buildTree_ok hb
  exact ⟨(le_foldl_max lens 0).2, foldl_max_eq_or_mem lens 0⟩

/-- Every used symbol has its canonical code (41_huffman.md R173). -/
theorem exists_canonicalIn {lens : List Nat} {i : Nat} (hi : i < lens.length) (hne : lens.getD i 0 ≠ 0) :
    ∃ e : Code, e.CanonicalIn lens ∧ e.sym = i := by
  rw [List.getD_eq_getElem?_getD, List.getElem?_eq_getElem hi, Option.getD_some] at hne
  exact ⟨⟨lens[i], firstCode lens lens[i] + (lens.take i).count lens[i], i⟩, ⟨List.getElem?_eq_getElem hi, hne, rfl⟩, rfl⟩

/-! ## Decode -/

/-- A field stands at the cursor when it spans its width from there. -/
theorem standsAt_fieldBits_iff_spans {g : Config} {pos v n : Nat} :
    (Encoding.bits (fieldBits v n)).standsAt g pos ↔ (Encoding.bits (fieldBits v n)).spans g pos (pos + n) := by
  refine ⟨fun h => ⟨h, ?_⟩, And.left⟩
  obtain ⟨-, -, hend⟩ := spans_fieldBits.1 (⟨h, rfl⟩ : Encoding.spans g pos _ _)
  exact hend.symm

/-- The loop of Decode goes on past bits that are no code (41_huffman.md R178). -/
theorem decodeLoop_succ_of_lookup_none {g : Config} {t : Tree} {fuel l pos : Nat} (ha : pos + (l + 1) ≤ g.avail)
    (hl : t.lookup (l + 1) (g.gather pos (l + 1)) = none) :
    decodeLoop g t (fuel + 1) l (g.gather pos l) (pos + l) =
      decodeLoop g t fuel (l + 1) (g.gather pos (l + 1)) (pos + (l + 1)) := by
  have hread : readBits g (pos + l) 1 = .ok (g.gather (pos + l) 1, pos + (l + 1)) := readBits_ok.2 ⟨ha, rfl⟩
  have hvalue : 2 * g.gather pos l + g.gather (pos + l) 1 = g.gather pos (l + 1) := by simp [Config.gather]
  simp only [decodeLoop, hread, bind, Except.bind, hvalue, hl]

/-- The loop of Decode stops at the end of the stream (41_huffman.md R178). -/
theorem decodeLoop_succ_of_avail_lt {g : Config} {t : Tree} {fuel l c pos : Nat} (ha : g.avail < pos + 1) :
    decodeLoop g t (fuel + 1) l c pos = .error (.fault .inputExhausted) :=
  except_bind_error.2 (.inl (readBits_error.2 ⟨ha, rfl⟩))

/-- Where no bits at pos are a code, the loop of Decode reads to LMAX bits or to the end of the stream
(41_huffman.md R178). -/
theorem decodeLoop_of_no_code {g : Config} {t : Tree} {fuel l pos : Nat}
    (hnone : ∀ n, pos + n ≤ g.avail → t.lookup n (g.gather pos n) = none) (h : fuel ≠ 0 ∨ pos + l ≤ g.avail) :
    decodeLoop g t fuel l (g.gather pos l) (pos + l) =
      .error (.fault (if pos + (l + fuel) ≤ g.avail then .invalidCode else .inputExhausted)) := by
  induction fuel generalizing l with
  | zero =>
    rw [Nat.add_zero, if_pos (h.resolve_left (not_not_intro rfl)), decodeLoop]
  | succ fuel ih =>
    by_cases ha : pos + (l + 1) ≤ g.avail
    · rw [decodeLoop_succ_of_lookup_none ha (hnone _ ha), ih (.inr ha), Nat.add_right_comm, Nat.add_assoc l]
    · rw [decodeLoop_succ_of_avail_lt (by omega), if_neg (by omega)]

/-- Bits that are no code of the tree stand for no symbol. -/
theorem lookup_eq_none_of_no_code {g : Config} {t : Tree} {pos n : Nat} (ht : t.Decodable)
    (hno : ∀ e ∈ t.codes, ¬ (Encoding.bits (fieldBits e.code e.len)).standsAt g pos) (ha : pos + n ≤ g.avail) :
    t.lookup n (g.gather pos n) = none := by
  cases hl : t.lookup n (g.gather pos n) with
  | none => rfl
  | some s =>
    obtain ⟨e, he, rfl, hcode, -⟩ := lookup_some hl
    exact absurd (standsAt_fieldBits_iff_spans.2 ((spans_codeBits ht he).2 ⟨hcode.symm, ha, rfl⟩)) (hno e he)

/-! ## The obligations -/

/-- Settles O16: the sum over the used symbols is the Kraft sum that Build compares. -/
theorem buildAcceptsByKraftSum : Obligations.BuildAcceptsByKraftSum := by
  intro lens _
  rw [sum_used_eq_kraft]
  exact ⟨buildTree_of_lt_kraft, buildTree_of_kraft_le⟩

/-- Settles O17: the codes of the tree are the canonical ones of the array, and of these none begins another. -/
theorem buildAssignsCanonicalCodes : Obligations.BuildAssignsCanonicalCodes := by
  intro lens t h16 hb
  have ht := buildTree_decodable h16 hb
  have hcanon {e : Code} : e ∈ t.codes ↔ e.CanonicalIn lens := mem_codes_of_buildTree h16 hb
  refine ⟨?used, ?canonical, rfl, ?recurrence, ?prefixFree, lmax_of_buildTree hb⟩
  case used =>
    intro i hi hne
    obtain ⟨e, he, hsym⟩ := exists_canonicalIn hi hne
    exact ⟨e, hcanon.2 he, hsym⟩
  case canonical =>
    intro e he
    obtain ⟨hlen, hne, hcode⟩ := hcanon.1 he
    exact ⟨hlen, hne, ht.code_lt e he, hcode⟩
  case recurrence =>
    intro l hl
    exact firstCode_succ lens (Nat.ne_of_gt hl)
  case prefixFree =>
    intro e he e' he' hne hle hbegins
    exact hne (ht.eq_of_begins e he e' he' hle hbegins)

/-- Settles O18: where a code stands by the symbols Decode answers, and where none does by reading to the loop's end. -/
theorem decodeFindsTheCodeAtTheCursor : Obligations.DecodeFindsTheCodeAtTheCursor := by
  intro g lens t pos h16 hb
  have ht := buildTree_decodable h16 hb
  refine ⟨?found, ?emptyTree, ?noCode, rfl⟩
  case found =>
    intro e he hstands
    exact (decodeSymbol_ok_iff_spans ht).2
      ⟨_, (codeBits_eq_some_iff ht).2 ⟨e, he, rfl, rfl⟩, standsAt_fieldBits_iff_spans.1 hstands⟩
  case emptyTree =>
    intro hzero
    rw [decodeSymbol, hzero]
    rfl
  case noCode =>
    intro hne hno
    have h := decodeLoop_of_no_code (l := 0) (fun _ => lookup_eq_none_of_no_code ht hno) (.inl hne)
    rwa [Nat.zero_add] at h

end Sys2Proof
end

section
/-! PROOFS. The tree reads, element by element: what an op of a range makes of its length array, and how a range ends. -/

namespace Sys2Proof.Machine

/-! ## A length array after an op -/

/-- One entry replaced: that entry, and every other as it was. -/
theorem set_getD {arr : List Nat} {i : Nat} (h : i < arr.length) (v k : Nat) :
    (arr.set i v).getD k 0 = if k = i then v else arr.getD k 0 := by
  simp only [List.getD_eq_getElem?_getD]
  split
  · next heq => rw [heq, List.getElem?_set_self h, Option.getD_some]
  · next hne => rw [List.getElem?_set_ne (Ne.symm hne)]

/-- A run within its array: the entries of the run, and every other as it was (42_tree_of_trees.md R206 to R208). -/
theorem fillRun_getD {arr : List Nat} {i n : Nat} (h : i + n ≤ arr.length) (v k : Nat) :
    (fillRun arr i v n).getD k 0 = if i ≤ k ∧ k < i + n then v else arr.getD k 0 := by
  induction n generalizing arr i with
  | zero => rw [fillRun, if_neg (by omega)]
  | succ n ih =>
    rw [fillRun, ih (by rw [List.length_set]; omega), set_getD (by omega)]
    by_cases hlater : i + 1 ≤ k ∧ k < i + 1 + n
    · rw [if_pos hlater, if_pos (by omega)]
    · rw [if_neg hlater]
      by_cases hfirst : k = i
      · rw [if_pos hfirst, if_pos (by omega)]
      · rw [if_neg hfirst, if_neg (by omega)]

/-- A range ends within its array. -/
theorem last_le_length {g : Config} {c : Regs} (h : c.Ok g) (t : Target) : t.last g ≤ (t.array c).length := by
  have hmain : numChars ≤ g.nmain := Nat.le_add_right _ _
  cases t <;> simp only [Target.last, Target.array, h.mainLens.1, h.lengthLens.1] <;> omega

/-- Every entry read from a range's array is in 0..16. -/
theorem array_getD_le {g : Config} {c : Regs} (h : c.Ok g) (t : Target) (i : Nat) : (t.array c).getD i 0 ≤ 16 := by
  rw [List.getD_eq_getElem?_getD]
  cases hi : (t.array c)[i]? with
  | none => exact Nat.zero_le _
  | some l => exact array_le h t l (List.mem_of_getElem? hi)

/-- The delta 0 leaves a length (42_tree_of_trees.md R205). -/
theorem deltaLen_zero {prev : Nat} (h : prev ≤ 16) : deltaLen prev 0 = prev := by
  unfold deltaLen; omega

/-- Every length is reached from every length by a delta in 0..16 (42_tree_of_trees.md R205). -/
theorem deltaLen_reaches {prev v : Nat} (hp : prev ≤ 16) (hv : v ≤ 16) : ∃ x, x ≤ 16 ∧ deltaLen prev x = v :=
  ⟨(prev + 17 - v) % 17, by omega, by unfold deltaLen; omega⟩

/-- An entry that is set to its own value leaves its array. -/
theorem set_getD_self (arr : List Nat) (i : Nat) : arr.set i (arr.getD i 0) = arr := by
  by_cases h : i < arr.length
  · rw [List.getD_eq_getElem?_getD, List.getElem?_eq_getElem h, Option.getD_some, List.set_getElem_self]
  · exact List.set_eq_of_length_le (Nat.le_of_not_lt h)

/-! ## The loop test of a range -/

/-- Before its last index a range calls for the next op (42_tree_of_trees.md R202). -/
theorem rangeAt_of_lt {s : State} {t : Target} {i : Nat} (c : Regs) (h : i < t.last s.cfg) :
    rangeAt s c t i = .next (s.working c (.ptOp t i)) := if_pos h

/-- Past its last index a range is full (42_tree_of_trees.md R202). -/
theorem rangeAt_of_le {s : State} {t : Target} {i : Nat} (c : Regs) (h : t.last s.cfg ≤ i) :
    rangeAt s c t i = rangeDone s c t := if_neg (Nat.not_lt.2 h)

/-- After an op the next op follows, or the range ends. -/
theorem rangeAt_goesOn (s : State) (c : Regs) (t : Target) (i : Nat) :
    ∃ u, rangeAt s c t i = .next u
      ∧ (i < t.last s.cfg → u = s.working c (.ptOp t i)) ∧ (i = t.last s.cfg → rangeDone s c t = .next u) := by
  obtain ⟨u, hu⟩ := rangeAt_next s c t i
  refine ⟨u, hu, fun hlt => ?_, fun heq => ?_⟩
  · rw [rangeAt_of_lt c hlt] at hu
    cases hu; rfl
  · rw [← rangeAt_of_le c (Nat.le_of_eq heq.symm), hu]

/-- A run that fits its range fills its entries, and the next op follows or the range ends. -/
theorem runOf_fills {s : State} {c : Regs} {t : Target} {i n : Nat} (hok : c.Ok s.cfg) (h : i + n ≤ t.last s.cfg)
    (v : Nat) : ∃ arr u, runOf s c t i n v = .next u
      ∧ arr.length = (t.array c).length
      ∧ (∀ k, arr.getD k 0 = if i ≤ k ∧ k < i + n then v else (t.array c).getD k 0)
      ∧ (i + n < t.last s.cfg → u = s.working (t.put c arr) (.ptOp t (i + n)))
      ∧ (i + n = t.last s.cfg → rangeDone s (t.put c arr) t = .next u) := by
  obtain ⟨u, hu, hgo⟩ := rangeAt_goesOn s (t.put c (fillRun (t.array c) i v n)) t (i + n)
  have hlen : i + n ≤ (t.array c).length := Nat.le_trans h (last_le_length hok t)
  refine ⟨fillRun (t.array c) i v n, u, ?_, fillRun_length .., fillRun_getD hlen v, hgo⟩
  rw [runOf, if_neg (Nat.not_lt.2 h), hu]

/-- A run past the end of its range is InvalidLength. -/
theorem runOf_of_last_lt {s : State} {t : Target} {i n : Nat} (c : Regs) (h : t.last s.cfg < i + n) (v : Nat) :
    runOf s c t i n v = .next (s.takeFault .invalidLength) := if_pos h

/-! ## The meanings of the tree reads in their places -/

section Meanings
variable {s : State} {c : Regs}

/-- PRETREE with lengths that Build accepts begins its range (42_tree_of_trees.md R201, R202). -/
theorem exec_pretree_of_ok {t : Target} {lens : List (BitVec 4)} {tree : Tree} (hw : s.work = some ⟨c, .pretree t⟩)
    (hb : buildTree (lens.map BitVec.toNat) = .ok tree) :
    exec (.pretree lens) s = rangeAt s { c with ptLen := lens.map BitVec.toNat, preTree := some tree } t t.first := by
  simp only [exec, execPretree, hw, hb]

/-- PRETREE with lengths that Build rejects takes its fault. -/
theorem exec_pretree_of_error {t : Target} {lens : List (BitVec 4)} {k : FaultKind}
    (hw : s.work = some ⟨c, .pretree t⟩) (hb : buildTree (lens.map BitVec.toNat) = .error k) :
    exec (.pretree lens) s = .next (s.takeFault k) := by
  simp only [exec, execPretree, hw, hb, raise]

/-- PT.DELTA in its place (42_tree_of_trees.md R204). -/
theorem exec_ptDelta {t : Target} {i : Nat} (hw : s.work = some ⟨c, .ptOp t i⟩) (sym : Nat) :
    exec (.ptDelta sym) s =
      rangeAt s (t.put c ((t.array c).set i (deltaLen ((t.array c).getD i 0) sym))) t (i + 1) := by
  simp only [exec, execPtDelta, hw]

/-- PT.ZRUN4 in its place (42_tree_of_trees.md R206). -/
theorem exec_ptZrun4 {t : Target} {i : Nat} (hw : s.work = some ⟨c, .ptOp t i⟩) (z : BitVec 4) :
    exec (.ptZrun4 z) s = runOf s c t i (4 + z.toNat) 0 := by
  simp only [exec, execPtZrun4, hw]

/-- PT.ZRUN20 in its place (42_tree_of_trees.md R207). -/
theorem exec_ptZrun20 {t : Target} {i : Nat} (hw : s.work = some ⟨c, .ptOp t i⟩) (z : BitVec 5) :
    exec (.ptZrun20 z) s = runOf s c t i (20 + z.toNat) 0 := by
  simp only [exec, execPtZrun20, hw]

/-- PT.SAME in its place with a value symbol up to 16 (42_tree_of_trees.md R208). -/
theorem exec_ptSame_of_le {t : Target} {i sym : Nat} (hw : s.work = some ⟨c, .ptOp t i⟩) (z : BitVec 1)
    (h : sym ≤ 16) :
    exec (.ptSame z sym) s = runOf s c t i (4 + z.toNat) (deltaLen ((t.array c).getD i 0) sym) := by
  simp only [exec, execPtSame, hw, if_neg (Nat.not_lt.2 h)]

/-- PT.SAME in its place with a value symbol above 16 is InvalidLength (42_tree_of_trees.md R208). -/
theorem exec_ptSame_of_lt {t : Target} {i sym : Nat} (hw : s.work = some ⟨c, .ptOp t i⟩) (z : BitVec 1)
    (h : 16 < sym) : exec (.ptSame z sym) s = .next (s.takeFault .invalidLength) := by
  simp only [exec, execPtSame, hw, if_pos h, raise]

/-- ALTREE with lengths that Build accepts goes on to the main tree (42_tree_of_trees.md R224, 44_block.md R305). -/
theorem exec_altree_of_ok {lens : List (BitVec 4)} {tree : Tree} (hw : s.work = some ⟨c, .altree⟩)
    (hb : buildTree (lens.map BitVec.toNat) = .ok tree) :
    exec (.altree lens) s = .next (s.working { c with alLen := lens.map BitVec.toNat, alignedTree := some tree }
      (.pretree (firstTarget s.cfg))) := by
  simp only [exec, execAltree, hw, hb]

/-- ALTREE with lengths that Build rejects takes its fault. -/
theorem exec_altree_of_error {lens : List (BitVec 4)} {k : FaultKind} (hw : s.work = some ⟨c, .altree⟩)
    (hb : buildTree (lens.map BitVec.toNat) = .error k) : exec (.altree lens) s = .next (s.takeFault k) := by
  simp only [exec, execAltree, hw, hb, raise]

end Meanings

/-! ## The end of a range -/

/-- A full main array that Build accepts is followed by the length tree (42_tree_of_trees.md R220). -/
theorem rangeDone_main_of_ok {s : State} {c : Regs} {t : Target} {tree : Tree} (ht : t = .mainMatches ∨ t = .mainWhole)
    (hb : buildTree c.mainLen = .ok tree) :
    rangeDone s c t = .next (s.working { c with mainTree := some tree } (.pretree .lengths)) := by
  obtain rfl | rfl := ht <;> simp only [rangeDone, hb]

/-- A full main array that Build rejects takes its fault. -/
theorem rangeDone_main_of_error {s : State} {c : Regs} {t : Target} {k : FaultKind}
    (ht : t = .mainMatches ∨ t = .mainWhole) (hb : buildTree c.mainLen = .error k) :
    rangeDone s c t = .next (s.takeFault k) := by
  obtain rfl | rfl := ht <;> simp only [rangeDone, hb, raise]

/-- A full length array that Build accepts begins the block (42_tree_of_trees.md R222, 44_block.md R296). -/
theorem rangeDone_lengths_of_ok {s : State} {c : Regs} {tree : Tree} (hb : buildTree c.lenLen = .ok tree) :
    rangeDone s c .lengths = .next (s.commit (enterBlock { c with lengthTree := some tree })) := by
  simp only [rangeDone, hb]

/-- A full length array that Build rejects takes its fault. -/
theorem rangeDone_lengths_of_error {s : State} {c : Regs} {k : FaultKind} (hb : buildTree c.lenLen = .error k) :
    rangeDone s c .lengths = .next (s.takeFault k) := by
  simp only [rangeDone, hb, raise]

/-- The registers of a block that has begun are in VERBATIM or ALIGNED. -/
theorem enterBlock_in_block (c : Regs) : (enterBlock c).state = .verbatim ∨ (enterBlock c).state = .aligned := by
  rw [enterBlock_state]
  split
  · exact .inr rfl
  · exact .inl rfl

/-- A Step that does not end in TERMINAL writes the registers only. -/
theorem commit_of_ne_terminal {s : State} {c : Regs} (h : c.state ≠ .terminal) :
    s.commit c = { s with regs := c, work := none } := if_neg h

/-- A header that begins its block writes the registers only. -/
theorem commit_enterBlock (s : State) (c : Regs) :
    s.commit (enterBlock c) = { s with regs := enterBlock c, work := none } := by
  refine commit_of_ne_terminal ?_
  obtain h | h := enterBlock_in_block c <;> rw [h] <;> exact nofun

end Sys2Proof.Machine

namespace Sys2Proof

open Machine

/-- Settles O26: by whether Build accepts the lengths, and then by whether the range has an entry. -/
theorem pretreeIsBuilt : Obligations.PretreeIsBuilt := by
  intro s c t lens hw
  refine ⟨fun hk => ?accepted, fun hk => exec_pretree_of_error hw (buildTree_of_lt_kraft hk)⟩
  obtain ⟨tree, hb⟩ := buildTree_of_kraft_le hk
  have hexec := exec_pretree_of_ok hw hb
  exact ⟨tree, hb, fun hlt => hexec.trans (rangeAt_of_lt _ hlt), fun hle => hexec.trans (rangeAt_of_le _ hle)⟩

/-- Settles O31: by whether Build accepts the lengths. -/
theorem alignedTreeIsBuilt : Obligations.AlignedTreeIsBuilt := by
  intro s c lens hw
  refine ⟨fun hk => ?accepted, fun hk => exec_altree_of_error hw (buildTree_of_lt_kraft hk)⟩
  obtain ⟨tree, hb⟩ := buildTree_of_kraft_le hk
  exact ⟨tree, hb, exec_altree_of_ok hw hb⟩

/-- Settles O30: by whether Build accepts the full array; a block that begins is in VERBATIM or ALIGNED, so its Step ends no
NEXT_CHUNK. -/
theorem fullRangesAreBuilt : Obligations.FullRangesAreBuilt := by
  intro s c
  refine ⟨rfl, ?main, ?lengths, ?mainRejected, ?lengthsRejected⟩
  case main =>
    intro tree hb
    exact ⟨rangeDone_main_of_ok (.inl rfl) hb, rangeDone_main_of_ok (.inr rfl) hb⟩
  case lengths =>
    intro tree hb
    rw [rangeDone_lengths_of_ok hb, commit_enterBlock]
    rfl
  case mainRejected =>
    intro hk
    have hb := buildTree_of_lt_kraft hk
    exact ⟨rangeDone_main_of_error (.inl rfl) hb, rangeDone_main_of_error (.inr rfl) hb⟩
  case lengthsRejected =>
    intro hk
    exact rangeDone_lengths_of_error (buildTree_of_lt_kraft hk)

/-- Settles O27: one entry is set by the delta rule, which is a permutation of 0..16, and the loop test follows. -/
theorem ptDeltaUpdatesOneEntry : Obligations.PtDeltaUpdatesOneEntry := by
  intro s c t i sym hw hok hi
  have hlen : i < (t.array c).length := Nat.lt_of_lt_of_le hi (last_le_length hok t)
  have hprev := array_getD_le hok t i
  have hset := set_getD hlen (deltaLen ((t.array c).getD i 0) sym)
  obtain ⟨u, hu, hnext, hend⟩ :=
    rangeAt_goesOn s (t.put c ((t.array c).set i (deltaLen ((t.array c).getD i 0) sym))) t (i + 1)
  refine ⟨_, u, (exec_ptDelta hw sym).trans hu, List.length_set, hset, hnext, hend, ?inRange, ?zero, ?reached⟩
  case inRange =>
    rw [hset, if_pos rfl]
    exact deltaLen_le _ _
  case zero =>
    rintro rfl
    rw [deltaLen_zero hprev, set_getD_self]
  case reached =>
    intro v hv
    exact deltaLen_reaches hprev hv

/-- Settles O28: both ops are runs of zeros. -/
theorem zeroRunsClearTheirEntries : Obligations.ZeroRunsClearTheirEntries := by
  intro s c t i n op hw hok hop
  have hexec : exec op s = runOf s c t i n 0 := by
    obtain ⟨z, rfl, rfl⟩ | ⟨z, rfl, rfl⟩ := hop
    · exact exec_ptZrun4 hw z
    · exact exec_ptZrun20 hw z
  rw [hexec]
  exact ⟨fun h => runOf_fills hok h 0, fun h => runOf_of_last_lt c h 0⟩

/-- Settles O29: with a value symbol up to 16 the op is a run of the one delta, and above 16 a fault. -/
theorem sameRunRepeatsOneLength : Obligations.SameRunRepeatsOneLength := by
  intro s c t i sym z hw hok
  refine ⟨fun hsym h => ?fits, fun h => ?fault⟩
  case fits =>
    rw [exec_ptSame_of_le hw z hsym]
    exact runOf_fills hok h _
  case fault =>
    obtain hsym | hsym := Nat.lt_or_ge 16 sym
    · exact exec_ptSame_of_lt hw z hsym
    · rw [exec_ptSame_of_le hw z hsym]
      exact runOf_of_last_lt c (h.resolve_left (Nat.not_lt.2 hsym)) _

end Sys2Proof
end

section
/-! PROOFS. The length arrays and the trees that persist in a session: only the element that begins a compressed block
commits them. -/

namespace Sys2Proof.Machine

/-- The registers c' hold the length arrays and the trees that persist in a session as c does (42_tree_of_trees.md R221,
R223). -/
def SameLengths (c c' : Regs) : Prop :=
  c'.mainLen = c.mainLen ∧ c'.lenLen = c.lenLen ∧ c'.mainTree = c.mainTree ∧ c'.lengthTree = c.lengthTree

/-- Nothing changed. -/
theorem SameLengths.refl (c : Regs) : SameLengths c c := ⟨rfl, rfl, rfl, rfl⟩

/-- One change after another. -/
theorem SameLengths.trans {a b d : Regs} (h1 : SameLengths a b) (h2 : SameLengths b d) : SameLengths a d := by
  obtain ⟨hm1, hl1, hmt1, hlt1⟩ := h1
  obtain ⟨hm2, hl2, hmt2, hlt2⟩ := h2
  exact ⟨hm2.trans hm1, hl2.trans hl1, hmt2.trans hmt1, hlt2.trans hlt1⟩

/-- The phases in which the working length arrays and trees are those of the Step's beginning. -/
theorem phaseInv_sameLengths {g : Config} {base c : Regs} {ph : Phase} (h : phaseInv g base c ph)
    (hph : ¬ ph.inHeader) : SameLengths base c := by
  have moved {p : Nat} (e : c = base.at p) : SameLengths base c := by rw [e]; exact .refl base
  cases ph with
  | preamble => exact moved h.2.1
  | header | altree | pretree | ptOp => exact absurd trivial hph
  | uncompR =>
    obtain ⟨-, -, hm, hl, hmt, hlt, -⟩ := h
    exact ⟨hm, hl, hmt, hlt⟩
  | mainSym => exact moved h.same
  | lenSym => exact moved h.same
  | footerV => exact moved h.1.same
  | footerA => exact moved h.1.same
  | alignedLo => exact moved h.1.same
  | extLen => exact moved h.1.same
  | raw => exact moved h.2.1
  | oddPad =>
    obtain ⟨-, -, -, -, -, hsame⟩ := h
    rw [hsame]
    exact .refl base

/-- EmitByte of a run of bytes leaves the length arrays and their trees. -/
theorem foldl_emitByte_sameLengths (g : Config) (bytes : List Byte) (c : Regs) :
    SameLengths c (bytes.foldl (emitByte g) c) := by
  induction bytes generalizing c with
  | nil => exact .refl c
  | cons b rest ih => exact ih (emitByte g c b)

/-- The end of a main item leaves the length arrays and their trees. -/
theorem endOfItem_sameLengths (c : Regs) : SameLengths c (endOfItem c) := by simp [SameLengths]

/-- No phase of a main item is one of a header. -/
theorem not_inHeader_of_inItem {ph : Phase} (h : ph.inItem) : ¬ ph.inHeader := by
  intro h'
  cases ph with
  | header | altree | pretree | ptOp => exact h
  | _ => exact h'

/-- An element leaves the committed length arrays and their trees, but for the one that begins a compressed block. -/
theorem elementEnds_sameLengths {s t : State} {c : Regs} {ph : Phase} (he : ElementEnds s c ph t)
    (hc : ¬ ph.inHeader → SameLengths s.regs c) :
    SameLengths s.regs t.regs
      ∨ ((∃ i, ph = .ptOp .lengths i) ∨ ph = .pretree .lengths ∧ s.cfg.params.numLengthSymbols = 0)
        ∧ (t.regs.state = .verbatim ∨ t.regs.state = .aligned) := by
  have committed {c' : Regs} (h : SameLengths s.regs c') : SameLengths s.regs (s.commit c').regs := by
    rwa [commit_regs]
  cases he with
  | fault | headerGoes | itemGoes | rawPads => exact .inl (.refl s.regs)
  | blockBegins c' h =>
    refine .inr ⟨h, ?_⟩
    rw [commit_regs]
    exact enterBlock_in_block c'
  | preamble flag size h | uncompBegins a b d h | rawGoes b h | rawEnds b h | padEnds h =>
    subst h
    exact .inl (committed (hc id))
  | itemEnds a b d bytes h =>
    have hset : SameLengths s.regs (c.setCache a b d) := hc (not_inHeader_of_inItem h)
    have hemit := hset.trans (foldl_emitByte_sameLengths s.cfg bytes _)
    exact .inl (committed (hemit.trans (endOfItem_sameLengths _)))

/-- No Step begins with an op of a pretree (45_chunk_driver.md R343). -/
theorem work_of_reads_ptOp {s : State} {c : Regs} {t : Target} {i : Nat} (hr : Reads s c (.ptOp t i)) :
    s.work = some ⟨c, .ptOp t i⟩ := by
  obtain hw | ⟨-, -, -, -, hb⟩ := hr
  · exact hw
  · unfold beginStep at hb
    repeat' split at hb
    all_goals cases hb

/-- NEW accepts only a length tree with a symbol (45_chunk_driver.md R341). -/
theorem numLengthSymbols_ne_zero {g : Config} (hv : g.valid = true) : g.params.numLengthSymbols ≠ 0 := by
  simp only [Config.valid, Params.valid, Bool.and_eq_true, bne_iff_ne] at hv
  obtain ⟨-, ⟨-, hne⟩, -⟩ := hv
  exact hne

/-- The return of a chunk leaves the length arrays and their trees. -/
theorem returnChunk_sameLengths (s : State) : SameLengths s.regs s.returnChunk.regs := by simp [SameLengths]

end Sys2Proof.Machine

namespace Sys2Proof

open Machine

/-- Settles O32: outside a compressed header the working arrays are the committed ones, and inside it only the element that
begins the block commits; that is the last op of the length tree, which has a symbol. -/
theorem lengthArraysPersist : Obligations.LengthArraysPersist := by
  intro s t hi hrun e
  cases step_cases hrun e with
  | readFault => exact .inl (SameLengths.refl s.regs)
  | element c ph i p _ hr hd he =>
    obtain ⟨hL, hph⟩ := hi.reads hrun hr
    have hc (h : ¬ ph.inHeader) : SameLengths s.regs c := phaseInv_sameLengths hph h
    obtain hsame | ⟨⟨i, rfl⟩ | ⟨-, hzero⟩, hstate⟩ := elementEnds_sameLengths he hc
    · exact .inl hsame
    · exact .inr ⟨c, i, work_of_reads_ptOp hr, hstate⟩
    · exact absurd hzero (numLengthSymbols_ne_zero hL.valid)
  | full => exact .inl (returnChunk_sameLengths s)
  | silent c _ _ _ hb =>
    obtain ⟨x, rfl⟩ := beginStep_silent hb
    rw [commit_regs]
    exact .inl (SameLengths.refl s.regs)

end Sys2Proof
end

section
/-! PROOFS. A Step taken whole: its elements one after another against the spec's pseudocode read by read. -/

namespace Sys2Proof.Machine

/-! ## The spec's reads in order -/

/-- What the machine becomes when a read of the Step has ended in x: `k` goes on from its value, and its stop ends the
Step. -/
def readThen {α : Type} (s : State) (x : Except ReadStop α) (k : α → Host.Outcome State Fault Refusal) :
    Host.Outcome State Fault Refusal :=
  match x with
  | .ok a => k a
  | .error e => stepResult s (.error e)

/-- A read that does not need the stream goes on from its value. -/
theorem readThen_pure {α : Type} (s : State) (a : α) (k : α → Host.Outcome State Fault Refusal) :
    readThen s (pure a) k = k a := rfl

/-- One read after another. -/
theorem readThen_bind {α β : Type} (s : State) (x : Except ReadStop α) (f : α → Except ReadStop β)
    (k : β → Host.Outcome State Fault Refusal) :
    readThen s (x >>= f) k = readThen s x fun a => readThen s (f a) k := by
  cases x <;> rfl

/-- A choice between two reads. -/
theorem readThen_ite {α : Type} (s : State) (p : Prop) [Decidable p] (x y : Except ReadStop α)
    (k : α → Host.Outcome State Fault Refusal) :
    readThen s (if p then x else y) k = if p then readThen s x k else readThen s y k := by
  split <;> rfl

/-- A Step's result is its read, then the end of the Step. -/
theorem stepResult_eq_readThen (s : State) (x : Except ReadStop Regs) :
    stepResult s x = readThen s x fun c => .next (s.commit c) := by
  cases x <;> rfl

/-- Two ways to go on that agree on the values a read can answer. -/
theorem readThen_congr {α : Type} {s : State} {x : Except ReadStop α} {k k' : α → Host.Outcome State Fault Refusal}
    (h : ∀ a, x = .ok a → k a = k' a) : readThen s x k = readThen s x k' := by
  cases hx : x with
  | ok a => exact h a hx
  | error e => rfl

/-- A running machine runs the element that it reads next, and ends the Step where the element does not decode. -/
theorem step_eq_readThen {s : State} {c : Regs} {ph : Phase} (hrun : s.running = true) (hr : Reads s c ph) :
    step s = readThen s (decode s.cfg (formatOf c ph) c.bitpos) fun r => exec r.1 (s.working (c.at r.2) ph) := by
  cases hd : decode s.cfg (formatOf c ph) c.bitpos with
  | ok r => exact step_of_reads hrun hr hd
  | error e => cases e <;> rw [step, fetch_of_reads hrun hr, fetchElement, hd] <;> rfl

/-- The next element of a Step in progress is run, and ends the Step where it does not decode. -/
theorem step_working_eq_readThen {s : State} (hrun : s.running = true) (c : Regs) (ph : Phase) :
    step (s.working c ph) =
      readThen s (decode s.cfg (formatOf c ph) c.bitpos) fun r => exec r.1 (s.working (c.at r.2) ph) := by
  rw [step_eq_readThen (s := s.working c ph) hrun (.inl rfl)]
  cases hd : decode s.cfg (formatOf c ph) c.bitpos with
  | ok r => rw [working_cfg, hd]; rfl
  | error e => rw [working_cfg, hd]; cases e <;> rfl

/-! ## The machine's steps in order -/

/-- A transition that reads nothing is a whole Step (44_block.md R290, R294). -/
theorem step_of_begin_silent {s : State} {c : Regs} (hrun : s.running = true) (hw : s.work = none)
    (hf : s.regs.fault = none) (hc : s.regs.chunkFill ≠ s.cfg.params.chunkSize)
    (hb : beginStep s.cfg s.regs = .silent c) : step s = .next (s.commit c) := by
  refine step_of_fetch_quiet ((fetch_boundary hrun hw).trans ?_)
  rw [fetchPass, if_neg (not_not_intro hf), if_neg hc, hb]

/-- The Step goes on from an outcome for at most `fuel` more steps. -/
def settleFrom (fuel : Nat) : Host.Outcome State Fault Refusal → Host.Outcome State Fault Refusal
  | .next t => settle fuel t
  | o => o

/-- A pass is one step, and then the rest of its Step (45_chunk_driver.md R353). -/
theorem pass_eq_settleFrom (s : State) : pass s = settleFrom (stepFuel s.cfg) (step s) := by
  unfold pass; cases step s <;> rfl

/-- From the outcome o of a step the rest of the Step, of at most n steps, has the outcome r. -/
def Leads (n : Nat) (o r : Host.Outcome State Fault Refusal) : Prop := ∀ fuel, n ≤ fuel → settleFrom fuel o = r

/-- A longer bound serves too. -/
theorem Leads.mono {m n : Nat} {o r : Host.Outcome State Fault Refusal} (h : Leads m o r) (hmn : m ≤ n) : Leads n o r :=
  fun fuel hn => h fuel (Nat.le_trans hmn hn)

/-- A Step that is over stays as it is. -/
theorem leads_of_work_none {t : State} (hw : t.work = none) (n : Nat) : Leads n (.next t) (.next t) := by
  intro fuel _
  cases fuel with
  | zero => rfl
  | succ fuel => simp only [settleFrom, settle, hw]

/-- A Step that is not over makes a step. -/
theorem leads_of_step {n : Nat} {t : State} {w : Work} {r : Host.Outcome State Fault Refusal} (hw : t.work = some w)
    (h : Leads n (step t) r) : Leads (n + 1) (.next t) r := by
  intro fuel hn
  obtain ⟨fuel, rfl⟩ : ∃ m, fuel = m + 1 := ⟨fuel - 1, by omega⟩
  rw [← h fuel (by omega)]
  cases hs : step t <;> simp only [settleFrom, settle, hw, hs]

/-- The end of a Step, a fault or a refusal is final. -/
theorem leads_stepResult (s : State) (x : Except ReadStop Regs) (n : Nat) :
    Leads n (stepResult s x) (stepResult s x) := by
  cases x with
  | ok c => exact leads_of_work_none (commit_work s c) n
  | error e =>
    cases e with
    | fault k => exact leads_of_work_none (takeFault_work s k) n
    | unaligned | absent => exact fun _ _ => rfl

/-- Where the machine and the spec make the same read, it is enough that they go on alike from its value. -/
theorem Leads.readThen {α : Type} {n : Nat} {s : State} {x : Except ReadStop α}
    {k k' : α → Host.Outcome State Fault Refusal} (h : ∀ a, x = .ok a → Leads n (k a) (k' a)) :
    Leads n (readThen s x k) (readThen s x k') := by
  cases hx : x with
  | ok a => exact h a hx
  | error e => exact leads_stepResult s (.error e) n

end Sys2Proof.Machine
end

section
/-! PROOFS. A block header and its trees: each element is one read of the spec's pseudocode (42_tree_of_trees.md R201 to
R224), and their sequence is AwaitStep (44_block.md R296). -/

namespace Sys2Proof.Machine

/-! ## The block of a header -/

/-- The registers c' have the block type and the block length of c. -/
def SameBlock (c c' : Regs) : Prop := c'.btype = c.btype ∧ c'.blockLen = c.blockLen

/-- One change after another. -/
theorem SameBlock.trans {a b d : Regs} (h1 : SameBlock a b) (h2 : SameBlock b d) : SameBlock a d :=
  ⟨h2.1.trans h1.1, h2.2.trans h1.2⟩

/-- A range writes its array only. -/
theorem put_sameBlock (c : Regs) (arr : List Nat) (t : Target) : SameBlock c (t.put c arr) :=
  ⟨put_btype c arr t, put_blockLen c arr t⟩

/-- A pretree leaves the block. -/
theorem readPretree_sameBlock {g : Config} {c c' : Regs} (h : readPretree g c = .ok c') : SameBlock c c' := by
  obtain ⟨⟨ls, p⟩, -, h⟩ := except_bind_ok.1 h
  obtain ⟨tree, -, h⟩ := except_bind_ok.1 h
  cases h
  exact ⟨rfl, rfl⟩

/-- An aligned tree leaves the block. -/
theorem readAlignedTree_sameBlock {g : Config} {c c' : Regs} (h : readAlignedTree g c = .ok c') : SameBlock c c' := by
  obtain ⟨⟨ls, p⟩, -, h⟩ := except_bind_ok.1 h
  obtain ⟨tree, -, h⟩ := except_bind_ok.1 h
  cases h
  exact ⟨rfl, rfl⟩

/-- A run of an op leaves the block, and the op goes on past its entries. -/
theorem fillChecked_then_ok {g : Config} {t : Target} {c : Regs} {p i n v : Nat} {r : Regs × Nat} (hn : 0 < n)
    (h : (fillChecked g t (c.at p) i n v >>= fun c' => pure (c', i + n)) = .ok r) : SameBlock c r.1 ∧ i < r.2 := by
  obtain ⟨c', hc, h⟩ := except_bind_ok.1 h
  unfold fillChecked at hc
  split at hc <;> cases hc
  cases h
  exact ⟨put_sameBlock (c.at p) _ t, Nat.lt_add_of_pos_right hn⟩

/-- An op leaves the block, and fills at least one entry. -/
theorem ptOpStep_ok {g : Config} {t : Target} {i : Nat} {c : Regs} {r : Regs × Nat} (h : ptOpStep g t i c = .ok r) :
    SameBlock c r.1 ∧ i < r.2 := by
  obtain ⟨⟨sym, p⟩, -, h⟩ := except_bind_ok.1 h
  simp only at h
  split at h
  · cases h
    exact ⟨put_sameBlock (c.at p) _ t, Nat.lt_succ_self i⟩
  split at h
  · obtain ⟨⟨z, q⟩, -, h⟩ := except_bind_ok.1 h
    exact fillChecked_then_ok (by omega) h
  split at h
  · obtain ⟨⟨z, q⟩, -, h⟩ := except_bind_ok.1 h
    exact fillChecked_then_ok (by omega) h
  · obtain ⟨⟨z, q⟩, -, h⟩ := except_bind_ok.1 h
    obtain ⟨⟨v, q'⟩, -, h⟩ := except_bind_ok.1 h
    simp only at h
    split at h
    · cases h
    · exact fillChecked_then_ok (by omega) h

/-! ## One element, one read -/

/-- A field of w bits, held in m ≥ w bits, is the number read. -/
theorem readBits_toNat {g : Config} {pos w m : Nat} {r : Nat × Nat} (hwm : w ≤ m) (h : readBits g pos w = .ok r) :
    (BitVec.ofNat m r.1).toNat = r.1 := by
  obtain ⟨-, rfl⟩ := readBits_ok.1 h
  exact Nat.mod_eq_of_lt (Nat.lt_of_lt_of_le (gather_lt g pos w) (Nat.pow_le_pow_right (by decide) hwm))

/-- A run of fields of w bits, each held in m ≥ w bits, is the run of numbers read. -/
theorem readRun_toNat {g : Config} {pos w m n p : Nat} {ls : List Nat} (hwm : w ≤ m)
    (h : readRun g w pos n = .ok (ls, p)) : (ls.map (BitVec.ofNat m)).map BitVec.toNat = ls := by
  obtain ⟨-, -, -, hlt⟩ := readRun_ok h
  rw [List.map_map]
  refine (List.map_congr_left fun l hl => ?_).trans (List.map_id ls)
  exact Nat.mod_eq_of_lt (Nat.lt_of_lt_of_le (hlt l hl) (Nat.pow_le_pow_right (by decide) hwm))

/-- The end of a range does not look at the working registers before it. -/
theorem rangeDone_working (s : State) (c0 c : Regs) (ph : Phase) (t : Target) :
    rangeDone (s.working c0 ph) c t = rangeDone s c t := by
  cases t <;> rfl

/-- The loop test of a range does not look at the working registers before it. -/
theorem rangeAt_working (s : State) (c0 c : Regs) (ph : Phase) (t : Target) (i : Nat) :
    rangeAt (s.working c0 ph) c t i = rangeAt s c t i := by
  unfold rangeAt
  rw [rangeDone_working]
  rfl

/-- A run of an op is the spec's checked run, then the loop test (42_tree_of_trees.md R202). -/
theorem runOf_eq_readThen (s : State) (c0 c : Regs) (ph : Phase) (t : Target) (i n v : Nat) :
    runOf (s.working c0 ph) c t i n v = readThen s (fillChecked s.cfg t c i n v) fun c' => rangeAt s c' t (i + n) := by
  rw [runOf, rangeAt_working, fillChecked]
  by_cases h : t.last s.cfg < i + n
  · rw [if_pos h]
    exact if_pos h
  · rw [if_neg h]
    exact if_neg h

section Elements
variable {s : State} (hrun : s.running = true) (c : Regs)
include hrun

/-- The pretree's element is ReadPretree (42_tree_of_trees.md R201). -/
theorem step_pretree (t : Target) :
    step (s.working c (.pretree t)) = readThen s (readPretree s.cfg c) fun c' => rangeAt s c' t t.first := by
  simp only [step_working_eq_readThen hrun, formatOf, decode, readPretree, readThen_bind, readThen_pure]
  refine readThen_congr fun r hr => ?_
  have hls := readRun_toNat (m := 4) (Nat.le_refl _) hr
  cases hb : buildTree r.1 with
  | ok tree =>
    rw [exec_pretree_of_ok rfl (hls.symm ▸ hb), rangeAt_working, hls]
    rfl
  | error k =>
    rw [exec_pretree_of_error rfl (hls.symm ▸ hb)]
    rfl

/-- The aligned tree's element is ReadAlignedTree (42_tree_of_trees.md R224), and the main tree follows
(44_block.md R305). -/
theorem step_altree (hv : s.cfg.valid = true) :
    step (s.working c .altree) =
      readThen s (readAlignedTree s.cfg c) fun c' => .next (s.working c' (.pretree (firstTarget s.cfg))) := by
  simp only [step_working_eq_readThen hrun, formatOf, decode, readAlignedTree, readThen_bind, readThen_pure]
  refine readThen_congr fun r hr => ?_
  have hls := readRun_toNat (m := 4) (valid_widths hv).2.2 hr
  cases hb : buildTree r.1 with
  | ok tree =>
    rw [exec_altree_of_ok rfl (hls.symm ▸ hb), hls]
    rfl
  | error k =>
    rw [exec_altree_of_error rfl (hls.symm ▸ hb)]
    rfl

/-- The op's element is the spec's op (42_tree_of_trees.md R202 to R208). -/
theorem step_ptOp (hv : s.cfg.valid = true) (t : Target) (i : Nat) :
    step (s.working c (.ptOp t i)) = readThen s (ptOpStep s.cfg t i c) fun r => rangeAt s r.1 t r.2 := by
  simp only [step_working_eq_readThen hrun, formatOf, decode, decodePtOp, ptOpStep, readThen_bind]
  refine readThen_congr fun r _ => ?_
  by_cases h16 : r.1 ≤ 16
  · simp only [if_pos h16, readThen_pure]
    exact (exec_ptDelta rfl _).trans (rangeAt_working ..)
  by_cases h17 : r.1 = 17
  · simp only [if_neg h16, if_pos h17, readThen_bind, readThen_pure]
    refine readThen_congr fun z hz => ?_
    rw [exec_ptZrun4 rfl, readBits_toNat (valid_widths hv).1.2 hz]
    exact runOf_eq_readThen ..
  by_cases h18 : r.1 = 18
  · simp only [if_neg h16, if_neg h17, if_pos h18, readThen_bind, readThen_pure]
    refine readThen_congr fun z hz => ?_
    rw [exec_ptZrun20 rfl, readBits_toNat (Nat.le_refl _) hz]
    exact runOf_eq_readThen ..
  · simp only [if_neg h16, if_neg h17, if_neg h18, readThen_bind, readThen_pure]
    refine readThen_congr fun z hz => readThen_congr fun v _ => ?_
    by_cases hv16 : 16 < v.1
    · rw [exec_ptSame_of_lt rfl _ hv16, if_pos hv16]
      rfl
    · rw [exec_ptSame_of_le rfl _ (Nat.le_of_not_lt hv16), if_neg hv16, readBits_toNat (Nat.le_refl _) hz,
        readThen_bind]
      exact runOf_eq_readThen ..

end Elements

/-! ## The ends of the ranges -/

/-- The end of a main range is Build of the main tree, and the length tree follows (42_tree_of_trees.md R220). -/
theorem rangeDone_main_eq_readThen (s : State) (c : Regs) {t : Target} (ht : t = .mainMatches ∨ t = .mainWhole) :
    rangeDone s c t = readThen s (liftFault (buildTree c.mainLen)) fun tree =>
      .next (s.working { c with mainTree := some tree } (.pretree .lengths)) := by
  cases hb : buildTree c.mainLen with
  | ok tree => exact rangeDone_main_of_ok ht hb
  | error k => exact rangeDone_main_of_error ht hb

/-- The end of the length range is Build of the length tree, and the block begins (42_tree_of_trees.md R222). -/
theorem rangeDone_lengths_eq_readThen (s : State) (c : Regs) :
    rangeDone s c .lengths = readThen s (liftFault (buildTree c.lenLen)) fun tree =>
      .next (s.commit (enterBlock { c with lengthTree := some tree })) := by
  cases hb : buildTree c.lenLen with
  | ok tree => exact rangeDone_lengths_of_ok hb
  | error k => exact rangeDone_lengths_of_error hb

/-! ## The tree reads -/

section Reads
variable {s : State} {n : Nat} {k : Regs → Host.Outcome State Fault Refusal} (hrun : s.running = true)
  (hv : s.cfg.valid = true)
include hrun hv

/-- The ops from index i on are the loop of ReadLengths, one entry or more for each (42_tree_of_trees.md R202). -/
theorem rangeAt_leads {t : Target} {fuel i : Nat} {c : Regs} (hf : t.last s.cfg ≤ i + fuel)
    (hk : ∀ c', SameBlock c c' → Leads n (rangeDone s c' t) (k c')) :
    Leads (n + fuel) (rangeAt s c t i) (readThen s (ptLoop s.cfg t fuel i c) k) := by
  induction fuel generalizing i c with
  | zero =>
    rw [Nat.add_zero] at hf
    rw [rangeAt_of_le c hf]
    exact hk c ⟨rfl, rfl⟩
  | succ fuel ih =>
    by_cases hi : i < t.last s.cfg
    · rw [rangeAt_of_lt c hi, ptLoop, if_pos hi, readThen_bind]
      refine leads_of_step rfl ?_
      rw [step_ptOp hrun c hv]
      refine .readThen fun r hr => ?_
      obtain ⟨hsame, hlt⟩ := ptOpStep_ok hr
      exact ih (by omega) fun c' hc => hk c' (hsame.trans hc)
    · rw [rangeAt_of_le c (Nat.le_of_not_lt hi), ptLoop, if_neg hi]
      exact (hk c ⟨rfl, rfl⟩).mono (Nat.le_add_right _ _)

/-- A pretree and its ops are ReadLengths (42_tree_of_trees.md R202). -/
theorem readLengths_leads {t : Target} {c : Regs} (hk : ∀ c', SameBlock c c' → Leads n (rangeDone s c' t) (k c')) :
    Leads (n + (t.last s.cfg - t.first) + 1) (.next (s.working c (.pretree t)))
      (readThen s (readLengths s.cfg t c) k) := by
  refine leads_of_step rfl ?_
  rw [step_pretree hrun, readLengths, readThen_bind]
  refine .readThen fun c' hc => ?_
  exact rangeAt_leads hrun hv (by omega) fun c'' hc' => hk c'' ((readPretree_sameBlock hc).trans hc')

/-- The ranges of the main array and its Build are ReadMainTree (42_tree_of_trees.md R220). -/
theorem readMainTree_leads {c : Regs}
    (hk : ∀ c', SameBlock c c' → Leads n (.next (s.working c' (.pretree .lengths))) (k c')) :
    Leads (n + s.cfg.nmain + 2) (.next (s.working c (.pretree (firstTarget s.cfg))))
      (readThen s (readMainTree s.cfg c) k) := by
  have built {t : Target} (ht : t = .mainMatches ∨ t = .mainWhole) {c' : Regs} (hc : SameBlock c c') :
      Leads n (rangeDone s c' t) (readThen s (liftFault (buildTree c'.mainLen)) fun tree =>
        k { c' with mainTree := some tree }) := by
    rw [rangeDone_main_eq_readThen s c' ht]
    exact .readThen fun tree _ => hk _ hc
  have hmain : numChars ≤ s.cfg.nmain := Nat.le_add_right _ _
  by_cases hparts : s.cfg.params.mainTreeParts = 2
  · simp only [firstTarget, readMainTree, if_pos hparts, readThen_bind, readThen_pure]
    have hmatches (c1 : Regs) (h1 : SameBlock c c1) :=
      readLengths_leads (t := .mainMatches) hrun hv fun c2 h2 => built (.inl rfl) (h1.trans h2)
    refine (readLengths_leads (t := .mainLiterals) hrun hv hmatches).mono ?_
    simp only [Target.last, Target.first]; omega
  · simp only [firstTarget, readMainTree, if_neg hparts, readThen_bind, readThen_pure]
    refine (readLengths_leads hrun hv fun c1 h1 => built (.inr rfl) h1).mono ?_
    simp only [Target.last, Target.first]; omega

/-- The range of the length array and its Build are ReadLengthTree, and end the header (42_tree_of_trees.md R222). -/
theorem readLengthTree_leads {c : Regs} (hk : ∀ c', SameBlock c c' → k c' = .next (s.commit (enterBlock c'))) :
    Leads (s.cfg.params.numLengthSymbols + 1) (.next (s.working c (.pretree .lengths)))
      (readThen s (readLengthTree s.cfg c) k) := by
  simp only [readLengthTree, readThen_bind, readThen_pure]
  refine (readLengths_leads (n := 0) hrun hv fun c' hc => ?_).mono ?bound
  case bound => simp only [Target.last, Target.first]; omega
  rw [rangeDone_lengths_eq_readThen]
  refine .readThen fun tree _ => ?_
  have hend := hk { c' with lengthTree := some tree } hc
  rw [hend]
  exact leads_of_work_none (commit_work ..) 0

/-- The main tree and the length tree of a compressed block, and the end of its header (44_block.md R300, R305). -/
theorem trees_lead {c : Regs} {x : BlockState} (hx : x = if c.btype = 2 then .aligned else .verbatim) :
    Leads (s.cfg.nmain + s.cfg.params.numLengthSymbols + 3) (.next (s.working c (.pretree (firstTarget s.cfg))))
      (readThen s (readMainTree s.cfg c) fun c1 => readThen s (readLengthTree s.cfg c1) fun c2 =>
        .next (s.commit { c2.enter x with remaining := c.blockLen })) := by
  refine (readMainTree_leads hrun hv fun c1 h1 => readLengthTree_leads hrun hv fun c2 h2 => ?_).mono (by omega)
  obtain ⟨htype, hlen⟩ := h1.trans h2
  rw [hx, ← htype, ← hlen]
  rfl

end Reads

/-! ## The block headers -/

section Headers
variable {s : State} {c : Regs} (hrun : s.running = true)
include hrun

/-- The elements after a Verbatim header are VerbatimHeader (44_block.md R300). -/
theorem verbatimHeader_leads (hv : s.cfg.valid = true) (ht : c.btype = 1) :
    Leads (s.cfg.nmain + s.cfg.params.numLengthSymbols + 4) (.next (s.working c (.pretree (firstTarget s.cfg))))
      (readThen s (verbatimHeader s.cfg c) fun c' => .next (s.commit { c' with remaining := c.blockLen })) := by
  simp only [verbatimHeader, readThen_bind, readThen_pure]
  exact (trees_lead hrun hv (by rw [ht]; rfl)).mono (Nat.le_succ _)

/-- The elements after an AlignedOffset header are AlignedHeader (44_block.md R305). -/
theorem alignedHeader_leads (hv : s.cfg.valid = true) (ht : c.btype = 2) :
    Leads (s.cfg.nmain + s.cfg.params.numLengthSymbols + 4) (.next (s.working c .altree))
      (readThen s (alignedHeader s.cfg c) fun c' => .next (s.commit { c' with remaining := c.blockLen })) := by
  simp only [alignedHeader, readThen_bind, readThen_pure]
  refine leads_of_step rfl ?_
  rw [step_altree hrun c hv]
  refine .readThen fun c0 hc => ?_
  obtain ⟨htype, hlen⟩ := readAlignedTree_sameBlock hc
  rw [← hlen]
  exact trees_lead hrun hv (by rw [htype, ht]; rfl)

/-- The alignment of an Uncompressed header and the element after it are UncompHeader with its LoadR (44_block.md R330,
R331). -/
theorem uncompHeader_leads :
    Leads 1 (readThen s (liftFault (uncompAlign s.cfg c.bitpos)) fun p => .next (s.working (c.at p) .uncompR))
      (readThen s (uncompHeader s.cfg c) fun c' => .next (s.commit { c' with remaining := c.blockLen })) := by
  simp only [uncompHeader, readThen_bind, readThen_pure]
  refine .readThen fun p _ => leads_of_step rfl ?_
  simp only [step_working_eq_readThen hrun, formatOf, decode, decodeUncompR, readThen_bind, readThen_pure]
  exact .readThen fun v0 _ => .readThen fun v1 _ => .readThen fun v2 _ => leads_of_work_none (commit_work ..) 0

end Headers

/-! ## AwaitStep -/

/-- The element of a valid block type t and length n (44_block.md R296). -/
def headerElement (t : Nat) (n : U24) : Instr :=
  if t = 1 then .blockVerbatim n else if t = 2 then .blockAligned n else .blockUncomp n

/-- The spec's reads after the fields of a block of a valid type t (44_block.md R296). -/
def headerRest (g : Config) (t : Nat) (c : Regs) : Except ReadStop Regs :=
  if t = 1 then verbatimHeader g c else if t = 2 then alignedHeader g c else uncompHeader g c

/-- A header of length 0 is EmptyBlock (44_block.md R296). -/
theorem exec_headerElement_zero (s : State) (c : Regs) (t : Nat) :
    exec (headerElement t 0) (s.working c .header) = .next (s.takeFault .emptyBlock) := by
  unfold headerElement
  split
  · rfl
  · split <;> rfl

/-- A header of a Verbatim block goes on to the main tree (44_block.md R300). -/
theorem exec_blockVerbatim {s : State} {c : Regs} {n : U24} (hn : n ≠ 0) :
    exec (.blockVerbatim n) (s.working c .header) =
      .next (s.working { c with btype := 1, blockLen := n } (.pretree (firstTarget s.cfg))) := if_neg hn

/-- A header of an AlignedOffset block goes on to the aligned tree (44_block.md R305). -/
theorem exec_blockAligned {s : State} {c : Regs} {n : U24} (hn : n ≠ 0) :
    exec (.blockAligned n) (s.working c .header) = .next (s.working { c with btype := 2, blockLen := n } .altree) :=
  if_neg hn

/-- A header of an Uncompressed block aligns the cursor, and LoadR comes next (44_block.md R330). -/
theorem exec_blockUncomp {s : State} {c : Regs} {n : U24} (hn : n ≠ 0) :
    exec (.blockUncomp n) (s.working c .header) = readThen s (liftFault (uncompAlign s.cfg c.bitpos)) fun p =>
      .next (s.working (Regs.at { c with btype := 3, blockLen := n } p) .uncompR) := by
  simp only [exec, execBlockUncomp, blockHeader, working_work, working_cfg, if_neg hn]
  cases uncompAlign s.cfg c.bitpos <;> rfl

section Await
variable {s : State} (hrun : s.running = true) (hv : s.cfg.valid = true)
include hrun hv

/-- A header of a valid type with its length, and the elements after it, are the rest of AwaitStep (44_block.md R296). -/
theorem headerElement_leads (c : Regs) {t : Nat} (ht : t = 1 ∨ t = 2 ∨ t = 3) {n : U24} (hn : n ≠ 0) :
    Leads (s.cfg.nmain + s.cfg.params.numLengthSymbols + 4) (exec (headerElement t n) (s.working c .header))
      (readThen s (headerRest s.cfg t { c with btype := BitVec.ofNat 3 t, blockLen := n }) fun c' =>
        .next (s.commit { c' with remaining := n })) := by
  obtain rfl | rfl | rfl := ht
  · have hexec : exec (headerElement 1 n) (s.working c .header) = _ := exec_blockVerbatim hn
    rw [hexec]
    exact verbatimHeader_leads (c := { c with btype := 1, blockLen := n }) hrun hv rfl
  · have hexec : exec (headerElement 2 n) (s.working c .header) = _ := exec_blockAligned hn
    rw [hexec]
    exact alignedHeader_leads (c := { c with btype := 2, blockLen := n }) hrun hv rfl
  · have hexec : exec (headerElement 3 n) (s.working c .header) = _ := exec_blockUncomp hn
    rw [hexec]
    exact (uncompHeader_leads (c := { c with btype := 3, blockLen := n }) hrun).mono (by omega)

/-- At a Step boundary in AWAIT before the end of the stream the header's elements are AwaitStep (44_block.md R296). -/
theorem awaitStep_leads (hr : Reads s s.regs .header) (hdone : inputDone s.cfg s.regs.bitpos = false) :
    Leads (s.cfg.nmain + s.cfg.params.numLengthSymbols + 4) (step s) (stepResult s (awaitStep s.cfg s.regs)) := by
  rw [step_eq_readThen hrun hr, stepResult_eq_readThen]
  simp only [formatOf, decode, decodeHeader, awaitStep, hdone, Bool.false_eq_true, if_false, readThen_bind]
  refine .readThen fun r hread => ?_
  obtain ⟨-, rfl⟩ := readBits_ok.1 hread
  have htype : s.cfg.gather s.regs.bitpos 3 < 8 := gather_lt ..
  generalize s.cfg.gather s.regs.bitpos 3 = t at htype
  by_cases hbad : t = 0 ∨ 4 ≤ t
  · rw [if_pos hbad, readThen_ite, readThen_ite]
    have hfault := leads_stepResult s (.error (.fault .invalidBlockType))
      (s.cfg.nmain + s.cfg.params.numLengthSymbols + 4)
    by_cases hzero : t = 0
    · rwa [if_pos hzero]
    · rwa [if_neg hzero, if_pos (hbad.resolve_left hzero)]
  · rw [if_neg hbad, if_neg (mt .inl hbad), if_neg (mt .inr hbad)]
    simp only [readThen_bind, readThen_pure]
    refine .readThen fun f hf => ?_
    rw [readField_eq_readBits (by decide)] at hf
    have hlen := readBits_toNat (m := 24) (Nat.le_refl _) hf
    by_cases hzero : f.1 = 0
    · rw [if_pos hzero, hzero]
      have hexec := exec_headerElement_zero s (s.regs.at f.2) t
      exact hexec ▸ leads_stepResult s (.error (.fault .emptyBlock)) _
    · rw [if_neg hzero]
      have hn : BitVec.ofNat 24 f.1 ≠ 0 := fun h => hzero (by rw [← hlen, h]; rfl)
      have hrest := headerElement_leads hrun hv (s.regs.at f.2) (t := t) (by omega) hn
      simpa only [headerElement, headerRest, readThen_ite, readThen_bind, readThen_pure] using hrest

end Await

end Sys2Proof.Machine

namespace Sys2Proof

open Machine

/-- Settles O58: at the end of the stream by the one transition, and before it by the header's elements, of which there are
fewer than the bound of a pass. -/
theorem headerIsTheSpecsAwaitStep : Obligations.HeaderIsTheSpecsAwaitStep := by
  intro s hi hrun hw hc hs
  have hf := (hi.live hrun).1
  rw [pass_eq_settleFrom]
  cases hdone : inputDone s.cfg s.regs.bitpos with
  | true =>
    have hb : beginStep s.cfg s.regs = .silent (s.regs.enter .terminal) := by simp only [beginStep, hs, hdone, if_true]
    rw [step_of_begin_silent hrun hw hf hc hb, awaitStep, if_pos hdone]
    exact leads_stepResult s (.ok _) 0 _ (Nat.zero_le _)
  | false =>
    have hb : beginStep s.cfg s.regs = .element .header := by
      simp only [beginStep, hs, hdone, Bool.false_eq_true, if_false]
    refine awaitStep_leads hrun (hi.valid hf) (.inr ⟨hw, rfl, hf, hc, hb⟩) hdone _ ?_
    unfold stepFuel
    omega

end Sys2Proof
end

section
/-! PROOFS. The match copy: a copy emits bytes that repeat its source, and what a run of emitted bytes leaves in the window
and in the registers. -/

namespace Sys2Proof.Machine

/-! ## A run of emitted bytes -/

/-- A run of emitted bytes writes the registers that EmitByte writes (43_window.md R250). -/
theorem foldl_emitByte_eq {g : Config} {c : Regs} (hw : c.wpos < g.capacity) (bytes : List Byte) :
    bytes.foldl (emitByte g) c = { c with
      win := (bytes.foldl (emitByte g) c).win
      wpos := (c.wpos + bytes.length) % g.capacity
      produced := c.produced + bytes.length
      remaining := c.remaining - BitVec.ofNat 24 bytes.length
      chunkBuf := c.chunkBuf ++ bytes
      chunkFill := c.chunkFill + bytes.length } := by
  induction bytes generalizing c with
  | nil => simp [Nat.mod_eq_of_lt hw]
  | cons b rest ih =>
    have hleft : c.remaining - 1#24 - BitVec.ofNat 24 rest.length = c.remaining - BitVec.ofNat 24 (rest.length + 1) := by
      rw [BitVec.sub_sub, BitVec.ofNat_add, BitVec.add_comm]
    rw [List.foldl_cons, ih (Nat.mod_lt _ (capacity_pos g))]
    simp [emitByte, hleft, Nat.add_assoc, Nat.add_comm 1 rest.length]

/-- A cell that no byte of the run is written to holds what it held. -/
theorem winRead_foldl_emitByte_other {g : Config} {c : Regs} (hw : c.wpos < g.capacity) {bytes : List Byte} {a : Nat}
    (h : ∀ k, k < bytes.length → a ≠ (c.wpos + k) % g.capacity) :
    winRead (bytes.foldl (emitByte g) c).win a = winRead c.win a := by
  induction bytes generalizing c with
  | nil => rfl
  | cons b rest ih =>
    have hfirst : a ≠ c.wpos := by simpa [Nat.mod_eq_of_lt hw] using h 0 (by simp)
    rw [List.foldl_cons, ih (Nat.mod_lt _ (capacity_pos g)), emitByte_win, winRead_winWrite_other _ _ hfirst]
    intro k hk
    rw [emitByte_wpos, Nat.mod_add_mod, Nat.add_assoc, Nat.add_comm 1 k]
    exact h (k + 1) (Nat.succ_lt_succ hk)

/-- Two different distances below the window's capacity are two different cells. -/
theorem add_mod_ne_of_lt {W a i j : Nat} (hij : i < j) (hj : j < i + W) : (a + i) % W ≠ (a + j) % W := by
  intro h
  have hd : (a + j - (a + i)) % W = 0 := Nat.sub_mod_eq_zero_of_mod_eq h.symm
  rw [Nat.add_sub_add_left, Nat.mod_eq_of_lt (by omega)] at hd
  omega

/-- The cells from the write cursor on hold the bytes of the run, as many of the last as the window has cells. -/
theorem winRead_foldl_emitByte_written {g : Config} {c : Regs} (hw : c.wpos < g.capacity) {bytes : List Byte} {k : Nat}
    (hk : k < bytes.length) (hlast : bytes.length ≤ k + g.capacity) :
    winRead (bytes.foldl (emitByte g) c).win ((c.wpos + k) % g.capacity) = bytes[k]? := by
  induction bytes generalizing c k with
  | nil => simp at hk
  | cons b rest ih =>
    rw [List.length_cons] at hk hlast
    have hw' : (emitByte g c b).wpos < g.capacity := Nat.mod_lt _ (capacity_pos g)
    rw [List.foldl_cons]
    cases k with
    | zero =>
      rw [winRead_foldl_emitByte_other hw', emitByte_win, Nat.add_zero, Nat.mod_eq_of_lt hw]
      · simp
      · intro j hj
        rw [emitByte_wpos, Nat.mod_add_mod, Nat.add_assoc]
        exact add_mod_ne_of_lt (by omega) (by omega)
    | succ k =>
      have := ih hw' (k := k) (by omega) (by omega)
      rwa [emitByte_wpos, Nat.mod_add_mod, Nat.add_assoc, Nat.add_comm 1 k] at this

/-! ## The bytes of a copy -/

/-- Each byte is the one at distance off before it: a byte of the run itself, or a cell of the window before the run
(43_window.md R268). -/
def Repeats (g : Config) (c : Regs) (off : Nat) (bytes : List Byte) : Prop :=
  ∀ k, k < bytes.length →
    bytes[k]? = if off ≤ k then bytes[k - off]? else winRead c.win (behind g c.wpos (off - k))

/-- A byte read at distance off and emitted comes before a run that goes on repeating. -/
theorem Repeats.cons {g : Config} {c : Regs} {off : Nat} {b : Byte} {rest : List Byte} (hw : c.wpos < g.capacity)
    (h1 : 1 ≤ off) (h2 : off ≤ g.capacity) (hb : winRead c.win (behind g c.wpos off) = some b)
    (h : Repeats g (emitByte g c b) off rest) : Repeats g c off (b :: rest) := by
  intro k hk
  cases k with
  | zero => rw [if_neg (by omega), Nat.sub_zero, hb, List.getElem?_cons_zero]
  | succ k =>
    have hrest := h k (Nat.lt_of_succ_lt_succ hk)
    rw [emitByte_win, emitByte_wpos] at hrest
    rw [List.getElem?_cons_succ, hrest]
    obtain hin | hfirst | hbefore : off ≤ k ∨ off = k + 1 ∨ k + 2 ≤ off := by omega
    · rw [if_pos hin, if_pos (by omega), Nat.succ_sub hin, List.getElem?_cons_succ]
    · subst hfirst
      rw [if_neg (by omega), if_pos (by omega), Nat.add_sub_cancel_left, behind_one g _ hw, Nat.sub_self]
      simp
    · rw [if_neg (by omega), if_neg (by omega), behind_succ g _ _ hw (by omega) (by omega),
        winRead_winWrite_other _ _ (behind_ne g hw (by omega) (by omega)), Nat.sub_sub]

/-- A copy emits bytes that repeat its source. -/
theorem copyMatch_repeats {g : Config} {off n : Nat} {c c' : Regs} (hw : c.wpos < g.capacity) (h1 : 1 ≤ off)
    (h2 : off ≤ g.capacity) (h : copyMatch g off n c = .ok c') :
    ∃ bytes : List Byte, bytes.length = n ∧ c' = bytes.foldl (emitByte g) c ∧ Repeats g c off bytes := by
  induction n generalizing c with
  | zero => cases h; exact ⟨[], rfl, rfl, nofun⟩
  | succ n ih =>
    simp only [copyMatch] at h
    split at h
    · cases h
    · next b hb =>
      obtain ⟨bytes, hlen, he, hrep⟩ := ih (Nat.mod_lt _ (capacity_pos g)) h
      exact ⟨b :: bytes, congrArg (· + 1) hlen, he, hrep.cons hw h1 h2 hb⟩

end Sys2Proof.Machine

namespace Sys2Proof

open Machine

/-- Settles O36: a copy that fits is made, its bytes repeat the source, and they stand where a run of emitted bytes does. -/
theorem copyRepeatsItsSource : Obligations.CopyRepeatsItsSource := by
  intro g c off n hok ⟨h1, h2, hleft, hroom⟩
  have hw := hok.wpos_lt
  obtain ⟨c', hcopy, -⟩ := copyMatch_ok hok h1 h2 hleft hroom
  obtain ⟨bytes, rfl, rfl, hrep⟩ := copyMatch_repeats hw h1 (Nat.le_trans h2 (Nat.min_le_right _ _)) hcopy
  exact ⟨_, bytes, hcopy, rfl, hrep, foldl_emitByte_eq hw bytes,
    fun k => winRead_foldl_emitByte_written hw, fun a => winRead_foldl_emitByte_other hw⟩

end Sys2Proof
end

section
/-! PROOFS. The main items of a block and the elements of an Uncompressed block: what each leaves of the machine, and the
checks and the end of a match. -/

namespace Sys2Proof.Machine

/-! ## The end of an item -/

/-- The end of a main item writes STATE only (44_block.md R312). -/
theorem endOfItem_eq (c : Regs) : endOfItem c = { c with state := if c.remaining = 0 then .await else c.state } := by
  unfold endOfItem; split <;> rfl

/-- A main item of a block in progress ends its Step and writes the registers only. -/
theorem commit_endOfItem {s : State} {c : Regs} (h : c.state = .verbatim ∨ c.state = .aligned) :
    s.commit (endOfItem c) = { s with regs := endOfItem c, work := none } := by
  refine commit_of_ne_terminal ?_
  rw [endOfItem_state]
  split
  · exact nofun
  · obtain h | h := h <;> rw [h] <;> exact nofun

/-! ## The checks and the end of a match -/

section Match
variable {s : State} {c : Regs} {slot n f : Nat}

/-- A match that fails a check takes its fault, and nothing is copied (43_window.md R269). -/
theorem finishMatch_of_check_error {k : FaultKind} (h : checkMatch s.cfg c (matchOffset c slot f) n = .error k) :
    finishMatch s c slot n f = .next (s.takeFault k) := by
  unfold finishMatch doMatch
  rw [h]
  rfl

/-- A match that fits passes its checks (43_window.md R266, R267). -/
theorem checkMatch_of_fits {g : Config} {off : Nat} (h : matchFits g c off n) : checkMatch g c off n = .ok () := by
  obtain ⟨h1, h2, hleft, hroom⟩ := h
  rw [checkMatch, if_neg (by omega), if_neg (by omega), if_neg (by omega)]

/-- An element that finishes a match that fits completes it. -/
theorem completesMatch_of_finishMatch {i : Instr} (hok : c.Ok s.cfg) (hs : c.state = .verbatim ∨ c.state = .aligned)
    (hfit : matchFits s.cfg c (matchOffset c slot f) n) (he : exec i s = finishMatch s c slot n f) :
    completesMatch i s c slot n f := by
  obtain ⟨h1, h2, hleft, hroom⟩ := id hfit
  obtain ⟨c', hcopy, hc⟩ := copyMatch_ok (n := n) (hok.updateCache slot f) h1
    (by simpa only [Regs.hist, updateCache_produced] using h2) (by rwa [updateCache_remaining])
    (by rwa [updateCache_chunkFill])
  have hdone : doMatch s.cfg c slot n f = .ok c' := by rw [doMatch, checkMatch_of_fits hfit]; exact hcopy
  have hstate : c'.state = c.state := by rw [hc.same]; exact updateCache_state ..
  refine ⟨c', hcopy, ?_⟩
  rw [he, finishMatch, hdone]
  exact congrArg Host.Outcome.next (commit_endOfItem (by rwa [hstate]))

/-! ## The main symbol of a match -/

/-- A length header of 7 calls for a length symbol (44_block.md R313). -/
theorem matchSymbol_of_seven (hw : s.work = some ⟨c, .mainSym⟩) (slot : Nat) :
    matchSymbol slot 7 s = .next (s.working c (.lenSym slot)) := by
  simp only [matchSymbol, hw, if_true]

/-- A length header below 7 is the length lh + 2 (44_block.md R313). -/
theorem matchSymbol_of_ne_seven {lh : BitVec 3} (hw : s.work = some ⟨c, .mainSym⟩) (hlh : lh ≠ 7) (slot : Nat) :
    matchSymbol slot lh s = afterLength s c slot (lh.toNat + 2) := by
  simp only [matchSymbol, hw, if_neg hlh, shortLength]

/-- A repeat match finishes with its length where no extended length follows (44_block.md R310). -/
theorem afterLength_of_repeat (hslot : slot < 3) (hn : s.cfg.params.extLen = false ∨ n ≠ 257) :
    afterLength s c slot n = finishMatch s c slot n 0 := by
  have hx : ¬ (s.cfg.params.extLen = true ∧ n = 257) := by
    rintro ⟨hx, rfl⟩
    simp [hx] at hn
  rw [afterLength, if_pos hslot, afterFooter, if_neg hx]

/-- A match of a new offset goes on to the footer of the block's kind (44_block.md R314, R315). -/
theorem afterLength_of_new (hslot : 3 ≤ slot) : afterLength s c slot n =
    .next (s.working c (if c.state = .aligned then .footerA slot n else .footerV slot n)) := by
  rw [afterLength, if_neg (by omega)]
  split <;> rfl

/-- A repeat match of a length header below 7 is made with the length lh + 2 where it fits. -/
theorem completesMatch_of_repeat {i : Instr} {lh : BitVec 3} (hw : s.work = some ⟨c, .mainSym⟩) (hok : c.Ok s.cfg)
    (hs : c.state = .verbatim ∨ c.state = .aligned) (hlh : lh ≠ 7) (hslot : slot < 3)
    (hfit : matchFits s.cfg c (matchOffset c slot 0) (lh.toNat + 2)) (he : exec i s = matchSymbol slot lh s) :
    completesMatch i s c slot (lh.toNat + 2) 0 := by
  refine completesMatch_of_finishMatch hok hs hfit ?_
  rw [he, matchSymbol_of_ne_seven hw hlh, afterLength_of_repeat hslot (.inr (by omega))]

end Match

/-! ## Elements that emit or load -/

section Elements
variable {s : State} {c : Regs}

/-- A literal is emitted, and the block's end tested (44_block.md R311, R312). -/
theorem exec_lit (hw : s.work = some ⟨c, .mainSym⟩) (hs : c.state = .verbatim ∨ c.state = .aligned) (b : Byte) :
    exec (.lit b) s = .next { s with regs := endOfItem (emitByte s.cfg c b), work := none } := by
  rw [← commit_endOfItem (c := emitByte s.cfg c b) hs]
  simp only [exec, execLit, hw]

/-- The R values begin the block (44_block.md R331). -/
theorem exec_uncompR (hw : s.work = some ⟨c, .uncompR⟩) (v0 v1 v2 : U32) :
    exec (.uncompR v0 v1 v2) s =
      .next { s with regs := { c.setCache v0 v1 v2 with state := .uncomp, remaining := c.blockLen }, work := none } := by
  simp only [exec, execUncompR, hw]
  exact congrArg Host.Outcome.next (commit_of_ne_terminal nofun)

/-- EndUncomp ends its Step and writes the registers only (44_block.md R334). -/
theorem commit_endUncomp (s : State) (c : Regs) :
    s.commit (endUncomp s.cfg c) = { s with regs := endUncomp s.cfg c, work := none } := commit_of_ne_terminal nofun

/-- A raw byte goes on, is followed by its pad byte, or ends its block (44_block.md R332, R334). -/
theorem exec_raw (hw : s.work = some ⟨c, .raw⟩) (hs : c.state = .uncomp) (b : Byte) :
    exec (.raw b) s =
      if c.remaining - 1 ≠ 0 then .next { s with regs := emitByte s.cfg c b, work := none }
      else if c.bitpos < clampWord s.cfg c.bitpos then .next (s.working (emitByte s.cfg c b) .oddPad)
      else .next { s with regs := endUncomp s.cfg (emitByte s.cfg c b), work := none } := by
  have hgo : (emitByte s.cfg c b).state ≠ .terminal := by rw [emitByte_state, hs]; exact nofun
  simp only [exec, execRaw, hw, emitByte_remaining, emitByte_bitpos, commit_endUncomp, commit_of_ne_terminal hgo, ite_not]

/-- The pad byte ends its block (44_block.md R334). -/
theorem exec_oddPad (hw : s.work = some ⟨c, .oddPad⟩) (pad : Byte) :
    exec (.oddPad pad) s = .next { s with regs := endUncomp s.cfg c, work := none } := by
  simp only [exec, execOddPad, hw, commit_endUncomp]

end Elements

end Sys2Proof.Machine

namespace Sys2Proof

open Machine

/-- Settles O38: by whether the length header is 7, each slot by the same two lemmas. -/
theorem repeatMatchesComplete : Obligations.RepeatMatchesComplete := by
  intro s c lh hw hok hs
  refine ⟨?seven, fun hlh => ⟨fun h => ?slot0, fun h => ?slot1, fun h => ?slot2⟩⟩
  case seven =>
    rintro rfl
    exact ⟨matchSymbol_of_seven hw 0, matchSymbol_of_seven hw 1, matchSymbol_of_seven hw 2⟩
  case slot0 => exact completesMatch_of_repeat hw hok hs hlh (by decide) h rfl
  case slot1 => exact completesMatch_of_repeat hw hok hs hlh (by decide) h rfl
  case slot2 => exact completesMatch_of_repeat hw hok hs hlh (by decide) h rfl

/-- Settles O35: the byte is emitted, and only its cell is written. -/
theorem literalEmitsItsByte : Obligations.LiteralEmitsItsByte := by
  intro s c b hw hs
  refine ⟨winWrite c.win c.wpos b, ?_, fun a => winRead_winWrite _ _ _ _⟩
  rw [exec_lit hw hs, endOfItem_eq]
  rfl

/-- Settles O37: each check fails where those before it pass. -/
theorem matchChecksInOrder : Obligations.MatchChecksInOrder := by
  intro s c slot n f off
  refine ⟨fun hoff => ?offset, fun h1 h2 hleft => ?block, fun h1 h2 hleft hroom => ?chunk⟩ <;>
    apply finishMatch_of_check_error
  case offset => exact if_pos hoff
  case block => rw [checkMatch, if_neg (by simp only [Regs.hist]; omega), if_pos hleft]
  case chunk => rw [checkMatch, if_neg (by simp only [Regs.hist]; omega), if_neg (by omega), if_pos hroom]

/-- Settles O39: by whether the length header is 7. -/
theorem newOffsetMatchGoesOn : Obligations.NewOffsetMatchGoesOn := by
  intro s c slot lh hw hslot
  by_cases hlh : lh = 7
  · subst hlh
    exact matchSymbol_of_seven hw slot
  · rw [if_neg hlh]
    exact (matchSymbol_of_ne_seven hw hlh slot).trans (afterLength_of_new hslot)

/-- Settles O44: by the meaning of the element in its place. -/
theorem uncompressedHeaderLoadsTheCache : Obligations.UncompressedHeaderLoadsTheCache :=
  fun _ _ v0 v1 v2 hw => exec_uncompR hw v0 v1 v2

/-- Settles O45: by the meanings of the raw byte and the pad byte in their places. -/
theorem rawBytesEndTheirBlock : Obligations.RawBytesEndTheirBlock :=
  ⟨fun _ c b hw hs => ⟨winWrite c.win c.wpos b, fun _ => winRead_winWrite _ _ _ _, exec_raw hw hs b⟩,
    fun _ _ pad hw => exec_oddPad hw pad⟩

end Sys2Proof
end

section
/-! PROOFS. The slot geometry and the offset cache: the bases of the slots, the offsets they encode, and the cache after a
match. -/

namespace Sys2Proof

/-! ## The bases of the slots -/

/-- A base is at least its slot: every slot has at least one offset. -/
theorem le_slotBase (slot : Nat) : slot ≤ slotBase slot := by
  induction slot with
  | zero => exact Nat.zero_le _
  | succ slot ih => exact Nat.add_le_add ih Nat.one_le_two_pow

/-- The bases do not fall. -/
theorem slotBase_mono {i j : Nat} (h : i ≤ j) : slotBase i ≤ slotBase j := by
  induction h with
  | refl => exact Nat.le_refl _
  | step _ ih => exact Nat.le_trans ih (Nat.le_add_right _ _)

/-- The base after the last slot of the slot table is the largest window's capacity (43_window.md R244). -/
theorem slotBase_fifty : slotBase 50 = 2 ^ 21 := by decide

/-- The slots of each window end at its capacity, by default (43_window.md R241, R244). -/
theorem slotBase_nslots {code : Nat} (hcode : code ≤ 6) (input : List Byte) :
    slotBase (⟨code, input, Params.defaults⟩ : Config).nslots = 2 ^ (15 + code) := by
  have hall : ∀ code < 7, slotBase (Params.defaults.nslotsTable.getD code 0) = 2 ^ (15 + code) := by decide
  exact hall code (Nat.lt_succ_of_le hcode)

/-- The slot of an explicit offset (43_window.md R243). -/
theorem explicitOffset_bounds {slot f : Nat} (hslot : 3 ≤ slot) (hf : f < 2 ^ footerBits slot) :
    slotBase slot - 2 ≤ Machine.explicitOffset slot f ∧ Machine.explicitOffset slot f < slotBase (slot + 1) - 2
      ∧ 1 ≤ Machine.explicitOffset slot f := by
  have hbase := le_slotBase slot
  simp only [Machine.explicitOffset, slotBase]
  omega

/-- An offset of the slot table fits a 32-bit register. -/
theorem explicitOffset_lt {slot f : Nat} (hslot : slot < 50) (hf : f < 2 ^ footerBits slot) :
    Machine.explicitOffset slot f < 2 ^ 32 := by
  have hlast : slotBase (slot + 1) ≤ 2 ^ 21 := slotBase_fifty ▸ slotBase_mono hslot
  simp only [Machine.explicitOffset, slotBase] at *
  omega

namespace Machine

/-! ## The offset and the cache of a match -/

/-- A match of a new offset has an explicit offset (43_window.md R263). -/
theorem matchOffset_of_new {slot : Nat} (h : 3 ≤ slot) (c : Regs) (f : Nat) :
    matchOffset c slot f = explicitOffset slot f := by
  obtain ⟨k, rfl⟩ := Nat.exists_eq_add_of_le' h
  rfl

/-- A new offset is pushed (43_window.md R263). -/
theorem updateCache_of_new {slot : Nat} (h : 3 ≤ slot) (g : Config) (c : Regs) (f : Nat) :
    updateCache g c slot f = c.setCache (BitVec.ofNat 32 (explicitOffset slot f)) c.r0 c.r1 := by
  obtain ⟨k, rfl⟩ := Nat.exists_eq_add_of_le' h
  rfl

end Machine

open Machine

/-- Settles O33: the tables by evaluation, the offsets of a slot by its base and footer bits. -/
theorem slotAndWindowTables : Obligations.SlotAndWindowTables := by
  refine ⟨by decide, by decide, fun _ => rfl, rfl, fun _ => rfl, fun _ _ => rfl, fun _ _ => explicitOffset_bounds,
    fun code input hcode => ⟨?largest, rfl⟩⟩
  case largest => rw [slotBase_nslots hcode]

/-- Settles O34: slots 0 to 2 by their definitions, the main symbols by their element, and a new offset of the slot table
by its bound. -/
theorem offsetCacheRules : Obligations.OffsetCacheRules := by
  intro g c f
  refine ⟨rfl, rfl, rfl, rfl, rfl, fun h => if_pos h, fun h => if_neg (by rw [h]; exact nofun),
    fun slot hok => hok.updateCache slot f, fun lh => ⟨?sym0, ?sym1, ?sym2, fun slot hslot => ?symNew⟩,
    fun slot hslot => ⟨matchOffset_of_new hslot c f, updateCache_of_new hslot g c f, fun hlast hf => ?stored⟩⟩
  case sym0 => exact mainElement_match 0 lh
  case sym1 => exact mainElement_match 1 lh
  case sym2 => exact mainElement_match 2 lh
  case symNew => rw [mainElement_match, if_neg (by omega), if_neg (by omega), if_neg (by omega)]
  case stored =>
    rw [updateCache_of_new hslot, setCache_r0, BitVec.toNat_ofNat, Nat.mod_eq_of_lt (explicitOffset_lt hlast hf)]
    rfl

end Sys2Proof
end

section
/-! PROOFS. The elements of a match after its main symbol: each goes on to the next element of the item, or makes the
match of the slot, length and footer decoded so far (44_block.md R310 to R316). -/

namespace Sys2Proof.Machine

section Match
variable {s : State} {c : Regs} {slot n f : Nat}

/-- An extended length follows a length of 257 where the session has extended lengths (44_block.md R316). -/
theorem afterFooter_of_extended (hx : s.cfg.params.extLen = true) (hn : n = 257) :
    afterFooter s c slot n f = .next (s.working c (.extLen slot n f)) := if_pos ⟨hx, hn⟩

/-- Without an extended length the match is finished (44_block.md R310). -/
theorem afterFooter_of_not_extended (hn : s.cfg.params.extLen = false ∨ n ≠ 257) :
    afterFooter s c slot n f = finishMatch s c slot n f := by
  refine if_neg ?_
  rintro ⟨hx, rfl⟩
  simp [hx] at hn

/-- A repeat match has no footer (44_block.md R310). -/
theorem afterLength_of_lt (hslot : slot < 3) : afterLength s c slot n = afterFooter s c slot n 0 := if_pos hslot

/-- An element that is the end of a footer completes the match where no extended length follows and the match fits. -/
theorem completesMatch_of_afterFooter {i : Instr} (hok : c.Ok s.cfg) (hs : c.state = .verbatim ∨ c.state = .aligned)
    (he : exec i s = afterFooter s c slot n f) (hn : s.cfg.params.extLen = false ∨ n ≠ 257)
    (hfit : matchFits s.cfg c (matchOffset c slot f) n) : completesMatch i s c slot n f :=
  completesMatch_of_finishMatch hok hs hfit (he.trans (afterFooter_of_not_extended hn))

/-! ## The elements in their places -/

/-- A length symbol is the length 9 + ls (44_block.md R313). -/
theorem exec_lenSym (hw : s.work = some ⟨c, .lenSym slot⟩) (ls : Nat) :
    exec (.lenSym ls) s = afterLength s c slot (9 + ls) := by
  simp only [exec, execLenSym, hw, longLength]

/-- The footer of a Verbatim block is its value (44_block.md R314). -/
theorem exec_footerVerbatim (hw : s.work = some ⟨c, .footerV slot n⟩) (f : BitVec 17) :
    exec (.footerVerbatim f) s = afterFooter s c slot n f.toNat := by
  simp only [exec, execFooterVerbatim, hw]

/-- With FOOTER_BITS 3 or more an aligned symbol follows the literal bits (44_block.md R315). -/
theorem exec_footerHi_of_le (hw : s.work = some ⟨c, .footerA slot n⟩) (hfb : 3 ≤ footerBits slot) (f : BitVec 17) :
    exec (.footerHi f) s = .next (s.working c (.alignedLo slot n f.toNat)) := by
  simp only [exec, execFooterHi, hw, if_pos hfb]

/-- With FOOTER_BITS below 3 the literal bits are the footer (44_block.md R315). -/
theorem exec_footerHi_of_lt (hw : s.work = some ⟨c, .footerA slot n⟩) (hfb : footerBits slot < 3) (f : BitVec 17) :
    exec (.footerHi f) s = afterFooter s c slot n f.toNat := by
  simp only [exec, execFooterHi, hw, if_neg (Nat.not_le_of_lt hfb)]

/-- The aligned symbol is the low part of the footer (44_block.md R315). -/
theorem exec_alignedLo {hi : Nat} (hw : s.work = some ⟨c, .alignedLo slot n hi⟩) (lo : BitVec 3) :
    exec (.alignedLo lo) s = afterFooter s c slot n (hi * 8 + lo.toNat) := by
  simp only [exec, execAlignedLo, hw, alignedFooter]

/-- An extended length is added to the match length, and the match is finished (44_block.md R316). -/
theorem extended_eq_finishMatch (hw : s.work = some ⟨c, .extLen slot n f⟩) (v : Nat) :
    extended v s = finishMatch s c slot (n + v) f := by
  simp only [extended, hw]

end Match

end Sys2Proof.Machine

namespace Sys2Proof

open Machine

/-- Settles O40: by whether the slot has a footer, and for a repeat slot by whether an extended length follows. -/
theorem lengthSymbolGivesTheLength : Obligations.LengthSymbolGivesTheLength := by
  intro s c slot ls hw hok hs
  have he := exec_lenSym hw ls
  refine ⟨fun hslot => ?footer, fun hslot hx hn => ?extended, fun hslot hn hfit => ?done⟩
  case footer => exact he.trans (afterLength_of_new hslot)
  case extended =>
    rw [he, afterLength_of_lt hslot, afterFooter_of_extended hx hn, hn]
    rfl
  case done => exact completesMatch_of_afterFooter hok hs (he.trans (afterLength_of_lt hslot)) hn hfit

/-- Settles O41: by whether an extended length follows. -/
theorem verbatimFooterGivesTheOffset : Obligations.VerbatimFooterGivesTheOffset := by
  intro s c slot n f hw hok hs
  have he := exec_footerVerbatim hw f
  exact ⟨fun hx hn => he.trans (afterFooter_of_extended hx hn), completesMatch_of_afterFooter hok hs he⟩

/-- Settles O42: by FOOTER_BITS, then as for a Verbatim block. -/
theorem alignedFooterGivesTheOffset : Obligations.AlignedFooterGivesTheOffset := by
  intro s c slot n hi hok hs
  refine ⟨fun f hw => ⟨fun hfb => ?goesOn, fun hfb hx hn => ?extended, fun hfb hn hfit => ?done⟩, fun lo hw => ?low⟩
  case goesOn => exact exec_footerHi_of_le hw hfb f
  case extended => exact (exec_footerHi_of_lt hw hfb f).trans (afterFooter_of_extended hx hn)
  case done => exact completesMatch_of_afterFooter hok hs (exec_footerHi_of_lt hw hfb f) hn hfit
  case low =>
    have he := exec_alignedLo hw lo
    exact ⟨fun hx hn => he.trans (afterFooter_of_extended hx hn), completesMatch_of_afterFooter hok hs he⟩

/-- Settles O43: each form adds its own value, and the match is finished with the sum. -/
theorem extendedLengthsAreAdded : Obligations.ExtendedLengthsAreAdded := by
  intro s c slot n f v i hw hok hs hi hfit
  have he : exec i s = extended v s := by
    obtain ⟨x, rfl, rfl⟩ | ⟨x, rfl, rfl⟩ | ⟨x, rfl, rfl⟩ | ⟨x, rfl, rfl⟩ := hi <;> rfl
  exact completesMatch_of_finishMatch hok hs hfit (he.trans (extended_eq_finishMatch hw v))

end Sys2Proof
end

section
/-! PROOFS. A main item: each of its elements is one read of the spec's pseudocode (44_block.md R313 to R316), and their
sequence is MainStep (44_block.md R310). -/

namespace Sys2Proof.Machine

/-! ## Fields and symbols of an item -/

/-- A footer has at most 17 bits (43_window.md R242). -/
theorem footerBits_le (slot : Nat) : footerBits slot ≤ 17 := by
  unfold footerBits
  split
  · exact Nat.zero_le _
  · exact Nat.min_le_right _ _

/-- A field of w bits, held in m ≥ w bits, is the number read. -/
theorem readField_toNat {g : Config} {pos w m : Nat} {r : Nat × Nat} (hwm : w ≤ m) (h : readField g pos w = .ok r) :
    (BitVec.ofNat m r.1).toNat = r.1 := by
  by_cases hw : w = 0
  · rw [readField, if_pos hw] at h
    cases h
    rfl
  · rw [readField_eq_readBits hw] at h
    exact readBits_toNat hwm h

/-- A symbol of the aligned tree, held in 3 bits, is the symbol decoded. -/
theorem alignedSymbol_toNat {g : Config} {c : Regs} {pos : Nat} {r : Nat × Nat} (hok : c.Ok g)
    (h : decodeSymbol g c.alignedTree pos = .ok r) : (BitVec.ofNat 3 r.1).toNat = r.1 := by
  have hlt : r.1 < c.alLen.length := decodeSymbol_lt h hok.alignedBuilt
  rw [hok.alignedLens.1] at hlt
  exact Nat.mod_eq_of_lt hlt

/-- The symbols from 256 on are the match symbols (30_encoding.md R108). -/
theorem exec_mainElement_match (slot : Nat) (lh : BitVec 3) (s : State) :
    exec (mainElement (256 + 8 * slot + lh.toNat)) s = matchSymbol slot lh s := by
  rw [mainElement_match]
  split
  · next h => subst h; rfl
  split
  · next h => subst h; rfl
  split
  · next h => subst h; rfl
  · rfl

/-! ## One element, one read -/

/-- The end of a match is DoMatch, then the end of the item, and ends the Step (44_block.md R310, R312). -/
theorem finishMatch_leads (s : State) (c : Regs) (slot n f : Nat) :
    Leads 0 (finishMatch s c slot n f)
      (readThen s (liftFault (doMatch s.cfg c slot n f)) fun c' => .next (s.commit (endOfItem c'))) := by
  unfold finishMatch
  cases doMatch s.cfg c slot n f with
  | ok c' => exact leads_of_work_none (commit_work ..) 0
  | error k => exact leads_of_work_none (takeFault_work s k) 0

section Items
variable {s : State} {c : Regs} {slot n : Nat} (hrun : s.running = true)
include hrun

/-- The length symbol's element is a decode from the length tree (44_block.md R313). -/
theorem step_lenSym :
    step (s.working c (.lenSym slot)) =
      readThen s (decodeSymbol s.cfg c.lengthTree c.bitpos) fun ls => afterLength s (c.at ls.2) slot (9 + ls.1) := by
  simp only [step_working_eq_readThen hrun, formatOf, decode, readThen_bind, readThen_pure]
  exact readThen_congr fun ls _ => exec_lenSym rfl ls.1

/-- The footer's element in a Verbatim block is a read of FOOTER_BITS bits (44_block.md R314). -/
theorem step_footerV :
    step (s.working c (.footerV slot n)) =
      readThen s (readField s.cfg c.bitpos (footerBits slot)) fun f => afterFooter s (c.at f.2) slot n f.1 := by
  simp only [step_working_eq_readThen hrun, formatOf, decode, readThen_bind, readThen_pure]
  refine readThen_congr fun f hf => ?_
  rw [exec_footerVerbatim rfl, readField_toNat (footerBits_le slot) hf]
  rfl

/-- The footer's element in an AlignedOffset block is a read of its literal bits, which an aligned symbol follows where
FOOTER_BITS is 3 or more (44_block.md R315). -/
theorem step_footerA :
    step (s.working c (.footerA slot n)) =
      readThen s (readField s.cfg c.bitpos (literalFooterBits (footerBits slot))) fun f =>
        if 3 ≤ footerBits slot then .next (s.working (c.at f.2) (.alignedLo slot n f.1))
        else afterFooter s (c.at f.2) slot n f.1 := by
  simp only [step_working_eq_readThen hrun, formatOf, decode, readThen_bind, readThen_pure]
  refine readThen_congr fun f hf => ?_
  have hbits : literalFooterBits (footerBits slot) ≤ 17 := by
    have := footerBits_le slot
    unfold literalFooterBits
    split <;> omega
  by_cases hlo : 3 ≤ footerBits slot
  · rw [exec_footerHi_of_le rfl hlo, readField_toNat hbits hf, if_pos hlo]
    rfl
  · rw [exec_footerHi_of_lt rfl (Nat.lt_of_not_le hlo), readField_toNat hbits hf, if_neg hlo]
    rfl

/-- The aligned symbol's element is a decode from the aligned tree (44_block.md R315). -/
theorem step_alignedLo (hok : c.Ok s.cfg) (hi : Nat) :
    step (s.working c (.alignedLo slot n hi)) =
      readThen s (decodeSymbol s.cfg c.alignedTree c.bitpos) fun lo =>
        afterFooter s (c.at lo.2) slot n (hi * 8 + lo.1) := by
  simp only [step_working_eq_readThen hrun, formatOf, decode, readThen_bind, readThen_pure]
  refine readThen_congr fun lo hlo => ?_
  rw [exec_alignedLo rfl, alignedSymbol_toNat hok hlo]
  rfl

/-- The extended length's element is ReadExtLen (44_block.md R316). -/
theorem step_extLen (f : Nat) :
    step (s.working c (.extLen slot n f)) =
      readThen s (readExtLen s.cfg c.bitpos) fun x => finishMatch s (c.at x.2) slot (n + x.1) f := by
  have ends {w p v q : Nat} (a : Nat) (h : readBits s.cfg p w = .ok (v, q)) :
      extended ((BitVec.ofNat w v).toNat + a) (s.working (c.at q) (.extLen slot n f)) =
        finishMatch s (c.at q) slot (n + (v + a)) f := by
    rw [extended_eq_finishMatch rfl, readBits_toNat (Nat.le_refl w) h]
    rfl
  simp only [step_working_eq_readThen hrun, formatOf, decode, decodeExtLen, readExtLen, readThen_bind]
  refine readThen_congr fun b0 _ => ?_
  by_cases h0 : b0.1 = 0
  · simp only [if_pos h0, readThen_bind, readThen_pure]
    exact readThen_congr fun v hv => ends 0 hv
  simp only [if_neg h0, readThen_bind]
  refine readThen_congr fun b1 _ => ?_
  by_cases h1 : b1.1 = 0
  · simp only [if_pos h1, readThen_bind, readThen_pure]
    exact readThen_congr fun v hv => ends 0x100 hv
  simp only [if_neg h1, readThen_bind]
  refine readThen_congr fun b2 _ => ?_
  by_cases h2 : b2.1 = 0
  · simp only [if_pos h2, readThen_bind, readThen_pure]
    exact readThen_congr fun v hv => ends 0x500 hv
  · simp only [if_neg h2, readThen_bind, readThen_pure]
    exact readThen_congr fun v hv => ends 0 hv

end Items

/-! ## The reads of an item -/

section Reads
variable {s : State} {c : Regs} {slot n m : Nat} {k : Nat × Nat → Host.Outcome State Fault Refusal}
  (hrun : s.running = true)
include hrun

/-- The end of a footer, with the extended length where one follows, is the rest of the item (44_block.md R310,
R316). -/
theorem afterFooter_leads (f : Nat)
    (hk : ∀ x, Leads m (finishMatch s (c.at x.2) slot (n + x.1) f) (k x)) :
    Leads (m + 1) (afterFooter s c slot n f)
      (readThen s (if s.cfg.params.extLen = true ∧ n = 257 then readExtLen s.cfg c.bitpos else .ok (0, c.bitpos))
        k) := by
  unfold afterFooter
  by_cases hx : s.cfg.params.extLen = true ∧ n = 257
  · rw [if_pos hx, if_pos hx]
    refine leads_of_step rfl ?_
    rw [step_extLen hrun]
    exact .readThen fun x _ => hk x
  · rw [if_neg hx, if_neg hx]
    exact (hk (0, c.bitpos)).mono (Nat.le_succ m)

/-- The elements of a footer are ReadFooter (44_block.md R314, R315). -/
theorem readFooter_leads (hok : c.Ok s.cfg) (hk : ∀ f, Leads m (afterFooter s (c.at f.2) slot n f.1) (k f)) :
    Leads (m + 2) (.next (s.working c (if c.state = .aligned then .footerA slot n else .footerV slot n)))
      (readThen s (readFooter s.cfg c slot c.bitpos) k) := by
  refine leads_of_step (n := m + 1) rfl ?_
  have literal : Leads (m + 1)
      (readThen s (readField s.cfg c.bitpos (footerBits slot)) fun f => afterFooter s (c.at f.2) slot n f.1)
      (readThen s (readField s.cfg c.bitpos (footerBits slot)) k) :=
    .readThen fun f _ => (hk f).mono (Nat.le_succ m)
  by_cases ha : c.state = .aligned
  · rw [if_pos ha, step_footerA hrun, literalFooterBits, readFooter]
    by_cases hlo : 3 ≤ footerBits slot
    · simp only [ha, hlo, and_self, if_true, readThen_bind, readThen_pure]
      refine .readThen fun hi _ => leads_of_step rfl ?_
      rw [step_alignedLo hrun (hok.at hi.2)]
      exact .readThen fun lo _ => hk (hi.1 * 8 + lo.1, lo.2)
    · simpa only [ha, hlo, and_false, if_false] using literal
  · rw [if_neg ha, step_footerV hrun, readFooter, if_neg (fun h => ha h.1)]
    exact literal

/-- The end of a match length, with the footer of a new offset, is the rest of the item (44_block.md R310). -/
theorem afterLength_leads (hok : c.Ok s.cfg) (hk : ∀ f, Leads m (afterFooter s (c.at f.2) slot n f.1) (k f)) :
    Leads (m + 2) (afterLength s c slot n)
      (readThen s (if slot < 3 then .ok (0, c.bitpos) else readFooter s.cfg c slot c.bitpos) k) := by
  by_cases hslot : slot < 3
  · rw [afterLength_of_lt hslot, if_pos hslot]
    exact (hk (0, c.bitpos)).mono (Nat.le_add_right m 2)
  · rw [afterLength_of_new (Nat.le_of_not_lt hslot), if_neg hslot]
    exact readFooter_leads hrun hok hk

/-- The main symbol of a match, with the length symbol that may follow, gives the match length (44_block.md R313). -/
theorem matchSymbol_leads (lh : BitVec 3) (hk : ∀ x, Leads m (afterLength s (c.at x.2) slot x.1) (k x)) :
    Leads (m + 1) (matchSymbol slot lh (s.working c .mainSym))
      (readThen s (readMatchLength s.cfg c lh.toNat c.bitpos) k) := by
  by_cases hlh : lh = 7
  · subst hlh
    have hstep : step ((s.working c .mainSym).working c (.lenSym slot)) = _ := step_lenSym hrun
    rw [matchSymbol_of_seven rfl, readMatchLength, if_pos (show (7 : BitVec 3).toNat = 7 from rfl)]
    refine leads_of_step rfl ?_
    rw [hstep]
    simp only [readThen_bind, readThen_pure]
    exact .readThen fun ls _ => hk (9 + ls.1, ls.2)
  · have hne : lh.toNat ≠ 7 := fun h => hlh (BitVec.eq_of_toNat_eq h)
    rw [matchSymbol_of_ne_seven rfl hlh, readMatchLength, if_neg hne]
    exact (hk (lh.toNat + 2, c.bitpos)).mono (Nat.le_succ m)

/-- At a Step boundary in a compressed block the elements of a main item are MainStep (44_block.md R310). -/
theorem mainStep_leads (hok : s.regs.Ok s.cfg) (hr : Reads s s.regs .mainSym) :
    Leads 4 (step s) (stepResult s (mainStep s.cfg s.regs)) := by
  rw [step_eq_readThen hrun hr, stepResult_eq_readThen]
  simp only [formatOf, decode, mainStep, readThen_bind, readThen_pure]
  refine .readThen fun sym _ => ?_
  by_cases hlit : sym.1 < 256
  · rw [if_pos hlit, mainElement, if_pos hlit]
    exact leads_of_work_none (commit_work ..) 4
  · obtain ⟨slot, lh, hsym⟩ : ∃ slot, ∃ lh : BitVec 3, sym.1 = 256 + 8 * slot + lh.toNat :=
      ⟨(sym.1 - 256) / 8, BitVec.ofNat 3 ((sym.1 - 256) % 8), by simp only [BitVec.toNat_ofNat]; omega⟩
    have hslot : (sym.1 - 256) / 8 = slot := by omega
    have hlh : (sym.1 - 256) % 8 = lh.toNat := by omega
    have hitem := matchSymbol_leads (slot := slot) (c := s.regs.at sym.2) hrun lh fun x =>
      afterLength_leads hrun ((hok.at sym.2).at x.2) fun f => afterFooter_leads hrun f.1 fun y =>
        finishMatch_leads s (s.regs.at y.2) slot (x.1 + y.1) f.1
    rw [if_neg hlit, hslot, hlh, hsym, exec_mainElement_match]
    simp only [readThen_ite, readThen_bind, readThen_pure] at hitem ⊢
    exact hitem

end Reads

end Sys2Proof.Machine

namespace Sys2Proof

open Machine

/-- Settles O57: a Step in VERBATIM or ALIGNED begins with its main symbol, and has fewer elements than the bound of a
pass. -/
theorem mainItemIsTheSpecsMainStep : Obligations.MainItemIsTheSpecsMainStep := by
  intro s hi hrun hw hc hs
  have hf := (hi.live hrun).1
  have hb : beginStep s.cfg s.regs = .element .mainSym := by
    obtain hs | hs := hs <;> simp only [beginStep, hs]
  rw [pass_eq_settleFrom]
  refine mainStep_leads hrun hi.regs.ok (.inr ⟨hw, rfl, hf, hc, hb⟩) _ ?_
  unfold stepFuel
  omega

end Sys2Proof
end

section
/-! PROOFS. The transition table of STATE: a fault, and an element inside a Step, leave the committed STATE, and each end
of a Step is one transition of 44_block.md R280. -/

namespace Sys2Proof.Machine

/-- The transitions of 44_block.md R280 from the committed registers c to c', each with its condition. -/
inductive Transition (g : Config) (c c' : Regs) : Prop
  | stays (h : c'.state = c.state)
  | noInput (h : c.state = .preamble) (ha : g.avail = 0) (h' : c'.state = .terminal)
  | preambleEnds (h : c.state = .preamble) (ha : g.avail ≠ 0) (h' : c'.state = .await)
  | streamEnds (h : c.state = .await) (hd : inputDone g c.bitpos = true) (h' : c'.state = .terminal)
  | blockBegins (x : BlockState) (h : c.state = .await) (hr : c'.remaining ≠ 0)
      (ht : (c'.btype = 1 ∧ x = .verbatim) ∨ (c'.btype = 2 ∧ x = .aligned) ∨ (c'.btype = 3 ∧ x = .uncomp))
      (h' : c'.state = x)
  | blockEnds (h : c.state = .verbatim ∨ c.state = .aligned ∨ c.state = .uncomp) (hr : c'.remaining = 0)
      (h' : c'.state = .await)

/-- Every phase of a main item has the registers of one. -/
theorem itemWork_of_phaseInv {g : Config} {base c : Regs} {ph : Phase} (h : phaseInv g base c ph) (hph : ph.inItem) :
    ItemWork g base c := by
  cases ph with
  | mainSym | lenSym => exact h
  | footerV | footerA | alignedLo | extLen => exact h.1
  | _ => exact hph.elim

/-- EmitByte of a run of bytes leaves STATE. -/
theorem foldl_emitByte_state (g : Config) (bytes : List Byte) (c : Regs) :
    (bytes.foldl (emitByte g) c).state = c.state := by
  induction bytes generalizing c with
  | nil => rfl
  | cons b rest ih => exact ih (emitByte g c b)

/-- The phases that begin a compressed block have the registers of a tree read. -/
theorem treeWork_of_phaseInv {g : Config} {base c : Regs} {ph : Phase} {p : Prop} (h : phaseInv g base c ph)
    (hph : (∃ i, ph = .ptOp .lengths i) ∨ ph = .pretree .lengths ∧ p) : TreeWork g base c .lengths := by
  obtain ⟨i, rfl⟩ | ⟨rfl, -⟩ := hph
  · exact h.1
  · exact h

/-- The end of a main item leaves STATE or ends the block (44_block.md R312). -/
theorem endOfItem_transition {g : Config} {c c' : Regs} (hs : c'.state = c.state)
    (hb : c.state = .verbatim ∨ c.state = .aligned) : Transition g c (endOfItem c') := by
  by_cases hr : c'.remaining = 0
  · exact .blockEnds (hb.imp_right .inl) (by simpa using hr) (by rw [endOfItem_state, if_pos hr])
  · exact .stays (by rw [endOfItem_state, if_neg hr, hs])

/-- An element of a Step makes a transition of the table, or leaves STATE. -/
theorem elementEnds_transition {s t : State} {c : Regs} {ph : Phase} {p : Nat} (h : phaseInv s.cfg s.regs c ph)
    (hp : ph = .preamble → s.cfg.avail ≠ 0)
    (he : ElementEnds (s.working (c.at p) ph) (c.at p) ph t) : Transition s.cfg s.regs t.regs := by
  cases he with
  | fault | headerGoes | itemGoes | rawPads => exact .stays rfl
  | preamble flag size hph =>
    subst hph
    rw [commit_regs]
    exact .preambleEnds h.1 (hp rfl) rfl
  | blockBegins c' hph hs _ hb hl =>
    obtain ⟨hw, htype, -, -⟩ := treeWork_of_phaseInv h hph
    rw [commit_regs]
    refine .blockBegins _ hw.waiting ?_ ?_ (enterBlock_state c')
    · rw [enterBlock_remaining, ← hl]
      exact hw.blockLen
    · rw [enterBlock_btype, ← hb, at_btype]
      obtain htype | ⟨htype, -⟩ := htype <;> simp [htype]
  | uncompBegins a b d hph =>
    subst hph
    obtain ⟨hw, htype, -⟩ := h
    rw [commit_regs]
    exact .blockBegins .uncomp hw.waiting hw.blockLen (.inr (.inr ⟨htype, rfl⟩)) rfl
  | itemEnds a b d bytes hph =>
    have hi := itemWork_of_phaseInv h hph
    rw [commit_regs]
    refine endOfItem_transition ?_ hi.block
    rw [foldl_emitByte_state, setCache_state, at_state, hi.same, at_state]
  | rawGoes b hph =>
    subst hph
    obtain ⟨-, hc, -⟩ := h
    rw [commit_regs]
    exact .stays (by rw [emitByte_state, at_state, hc, at_state])
  | rawEnds b hph hr =>
    subst hph
    rw [commit_regs]
    exact .blockEnds (.inr (.inr h.1)) hr rfl
  | padEnds hph =>
    subst hph
    obtain ⟨hs, -, hr, -⟩ := h
    rw [commit_regs]
    exact .blockEnds (.inr (.inr hs)) hr rfl

/-- A transition that reads nothing is one of the table (44_block.md R290, R294). -/
theorem beginStep_silent_transition {g : Config} {c c' : Regs} (h : beginStep g c = .silent c') :
    Transition g c c' := by
  unfold beginStep at h
  split at h
  case h_1 hs =>
    split at h
    · next ha => cases h; exact .noInput hs ha rfl
    · next ha => split at h <;> cases h; exact .preambleEnds hs ha rfl
  case h_2 hs =>
    split at h <;> cases h
    exact .streamEnds hs ‹_› rfl
  all_goals cases h

/-- A step inside a NEXT_CHUNK makes a transition of the table, or leaves STATE. -/
theorem running_step_transition {s t : State} (hi : s.Inv) (hrun : s.running = true) (e : step s = .next t) :
    Transition s.cfg s.regs t.regs := by
  cases step_cases hrun e with
  | readFault => exact .stays rfl
  | element c ph i p _ hr hd he =>
    refine elementEnds_transition (hi.reads hrun hr).2 ?_ he
    rintro rfl
    obtain ⟨-, hlt, hle⟩ := decode_ok hd
    omega
  | full => exact .stays (by simp)
  | silent c _ _ _ hb =>
    rw [commit_regs]
    exact beginStep_silent_transition hb

end Sys2Proof.Machine

namespace Sys2Proof

open Machine

/-- Settles O51: the step keeps the invariant, which has a byte owed in every block state, and makes a transition of the
table. -/
theorem stateGraph : Obligations.StateGraph := by
  intro s t hi hrun e
  refine ⟨(step_inv hi e).regs.inBlock, ?_⟩
  cases running_step_transition hi hrun e with
  | stays h => exact .inl h
  | noInput h ha h' => exact .inr (.inl ⟨h, ha, h'⟩)
  | preambleEnds h ha h' => exact .inr (.inr (.inl ⟨h, ha, h'⟩))
  | streamEnds h hd h' => exact .inr (.inr (.inr (.inl ⟨h, hd, h'⟩)))
  | blockBegins x h hr ht h' =>
    obtain ⟨ht, rfl⟩ | ⟨ht, rfl⟩ | ⟨ht, rfl⟩ := ht
    · exact .inr (.inr (.inr (.inr (.inl ⟨h, ht, hr, h'⟩))))
    · exact .inr (.inr (.inr (.inr (.inr (.inl ⟨h, ht, hr, h'⟩)))))
    · exact .inr (.inr (.inr (.inr (.inr (.inr (.inl ⟨h, ht, hr, h'⟩))))))
  | blockEnds h hr h' => exact .inr (.inr (.inr (.inr (.inr (.inr (.inr ⟨h, hr, h'⟩))))))

end Sys2Proof
end

section
/-! PROOFS. The translation registers are written by the preamble and by NEW, and nothing reads them (44_block.md R292):
every operation past the preamble answers the same outcome but for those registers. -/

namespace Sys2Proof.Machine

/-- The outcome with the translation registers of its next state at (flag, size). -/
def outcomeWithE8 (flag : Bool) (size : U32) :
    Host.Outcome State Fault Refusal → Host.Outcome State Fault Refusal
  | .next t => .next (t.withE8 flag size)
  | o => o

/-- The beginning of a Step with the translation registers of a transition that reads nothing at (flag, size). -/
def beginWithE8 (flag : Bool) (size : U32) : Begin → Begin
  | .silent c => .silent (c.withE8 flag size)
  | b => b

/-- A choice between two values is kept by a function that keeps each of them. -/
theorem ite_eq_apply_ite {α β : Type} {p : Prop} [Decidable p] (F : α → β) {a b : α} {a' b' : β} (ha : a' = F a)
    (hb : b' = F b) : (if p then a' else b') = F (if p then a else b) := by
  split <;> assumption

section Operations
variable {flag : Bool} {size : U32}

/-! ## The operations over the registers -/

/-- The offset of a match is no translation register. -/
theorem matchOffset_withE8 (c : Regs) (slot f : Nat) :
    matchOffset (c.withE8 flag size) slot f = matchOffset c slot f := by
  unfold matchOffset
  split <;> rfl

/-- The cache update leaves the translation registers. -/
theorem updateCache_withE8 (g : Config) (c : Regs) (slot f : Nat) :
    updateCache g (c.withE8 flag size) slot f = (updateCache g c slot f).withE8 flag size := by
  unfold updateCache
  split
  · rfl
  · rfl
  · split <;> rfl
  · rfl

/-- A copy leaves the translation registers. -/
theorem copyMatch_withE8 (g : Config) (off n : Nat) (c : Regs) :
    copyMatch g off n (c.withE8 flag size) = (copyMatch g off n c).map (Regs.withE8 · flag size) := by
  induction n generalizing c with
  | zero => rfl
  | succ n ih =>
    have hread : winRead (c.withE8 flag size).win (behind g (c.withE8 flag size).wpos off) =
        winRead c.win (behind g c.wpos off) := rfl
    rw [copyMatch, copyMatch, hread]
    cases winRead c.win (behind g c.wpos off) with
    | none => rfl
    | some b => exact ih (emitByte g c b)

/-- DoMatch leaves the translation registers. -/
theorem doMatch_withE8 (g : Config) (c : Regs) (slot n f : Nat) :
    doMatch g (c.withE8 flag size) slot n f = (doMatch g c slot n f).map (Regs.withE8 · flag size) := by
  have hcheck : checkMatch g (c.withE8 flag size) (matchOffset c slot f) n =
      checkMatch g c (matchOffset c slot f) n := rfl
  rw [doMatch, doMatch, matchOffset_withE8, hcheck, updateCache_withE8, copyMatch_withE8]
  cases checkMatch g c (matchOffset c slot f) n <;> rfl

/-- The end of a main item leaves the translation registers. -/
theorem endOfItem_withE8 (c : Regs) : endOfItem (c.withE8 flag size) = (endOfItem c).withE8 flag size := by
  rw [endOfItem_eq, endOfItem_eq]
  rfl

/-- ChunkRealign leaves the translation registers. -/
theorem chunkRealign_withE8 (g : Config) (c : Regs) :
    chunkRealign g (c.withE8 flag size) = (chunkRealign g c).withE8 flag size := by
  unfold chunkRealign
  exact ite_eq_apply_ite (Regs.withE8 · flag size) rfl rfl

/-- A length array is not a translation register. -/
theorem array_withE8 (c : Regs) (t : Target) : t.array (c.withE8 flag size) = t.array c := by
  cases t <;> rfl

/-- A range writes its array only. -/
theorem put_withE8 (c : Regs) (arr : List Nat) (t : Target) :
    t.put (c.withE8 flag size) arr = (t.put c arr).withE8 flag size := by
  cases t <;> rfl

/-! ## The ends of the elements -/

/-- The end of a Step leaves the translation registers. -/
theorem commit_withE8 (s : State) (c : Regs) :
    (s.withE8 flag size).commit (c.withE8 flag size) = (s.commit c).withE8 flag size := by
  unfold State.commit
  exact ite_eq_apply_ite (State.withE8 · flag size) rfl rfl

/-- A Step that ends with registers equal but for the translation registers. -/
theorem next_commit_withE8 (s : State) {c c' : Regs} (h : c' = c.withE8 flag size) :
    Host.Outcome.next ((s.withE8 flag size).commit c') = outcomeWithE8 flag size (.next (s.commit c)) := by
  rw [h, commit_withE8]
  rfl

/-- The end of a match leaves the translation registers. -/
theorem finishMatch_withE8 (s : State) (c : Regs) (slot n f : Nat) :
    finishMatch (s.withE8 flag size) (c.withE8 flag size) slot n f =
      outcomeWithE8 flag size (finishMatch s c slot n f) := by
  have hcfg : (s.withE8 flag size).cfg = s.cfg := rfl
  rw [finishMatch, finishMatch, hcfg, doMatch_withE8]
  cases doMatch s.cfg c slot n f with
  | ok c' => exact next_commit_withE8 s (endOfItem_withE8 c')
  | error k => rfl

/-- The end of a footer leaves the translation registers. -/
theorem afterFooter_withE8 (s : State) (c : Regs) (slot n f : Nat) :
    afterFooter (s.withE8 flag size) (c.withE8 flag size) slot n f =
      outcomeWithE8 flag size (afterFooter s c slot n f) := by
  unfold afterFooter
  exact ite_eq_apply_ite (outcomeWithE8 flag size) rfl (finishMatch_withE8 ..)

/-- The end of a match length leaves the translation registers. -/
theorem afterLength_withE8 (s : State) (c : Regs) (slot n : Nat) :
    afterLength (s.withE8 flag size) (c.withE8 flag size) slot n =
      outcomeWithE8 flag size (afterLength s c slot n) := by
  unfold afterLength
  exact ite_eq_apply_ite (outcomeWithE8 flag size) (afterFooter_withE8 ..)
    (ite_eq_apply_ite (outcomeWithE8 flag size) rfl rfl)

/-- The end of a range leaves the translation registers. -/
theorem rangeDone_withE8 (s : State) (c : Regs) (t : Target) :
    rangeDone (s.withE8 flag size) (c.withE8 flag size) t = outcomeWithE8 flag size (rangeDone s c t) := by
  have main : ∀ t, t = .mainMatches ∨ t = .mainWhole →
      rangeDone (s.withE8 flag size) (c.withE8 flag size) t = outcomeWithE8 flag size (rangeDone s c t) := by
    intro t ht
    cases hb : buildTree c.mainLen with
    | ok tree =>
      rw [rangeDone_main_of_ok ht hb]
      exact rangeDone_main_of_ok (c := c.withE8 flag size) ht hb
    | error k =>
      rw [rangeDone_main_of_error ht hb]
      exact rangeDone_main_of_error (c := c.withE8 flag size) ht hb
  cases t with
  | mainLiterals => rfl
  | mainMatches => exact main _ (.inl rfl)
  | mainWhole => exact main _ (.inr rfl)
  | lengths =>
    cases hb : buildTree c.lenLen with
    | ok tree =>
      rw [rangeDone_lengths_of_ok hb]
      refine (rangeDone_lengths_of_ok (c := c.withE8 flag size) hb).trans ?_
      exact next_commit_withE8 s rfl
    | error k =>
      rw [rangeDone_lengths_of_error hb]
      exact rangeDone_lengths_of_error (c := c.withE8 flag size) hb

/-- The loop test of a range leaves the translation registers. -/
theorem rangeAt_withE8 (s : State) (c : Regs) (t : Target) (i : Nat) :
    rangeAt (s.withE8 flag size) (c.withE8 flag size) t i = outcomeWithE8 flag size (rangeAt s c t i) := by
  unfold rangeAt
  exact ite_eq_apply_ite (outcomeWithE8 flag size) rfl (rangeDone_withE8 ..)

/-- A run leaves the translation registers. -/
theorem runOf_withE8 (s : State) (c : Regs) (t : Target) (i n v : Nat) :
    runOf (s.withE8 flag size) (c.withE8 flag size) t i n v = outcomeWithE8 flag size (runOf s c t i n v) := by
  unfold runOf
  rw [array_withE8, put_withE8]
  exact ite_eq_apply_ite (outcomeWithE8 flag size) rfl (rangeAt_withE8 ..)

/-! ## The meanings of the elements in their places -/

section Meanings
variable {s : State} {c : Regs}

/-- A Step in progress goes on with the translation registers set in its working copy too. -/
theorem work_withE8 {ph : Phase} (hw : s.work = some ⟨c, ph⟩) :
    (s.withE8 flag size).work = some ⟨c.withE8 flag size, ph⟩ := by
  simp only [State.withE8, hw, Option.map_some]

/-- A block header leaves the translation registers where what it goes on with does. -/
theorem blockHeader_withE8 (hw : s.work = some ⟨c, .header⟩) (t : BitVec 3) (n : U24)
    {k k' : Regs → Host.Outcome State Fault Refusal}
    (hk : ∀ c', k' (c'.withE8 flag size) = outcomeWithE8 flag size (k c')) :
    blockHeader t n (s.withE8 flag size) k' = outcomeWithE8 flag size (blockHeader t n s k) := by
  simp only [blockHeader, hw, work_withE8 hw]
  exact ite_eq_apply_ite (outcomeWithE8 flag size) rfl (hk { c with btype := t, blockLen := n })

/-- The main symbol of a match leaves the translation registers. -/
theorem matchSymbol_withE8 (hw : s.work = some ⟨c, .mainSym⟩) (slot : Nat) (lh : BitVec 3) :
    matchSymbol slot lh (s.withE8 flag size) = outcomeWithE8 flag size (matchSymbol slot lh s) := by
  simp only [matchSymbol, hw, work_withE8 hw]
  exact ite_eq_apply_ite (outcomeWithE8 flag size) rfl (afterLength_withE8 ..)

/-- An element of a header leaves the translation registers. -/
theorem exec_header_withE8 {i : Instr} {pos p : Nat} (hw : s.work = some ⟨c, .header⟩)
    (d : DecodesTo s.cfg pos i p .header) : exec i (s.withE8 flag size) = outcomeWithE8 flag size (exec i s) := by
  have hw' := work_withE8 (flag := flag) (size := size) hw
  obtain ⟨n, rfl⟩ | ⟨n, rfl⟩ | ⟨n, rfl⟩ | rfl | ⟨t, rfl⟩ := d.1
  · simp only [exec, execBlockVerbatim]
    exact blockHeader_withE8 hw 1 n fun _ => rfl
  · simp only [exec, execBlockAligned]
    exact blockHeader_withE8 hw 2 n fun _ => rfl
  · simp only [exec, execBlockUncomp]
    refine blockHeader_withE8 hw 3 n fun c => ?_
    have halign : uncompAlign (s.withE8 flag size).cfg (c.withE8 flag size).bitpos = uncompAlign s.cfg c.bitpos := rfl
    simp only [halign]
    cases uncompAlign s.cfg c.bitpos <;> rfl
  · simp only [exec, execBlockInvalid0, invalidType, hw, hw']
    rfl
  · simp only [exec, execBlockInvalid4, invalidType, hw, hw']
    rfl

/-- An op of a pretree leaves the translation registers. -/
theorem exec_ptOp_withE8 {t : Target} {tree : Option Tree} {j pos p : Nat} {i : Instr}
    (hw : s.work = some ⟨c, .ptOp t j⟩) (d : DecodesTo s.cfg pos i p (.ptOp tree)) :
    exec i (s.withE8 flag size) = outcomeWithE8 flag size (exec i s) := by
  have hw' := work_withE8 (flag := flag) (size := size) hw
  obtain ⟨x, -, rfl⟩ | ⟨z, rfl⟩ | ⟨z, rfl⟩ | ⟨z, x, rfl⟩ := d.1
  · rw [exec_ptDelta hw, exec_ptDelta hw', array_withE8, put_withE8, rangeAt_withE8]
  · rw [exec_ptZrun4 hw, exec_ptZrun4 hw', runOf_withE8]
  · rw [exec_ptZrun20 hw, exec_ptZrun20 hw', runOf_withE8]
  · by_cases hx : 16 < x
    · rw [exec_ptSame_of_lt hw z hx, exec_ptSame_of_lt hw' z hx]
      rfl
    · have hx := Nat.le_of_not_lt hx
      rw [exec_ptSame_of_le hw z hx, exec_ptSame_of_le hw' z hx, array_withE8, runOf_withE8]

/-- A raw byte leaves the translation registers. -/
theorem execRaw_withE8 (hw : s.work = some ⟨c, .raw⟩) (b : Byte) :
    execRaw b (s.withE8 flag size) = outcomeWithE8 flag size (execRaw b s) := by
  simp only [execRaw, hw, work_withE8 hw]
  exact ite_eq_apply_ite (outcomeWithE8 flag size)
    (ite_eq_apply_ite (outcomeWithE8 flag size) rfl (next_commit_withE8 s rfl)) (next_commit_withE8 s rfl)

/-- The element that a phase calls for past the preamble leaves the translation registers. -/
theorem exec_withE8 {ph : Phase} {c0 : Regs} {i : Instr} {pos p : Nat} (hw : s.work = some ⟨c, ph⟩)
    (d : DecodesTo s.cfg pos i p (formatOf c0 ph)) (hph : ph ≠ .preamble) :
    exec i (s.withE8 flag size) = outcomeWithE8 flag size (exec i s) := by
  have hw' := work_withE8 (flag := flag) (size := size) hw
  cases ph with
  | preamble => exact absurd rfl hph
  | header => exact exec_header_withE8 hw d
  | altree =>
    obtain ⟨⟨ls, rfl, -⟩, -⟩ := d
    cases hb : buildTree (ls.map BitVec.toNat) with
    | ok tree =>
      rw [exec_altree_of_ok hw hb, exec_altree_of_ok hw' hb]
      rfl
    | error k =>
      rw [exec_altree_of_error hw hb, exec_altree_of_error hw' hb]
      rfl
  | pretree t =>
    obtain ⟨⟨ls, rfl, -⟩, -⟩ := d
    cases hb : buildTree (ls.map BitVec.toNat) with
    | ok tree =>
      rw [exec_pretree_of_ok hw hb, exec_pretree_of_ok hw' hb]
      exact rangeAt_withE8 s { c with ptLen := ls.map BitVec.toNat, preTree := some tree } t t.first
    | error k =>
      rw [exec_pretree_of_error hw hb, exec_pretree_of_error hw' hb]
      rfl
  | ptOp t j => exact exec_ptOp_withE8 hw d
  | uncompR =>
    obtain ⟨⟨a, b, v, rfl⟩, -⟩ := d
    rw [exec_uncompR hw, exec_uncompR hw']
    rfl
  | mainSym =>
    obtain ⟨b, rfl⟩ | ⟨lh, rfl⟩ | ⟨lh, rfl⟩ | ⟨lh, rfl⟩ | ⟨slot, lh, -, rfl⟩ := d.1
    · simp only [exec, execLit, hw, hw']
      exact next_commit_withE8 s (endOfItem_withE8 (emitByte s.cfg c b))
    all_goals exact matchSymbol_withE8 hw _ _
  | lenSym slot =>
    obtain ⟨⟨ls, rfl⟩, -⟩ := d
    rw [exec_lenSym hw, exec_lenSym hw', afterLength_withE8]
  | footerV slot n =>
    obtain ⟨⟨f, rfl⟩, -⟩ := d
    rw [exec_footerVerbatim hw, exec_footerVerbatim hw', afterFooter_withE8]
  | footerA slot n =>
    obtain ⟨⟨f, rfl⟩, -⟩ := d
    by_cases hlo : 3 ≤ footerBits slot
    · rw [exec_footerHi_of_le hw hlo, exec_footerHi_of_le hw' hlo]
      rfl
    · have hlo := Nat.lt_of_not_le hlo
      rw [exec_footerHi_of_lt hw hlo, exec_footerHi_of_lt hw' hlo, afterFooter_withE8]
  | alignedLo slot n hi =>
    obtain ⟨⟨lo, rfl⟩, -⟩ := d
    rw [exec_alignedLo hw, exec_alignedLo hw', afterFooter_withE8]
  | extLen slot n f =>
    have hext (v : Nat) : extended v (s.withE8 flag size) = outcomeWithE8 flag size (extended v s) := by
      rw [extended_eq_finishMatch hw, extended_eq_finishMatch hw', finishMatch_withE8]
    obtain ⟨v, rfl⟩ | ⟨v, rfl⟩ | ⟨v, rfl⟩ | ⟨v, rfl⟩ := d.1 <;> exact hext _
  | raw =>
    obtain ⟨⟨b, rfl⟩, -⟩ := d
    exact execRaw_withE8 hw b
  | oddPad =>
    obtain ⟨⟨b, rfl⟩, -⟩ := d
    rw [exec_oddPad hw, exec_oddPad hw']
    rfl

end Meanings

/-! ## The step -/

/-- The translation registers are no part of a format. -/
theorem formatOf_withE8 (c : Regs) (ph : Phase) : formatOf (c.withE8 flag size) ph = formatOf c ph := by
  cases ph <;> rfl

/-- A Step begins alike whatever the translation registers hold. -/
theorem beginStep_withE8 (g : Config) (c : Regs) :
    beginStep g (c.withE8 flag size) = beginWithE8 flag size (beginStep g c) := by
  have hstate : (c.withE8 flag size).state = c.state := rfl
  simp only [beginStep, hstate]
  cases c.state with
  | preamble =>
    exact ite_eq_apply_ite (beginWithE8 flag size) rfl (ite_eq_apply_ite (beginWithE8 flag size) rfl rfl)
  | await => exact ite_eq_apply_ite (beginWithE8 flag size) rfl rfl
  | verbatim | aligned | uncomp | terminal => rfl

/-- The machine reads the same element whatever the translation registers hold. -/
theorem Reads.withE8 {s : State} {c : Regs} {ph : Phase} (hr : Reads s c ph) :
    Reads (s.withE8 flag size) (c.withE8 flag size) ph := by
  obtain hw | ⟨hw, rfl, hf, hc, hb⟩ := hr
  · exact .inl (work_withE8 hw)
  · refine .inr ⟨?_, rfl, hf, hc, ?_⟩
    · simp only [State.withE8, hw, Option.map_none]
    · exact (beginStep_withE8 ..).trans (congrArg _ hb)

/-- The same element decodes whatever the translation registers hold. -/
theorem decode_withE8 (s : State) (c : Regs) (ph : Phase) :
    decode (s.withE8 flag size).cfg (formatOf (c.withE8 flag size) ph) (c.withE8 flag size).bitpos =
      decode s.cfg (formatOf c ph) c.bitpos := by
  rw [formatOf_withE8]
  rfl

/-- A step that reads an element past the preamble leaves the translation registers. -/
theorem step_of_reads_withE8 {s : State} {c : Regs} {ph : Phase} (hrun : s.running = true) (hr : Reads s c ph)
    (hph : ph ≠ .preamble) : step (s.withE8 flag size) = outcomeWithE8 flag size (step s) := by
  rw [step_eq_readThen (s := s.withE8 flag size) hrun hr.withE8, step_eq_readThen hrun hr, decode_withE8]
  cases hd : decode s.cfg (formatOf c ph) c.bitpos with
  | ok r => exact exec_withE8 (s := s.working (c.at r.2) ph) rfl (decode_ok hd) hph
  | error e => cases e <;> rfl

/-- A full chunk is returned by the size test (45_chunk_driver.md R345). -/
theorem step_of_full {s : State} (hrun : s.running = true) (hw : s.work = none) (hf : s.regs.fault = none)
    (hc : s.regs.chunkFill = s.cfg.params.chunkSize) : step s = .next s.returnChunk := by
  refine step_of_fetch_quiet ((fetch_boundary hrun hw).trans ?_)
  rw [fetchPass, if_neg (not_not_intro hf), if_pos hc]

/-- A full chunk is returned with the translation registers as they are. -/
theorem returnChunk_withE8 (s : State) : (s.withE8 flag size).returnChunk = s.returnChunk.withE8 flag size := by
  have hregs : chunkRealign (s.withE8 flag size).cfg (s.withE8 flag size).regs =
      (chunkRealign s.cfg s.regs).withE8 flag size := chunkRealign_withE8 ..
  rw [State.returnChunk, hregs]
  rfl

/-- A step inside a NEXT_CHUNK that does not read the preamble leaves the translation registers. -/
theorem running_step_withE8 {s t : State} (hrun : s.running = true) (hpre : ∀ c, ¬ Reads s c .preamble)
    (e : step s = .next t) : step (s.withE8 flag size) = .next (t.withE8 flag size) := by
  have reads {c : Regs} {ph : Phase} (hr : Reads s c ph) :
      step (s.withE8 flag size) = .next (t.withE8 flag size) := by
    rw [step_of_reads_withE8 hrun hr (by rintro rfl; exact hpre c hr), e]
    rfl
  have boundary (hw : s.work = none) : (s.withE8 flag size).work = none := by
    simp only [State.withE8, hw, Option.map_none]
  cases step_cases hrun e with
  | readFault c ph k hr => exact reads hr
  | element c ph i p t hr => exact reads hr
  | full hw hf hc =>
    rw [step_of_full (s := s.withE8 flag size) hrun (boundary hw) hf hc, returnChunk_withE8]
  | silent c hw hf hc hb =>
    have hb' : beginStep s.cfg (s.regs.withE8 flag size) = .silent (c.withE8 flag size) :=
      (beginStep_withE8 ..).trans (congrArg _ hb)
    rw [step_of_begin_silent (s := s.withE8 flag size) hrun (boundary hw) hf hc hb', commit_withE8]

/-- The preamble writes its flag, and its size where the flag is 1, over whatever the registers hold (44_block.md
R290). -/
theorem preamble_step_withE8 {s t : State} {c : Regs} (hrun : s.running = true) (hr : Reads s c .preamble)
    (e : step s = .next t) : ∃ flag' size', step (s.withE8 flag size) = .next (t.withE8 flag' size') := by
  have hstep := step_eq_readThen (s := s.withE8 flag size) hrun hr.withE8
  rw [decode_withE8] at hstep
  rw [step_eq_readThen hrun hr] at e
  rw [hstep]
  cases hd : decode s.cfg (formatOf c .preamble) c.bitpos with
  | ok r =>
    obtain ⟨i, p⟩ := r
    rw [hd] at e
    obtain ⟨rfl | ⟨n, rfl⟩, -⟩ := decode_ok hd
    · cases e
      exact ⟨false, size, rfl⟩
    · cases e
      exact ⟨true, n, rfl⟩
  | error stop =>
    rw [hd] at e
    cases stop <;> cases e
    exact ⟨flag, size, rfl⟩

/-- A Step begins with the preamble in PREAMBLE only (45_chunk_driver.md R343). -/
theorem reads_preamble {s : State} {c : Regs} (hr : Reads s c .preamble) :
    s.regs.state = .preamble ∨ s.work = some ⟨c, .preamble⟩ := by
  obtain hw | ⟨-, -, -, -, hb⟩ := hr
  · exact .inr hw
  · rw [beginStep] at hb
    cases hs : s.regs.state with
    | preamble => exact .inl rfl
    | await =>
      rw [hs] at hb
      simp only at hb
      split at hb <;> cases hb
    | verbatim | aligned | uncomp | terminal =>
      rw [hs] at hb
      cases hb

/-- NEXT_CHUNK leaves the translation registers. -/
theorem execNextChunk_withE8 (s : State) :
    execNextChunk (s.withE8 flag size) = outcomeWithE8 flag size (execNextChunk s) := by
  have hregs : (s.withE8 flag size).regs.fault = s.regs.fault := rfl
  unfold execNextChunk
  refine ite_eq_apply_ite (outcomeWithE8 flag size) rfl ?_
  rw [hregs]
  cases s.regs.fault with
  | some k => rfl
  | none => exact ite_eq_apply_ite (outcomeWithE8 flag size) rfl rfl

/-- A step between commands leaves the translation registers, or clears them as NEW does (10_state.md R62). -/
theorem idle_step_withE8 {s t : State} (hrun : s.running = false) (e : step s = .next t) :
    ∃ flag' size', step (s.withE8 flag size) = .next (t.withE8 flag' size') := by
  obtain ⟨cmd, rest, hport, e⟩ := idle_step hrun e
  rw [step_of_fetch_run (fetch_of_port_cons (s := s.withE8 flag size) hrun hport)]
  cases cmd with
  | new code input params =>
    cases e
    exact ⟨false, 0, rfl⟩
  | nextChunk =>
    have hnext : execNextChunk { s.withE8 flag size with port := rest } = _ :=
      execNextChunk_withE8 { s with port := rest }
    exact ⟨flag, size, hnext.trans (congrArg _ e)⟩

end Operations

end Sys2Proof.Machine

namespace Sys2Proof

open Machine

/-- Settles O55: between commands by the command; inside a NEXT_CHUNK by whether the preamble is read. -/
theorem translationRegistersAreNotRead : Obligations.TranslationRegistersAreNotRead := by
  intro s t flag size e
  constructor
  · cases hrun : s.running with
    | false => exact idle_step_withE8 hrun e
    | true =>
      by_cases hpre : ∃ c, Reads s c .preamble
      · obtain ⟨c, hr⟩ := hpre
        exact preamble_step_withE8 hrun hr e
      · exact ⟨flag, size, running_step_withE8 hrun (fun c hr => hpre ⟨c, hr⟩) e⟩
  · intro hrun hs hw
    refine running_step_withE8 hrun (fun c hr => ?_) e
    obtain h | h := reads_preamble hr
    · exact hs h
    · exact hw _ h rfl

end Sys2Proof
end

section
/-! PROOFS. The short Steps: PREAMBLE and UNCOMP, whose elements are PreambleStep and UncompStep, and the Steps that
read nothing (44_block.md R290, R294, R332, R334). -/

namespace Sys2Proof.Machine

/-! ## The beginning of the Step -/

/-- Without a complete input word the stream ends at once (44_block.md R291). -/
theorem beginStep_of_no_input {g : Config} {c : Regs} (hs : c.state = .preamble) (ha : g.avail = 0) :
    beginStep g c = .silent (c.enter .terminal) := by
  simp only [beginStep, hs, if_pos ha]

/-- A session without a preamble goes on to its first block (44_block.md R290). -/
theorem beginStep_of_no_preamble {g : Config} {c : Regs} (hs : c.state = .preamble) (ha : g.avail ≠ 0)
    (he : g.params.preambleE8 = false) : beginStep g c = .silent (c.enter .await) := by
  simp only [beginStep, hs, if_neg ha, he, Bool.false_eq_true, if_false]

/-- A session with a preamble begins with it (44_block.md R290). -/
theorem beginStep_of_preamble {g : Config} {c : Regs} (hs : c.state = .preamble) (ha : g.avail ≠ 0)
    (he : g.params.preambleE8 = true) : beginStep g c = .element .preamble := by
  simp only [beginStep, hs, if_neg ha, he, if_true]

/-- After the last word of the input the stream ends (44_block.md R294). -/
theorem beginStep_of_input_done {g : Config} {c : Regs} (hs : c.state = .await) (hd : inputDone g c.bitpos = true) :
    beginStep g c = .silent (c.enter .terminal) := by
  simp only [beginStep, hs, if_pos hd]

/-- A Step of an Uncompressed block begins with a raw byte (44_block.md R332). -/
theorem beginStep_of_uncomp {g : Config} {c : Regs} (hs : c.state = .uncomp) : beginStep g c = .element .raw := by
  simp only [beginStep, hs]

/-- A Step that ends in TERMINAL hands back the bytes pending, or None (45_chunk_driver.md R345). -/
theorem commit_enter_terminal (s : State) (c : Regs) : s.commit (c.enter .terminal) = { s with
    regs := { c with state := .terminal }
    work := none
    running := false
    results := s.results ++ [if 0 < c.chunkFill then .chunk c.chunkBuf else .none] } := rfl

/-! ## PreambleStep and UncompStep -/

/-- The pad byte before the next word boundary is in the input, and ends at that boundary (44_block.md R334). -/
theorem pad_of_lt_clampWord {g : Config} {pos : Nat} (h8 : pos % 8 = 0) (hlt : pos < clampWord g pos) :
    pos / 8 < g.len ∧ clampWord g (pos + 8) = clampWord g pos := by
  unfold clampWord roundup at *
  omega

/-- The pad byte is one more element, after which the cursor stands where EndUncomp puts it (44_block.md R334). -/
theorem step_oddPad {s : State} (hrun : s.running = true) {c : Regs} (h8 : c.bitpos % 8 = 0)
    (hlt : c.bitpos < clampWord s.cfg c.bitpos) :
    step (s.working c .oddPad) = .next (s.commit (endUncomp s.cfg c)) := by
  obtain ⟨hin, hend⟩ := pad_of_lt_clampWord h8 hlt
  have hread : readRawByte s.cfg c.bitpos = .ok (s.cfg.byteAt (c.bitpos / 8), c.bitpos + 8) :=
    readRawByte_ok.2 ⟨h8, hin, rfl⟩
  have hdecode : decode s.cfg (formatOf c .oddPad) c.bitpos =
      .ok (.oddPad (s.cfg.byteAt (c.bitpos / 8)), c.bitpos + 8) := by
    simp only [formatOf, decode, hread]
    rfl
  have hend : endUncomp s.cfg (c.at (c.bitpos + 8)) = endUncomp s.cfg c := by
    simp only [endUncomp, at_bitpos, hend]
    rfl
  rw [step_working_eq_readThen hrun, hdecode]
  exact congrArg (fun c' => Host.Outcome.next (s.commit c')) hend

/-- A raw byte in its place. -/
theorem execRaw_working (s : State) (c : Regs) (b : Byte) : execRaw b (s.working c .raw) =
    if (emitByte s.cfg c b).remaining = 0 then
      if (emitByte s.cfg c b).bitpos < clampWord s.cfg (emitByte s.cfg c b).bitpos then
        .next (s.working (emitByte s.cfg c b) .oddPad)
      else .next (s.commit (endUncomp s.cfg (emitByte s.cfg c b)))
    else .next (s.commit (emitByte s.cfg c b)) := rfl

/-- A raw byte, with the pad byte that may follow it, ends its Step, and ends its block where no byte is left
(44_block.md R332, R334). -/
theorem execRaw_leads {s : State} (hrun : s.running = true) {c : Regs} (h8 : c.bitpos % 8 = 0) (b : Byte) :
    Leads 1 (execRaw b (s.working c .raw))
      (.next (s.commit (if (emitByte s.cfg c b).remaining = 0 then endUncomp s.cfg (emitByte s.cfg c b)
        else emitByte s.cfg c b))) := by
  have h8 : (emitByte s.cfg c b).bitpos % 8 = 0 := h8
  rw [execRaw_working]
  generalize emitByte s.cfg c b = c' at h8
  split
  · split
    · next hpad =>
      refine leads_of_step rfl ?_
      rw [step_oddPad hrun h8 hpad]
      exact leads_of_work_none (commit_work ..) 0
    · exact leads_of_work_none (commit_work ..) 1
  · exact leads_of_work_none (commit_work ..) 1

section Steps
variable {s : State} (hrun : s.running = true) (hw : s.work = none) (hf : s.regs.fault = none)
  (hc : s.regs.chunkFill ≠ s.cfg.params.chunkSize)
include hrun hw hf hc

/-- At a Step boundary in PREAMBLE the one element, or the transition that reads none, is PreambleStep
(44_block.md R290). -/
theorem preambleStep_leads (hs : s.regs.state = .preamble) :
    Leads 0 (step s) (stepResult s (preambleStep s.cfg s.regs)) := by
  rw [preambleStep]
  by_cases ha : s.cfg.avail = 0
  · rw [step_of_begin_silent hrun hw hf hc (beginStep_of_no_input hs ha), if_pos ha]
    exact leads_stepResult s (.ok _) 0
  cases he : s.cfg.params.preambleE8 with
  | false =>
    rw [step_of_begin_silent hrun hw hf hc (beginStep_of_no_preamble hs ha he), if_neg ha]
    exact leads_stepResult s (.ok _) 0
  | true =>
    rw [step_eq_readThen hrun (.inr ⟨hw, rfl, hf, hc, beginStep_of_preamble hs ha he⟩), stepResult_eq_readThen]
    simp only [formatOf, decode, decodePreamble, if_neg ha, if_true, readThen_bind]
    refine .readThen fun b _ => ?_
    by_cases hb : b.1 = 0
    · simp only [if_pos hb]
      exact leads_of_work_none (commit_work ..) 0
    · simp only [if_neg hb, readThen_bind]
      exact .readThen fun v _ => leads_of_work_none (commit_work ..) 0

/-- At a Step boundary in UNCOMP the raw byte, with the pad byte that may follow, is UncompStep (44_block.md R332,
R334). -/
theorem uncompStep_leads (hs : s.regs.state = .uncomp) :
    Leads 1 (step s) (stepResult s (uncompStep s.cfg s.regs)) := by
  rw [step_eq_readThen hrun (.inr ⟨hw, rfl, hf, hc, beginStep_of_uncomp hs⟩), stepResult_eq_readThen]
  simp only [formatOf, decode, uncompStep, readThen_bind, readThen_pure]
  refine .readThen fun b hb => ?_
  have h8 : b.2 % 8 = 0 := by
    obtain ⟨h8, -, rfl⟩ := readRawByte_ok.1 hb
    exact (Nat.add_mod_right _ 8).trans h8
  exact execRaw_leads hrun (c := s.regs.at b.2) h8 b.1

end Steps

end Sys2Proof.Machine

namespace Sys2Proof

open Machine

/-- Settles O10: each transition is what its Step begins with. -/
theorem stepsThatReadNothing : Obligations.StepsThatReadNothing := by
  intro s hrun hw hf hc ended
  have ends (hb : beginStep s.cfg s.regs = .silent (s.regs.enter .terminal)) : step s = .next ended := by
    rw [step_of_begin_silent hrun hw hf hc hb, commit_enter_terminal, ← hw]
  refine ⟨fun hs ha => ?noInput, fun hs ha he => ?noPreamble, fun hs hd => ?inputDone⟩
  case noInput => exact ends (beginStep_of_no_input hs ha)
  case noPreamble =>
    rw [step_of_begin_silent hrun hw hf hc (beginStep_of_no_preamble hs ha he), commit_of_ne_terminal (by simp), ← hw]
    rfl
  case inputDone => exact ends (beginStep_of_input_done hs (decide_eq_true hd))

/-- Settles O56: each Step has at most two elements, fewer than the bound of a pass. -/
theorem shortStepsAreTheSpecs : Obligations.ShortStepsAreTheSpecs := by
  intro s hi hrun hw hc
  have hf := (hi.live hrun).1
  rw [pass_eq_settleFrom]
  exact ⟨fun hs => preambleStep_leads hrun hw hf hc hs _ (Nat.zero_le _),
    fun hs => uncompStep_leads hrun hw hf hc hs _ (Nat.succ_le_succ (Nat.zero_le _))⟩

end Sys2Proof
end

section
/-! PROOFS. The preamble and the block headers: what each leaves of the machine (44_block.md R290, R296, R300, R305,
R330). -/

namespace Sys2Proof.Machine

/-! ## The headers in their place -/

/-- A machine with a Step in progress is that Step gone on from its own registers and phase. -/
theorem working_of_work {s : State} {c : Regs} {ph : Phase} (hw : s.work = some ⟨c, ph⟩) : s.working c ph = s := by
  rw [State.working, ← hw]

section Headers
variable {s : State} {c : Regs} (hw : s.work = some ⟨c, .header⟩)
include hw

/-- An invalid block type takes its fault (44_block.md R296). -/
theorem invalidType_faults : invalidType s = .next (s.takeFault .invalidBlockType) := by
  simp only [invalidType, hw, raise]

/-- A header of length 0 takes its fault (44_block.md R296). -/
theorem emptyBlock_faults (t : Nat) : exec (headerElement t 0) s = .next (s.takeFault .emptyBlock) := by
  have he := exec_headerElement_zero s c t
  rwa [working_of_work hw] at he

/-- A header of an Uncompressed block goes on to LoadR at the cursor of its alignment, or takes the alignment's fault
(44_block.md R330). -/
theorem exec_blockUncomp_eq {n : U24} (hn : n ≠ 0) :
    exec (.blockUncomp n) s = readThen s (liftFault (uncompAlign s.cfg c.bitpos)) fun p =>
      .next (s.working (Regs.at { c with btype := 3, blockLen := n } p) .uncompR) := by
  have he := exec_blockUncomp (s := s) (c := c) hn
  rwa [working_of_work hw] at he

end Headers

/-! ## The alignment of an Uncompressed header -/

/-- Where the input does not hold the word that an Uncompressed header skips, it is InputExhausted (44_block.md
R330). -/
theorem uncompAlign_of_lt {g : Config} {pos : Nat} (hskip : g.params.uncompPad16IfAligned = true ∧ pos % 16 = 0)
    (hlt : g.avail < pos + 16) : uncompAlign g pos = .error .inputExhausted := by
  simp only [uncompAlign, if_pos hskip, if_pos hlt]
  rfl

/-- Elsewhere an Uncompressed header skips a whole word or goes to the next word boundary, and then to a 32-bit boundary
where the session says so (44_block.md R330). -/
theorem uncompAlign_eq {g : Config} {pos : Nat}
    (h : ¬ (g.params.uncompPad16IfAligned = true ∧ pos % 16 = 0) ∨ pos + 16 ≤ g.avail) :
    uncompAlign g pos =
      let word := if g.params.uncompPad16IfAligned = true ∧ pos % 16 = 0 then pos + 16 else roundup pos 16
      .ok (if g.params.uncompAlign32 = true then roundup word 32 else word) := by
  by_cases hskip : g.params.uncompPad16IfAligned = true ∧ pos % 16 = 0
  · have hle : ¬ g.avail < pos + 16 := Nat.not_lt_of_le (h.resolve_left (not_not_intro hskip))
    simp only [uncompAlign, if_pos hskip, if_neg hle]
    rfl
  · simp only [uncompAlign, if_neg hskip]
    rfl

end Sys2Proof.Machine

namespace Sys2Proof

open Machine

/-- Settles O22: neither form ends in TERMINAL, so its Step writes the registers only. -/
theorem preambleSetsTheTranslationRegisters : Obligations.PreambleSetsTheTranslationRegisters := by
  intro s c hw
  have ended {c' : Regs} (h : c'.state = .await) :
      Host.Outcome.next (ρ := Refusal) (φ := Fault) (s.commit c') = .next { s with regs := c', work := none } :=
    congrArg Host.Outcome.next (commit_of_ne_terminal (by rw [h]; exact nofun))
  refine ⟨?flag0, fun size => ?flag1⟩
  case flag0 =>
    simp only [exec, execPreamble0, hw]
    exact ended rfl
  case flag1 =>
    simp only [exec, execPreamble1, hw]
    exact ended rfl

/-- Settles O23: each header writes its block and goes on to its first tree. -/
theorem compressedHeadersGoOn : Obligations.CompressedHeadersGoOn := by
  intro s c n hw hn
  have hverbatim := exec_blockVerbatim (s := s) (c := c) hn
  have haligned := exec_blockAligned (s := s) (c := c) hn
  rw [working_of_work hw] at hverbatim haligned
  exact ⟨hverbatim, haligned⟩

/-- Settles O24: the header writes its block, and the alignment answers a cursor or its fault. -/
theorem uncompressedHeaderAligns : Obligations.UncompressedHeaderAligns := by
  intro s c n hw hn skip word aligned
  refine ⟨fun h => ?goesOn, fun hskip hlt => ?faults⟩
  case goesOn =>
    rw [exec_blockUncomp_eq hw hn, uncompAlign_eq h]
    rfl
  case faults =>
    rw [exec_blockUncomp_eq hw hn, uncompAlign_of_lt hskip hlt]
    rfl

/-- Settles O25: by the fault of each header, under the code the implementation reports for it. -/
theorem illegalHeadersFault : Obligations.IllegalHeadersFault := by
  intro s c hw faulted
  exact ⟨invalidType_faults hw, fun _ => invalidType_faults hw, emptyBlock_faults hw 1, emptyBlock_faults hw 2,
    emptyBlock_faults hw 3⟩

end Sys2Proof
end

section
/-! PROOFS. The host's commands at their beginning, and the return of a full chunk (45_chunk_driver.md R341, R345,
R348). -/

namespace Sys2Proof.Machine

/-! ## NEXT_CHUNK before its first pass -/

section NextChunk
variable {s : State} (hrun : s.running = false)
include hrun

/-- A fault is sticky: NEXT_CHUNK hands back its Error (45_chunk_driver.md R345). -/
theorem execNextChunk_of_fault {k : FaultKind} (hf : s.regs.fault = some k) :
    execNextChunk s = .next (s.answer (.error k)) := by
  simp only [execNextChunk, hrun, hf, Bool.false_eq_true, if_false]

/-- In TERMINAL NEXT_CHUNK hands back None (45_chunk_driver.md R345). -/
theorem execNextChunk_of_terminal (hf : s.regs.fault = none) (hs : s.regs.state = .terminal) :
    execNextChunk s = .next (s.answer .none) := by
  simp only [execNextChunk, hrun, hf, hs, Bool.false_eq_true, if_false, if_true]

/-- Elsewhere NEXT_CHUNK clears the chunk registers, and the chunk loop begins (45_chunk_driver.md R345). -/
theorem execNextChunk_begins (hf : s.regs.fault = none) (hs : s.regs.state ≠ .terminal) :
    execNextChunk s = .next { s with regs := { s.regs with chunkFill := 0, chunkBuf := [] }, running := true } := by
  simp only [execNextChunk, hrun, hf, if_neg hs, Bool.false_eq_true, if_false]

/-- A result handed back between commands changes nothing else. -/
theorem answer_of_idle (r : Result) : s.answer r = { s with results := s.results ++ [r] } := by
  rw [State.answer, ← hrun]

end NextChunk

/-! ## The return of a full chunk -/

/-- ChunkRealign writes the cursor only (45_chunk_driver.md R348). -/
theorem chunkRealign_eq (g : Config) (c : Regs) : chunkRealign g c = { c with
    bitpos :=
      if g.params.chunkRealign = true ∧ (c.state = .await ∨ c.state = .verbatim ∨ c.state = .aligned) then
        clampWord g c.bitpos
      else c.bitpos } := by
  unfold chunkRealign; split <;> rfl

/-! ## The steps of a command taken together -/

/-- Where no NEXT_CHUNK is in progress the command is over. -/
theorem runCommand_of_idle {s : State} (hrun : s.running = false) (n : Nat) : runCommand n s = .next s := by
  cases n with
  | zero => rfl
  | succ n => simp only [runCommand, hrun, Bool.false_eq_true, if_false]

/-- A NEXT_CHUNK in progress goes on from its next step. -/
theorem runCommand_of_step {s t : State} (hrun : s.running = true) (e : step s = .next t) (n : Nat) :
    runCommand (n + 1) s = runCommand n t := by
  simp only [runCommand, hrun, e, if_true]

/-- NEXT_CHUNK as one transaction takes the steps that follow its beginning. -/
theorem nextChunkCall_of_exec {s t : State} (e : execNextChunk s = .next t) :
    nextChunkCall s = runCommand (commandFuel s.cfg) t := by
  have e : exec .nextChunk s = .next t := e
  rw [nextChunkCall, e]

/-! ## The configurations that NEW accepts -/

/-- The values that NEW accepts (45_chunk_driver.md R341). -/
theorem config_valid_iff {g : Config} : g.valid = true ↔
    g.windowCode ≤ 6 ∧ g.params.chunkSize ≠ 0 ∧ (g.params.pt17Bits = 3 ∨ g.params.pt17Bits = 4)
      ∧ g.params.rep2Policy ≠ .other ∧ (g.params.mainTreeParts = 1 ∨ g.params.mainTreeParts = 2)
      ∧ g.params.numLengthSymbols ≠ 0 ∧ 1 ≤ g.params.alignedLenBits ∧ g.params.alignedLenBits ≤ 4 := by
  simp only [Config.valid, Params.valid, Bool.and_eq_true, Bool.or_eq_true, decide_eq_true_eq, bne_iff_ne,
    beq_iff_eq, and_assoc]

/-- A REP2_POLICY that is neither setting is the one value beside them. -/
theorem rep2Policy_eq_other {p : Rep2Policy} : p = .other ↔ p ≠ .rotate ∧ p ≠ .swap := by
  cases p <;> simp

/-- The machine that NEW leaves, with FAULT as given (45_chunk_driver.md R341). -/
def State.fresh (s : State) (g : Config) (fault : Option FaultKind) : State :=
  { s with cfg := g, regs := { freshRegs g with fault := fault }, work := none, running := false, results := [] }

/-- A configuration that NEW accepts has no fault. -/
theorem execNew_of_valid {code : Nat} {input : List Byte} {params : Params} (s : State)
    (hv : (⟨code, input, params⟩ : Config).valid = true) :
    execNew code input params s = .next (s.fresh ⟨code, input, params⟩ none) := by
  rw [execNew, State.fresh, if_pos hv]

/-- A configuration that NEW refuses has the fault InvalidConfig. -/
theorem execNew_of_not_valid {code : Nat} {input : List Byte} {params : Params} (s : State)
    (hv : ¬ (⟨code, input, params⟩ : Config).valid = true) :
    execNew code input params s = .next (s.fresh ⟨code, input, params⟩ (some .invalidConfig)) := by
  rw [execNew, State.fresh, if_neg hv]

/-- Without input the first NEXT_CHUNK of a session hands back None (44_block.md R291). -/
theorem nextChunkCall_of_no_input (s : State) {g : Config} (hv : g.valid = true) (ha : g.avail = 0) :
    nextChunkCall (s.fresh g none) = .next { s.fresh g none with
      regs := { freshRegs g with state := .terminal }, results := [.none] } := by
  obtain ⟨-, hsize, -⟩ := config_valid_iff.1 hv
  rw [nextChunkCall_of_exec (execNextChunk_begins rfl rfl (nofun : BlockState.preamble ≠ .terminal)), commandFuel,
    runCommand_of_step rfl (step_of_begin_silent rfl rfl rfl hsize.symm (beginStep_of_no_input rfl ha)),
    commit_enter_terminal, runCommand_of_idle rfl]
  rfl

end Sys2Proof.Machine

namespace Sys2Proof

open Machine

/-- Settles O3: one case for each of what NEXT_CHUNK finds. -/
theorem nextChunkBegins : Obligations.NextChunkBegins := by
  intro s hrun
  refine ⟨fun k hf => ?sticky, fun hf hs => ?terminal, fun hf hs => execNextChunk_begins hrun hf hs⟩
  case sticky => exact (execNextChunk_of_fault hrun hf).trans (congrArg _ (answer_of_idle hrun _))
  case terminal => exact (execNextChunk_of_terminal hrun hf hs).trans (congrArg _ (answer_of_idle hrun _))

/-- Settles O4: the size test returns the chunk, and ChunkRealign writes the cursor only. -/
theorem fullChunkIsReturned : Obligations.FullChunkIsReturned := by
  intro s hrun hw hf hc
  rw [step_of_full hrun hw hf hc, State.returnChunk, chunkRealign_eq]
  rfl

/-- Settles O2: NEW's fault is by whether it accepts the values, and without input the first Step finds no word to
read. -/
theorem newChecksItsConfiguration : Obligations.NewChecksItsConfiguration := by
  intro code input params s g bad
  have hvalid : g.valid = true ↔ ¬ bad := by
    simp only [config_valid_iff, bad, g, rep2Policy_eq_other, ne_eq, not_or, Decidable.not_and_iff_not_or_not,
      Decidable.not_not, Nat.not_lt]
  refine ⟨rfl, rfl, rfl, rfl, fun hbad => ?refused, fun hgood => ?accepted⟩
  case refused =>
    refine ⟨_, execNew_of_not_valid s fun hv => hvalid.1 hv hbad, rfl, rfl, rfl, fun u hregs hrun => ?_⟩
    have hf : u.regs.fault = some .invalidConfig := by rw [hregs]; rfl
    exact (execNextChunk_of_fault hrun hf).trans (congrArg _ (answer_of_idle hrun _))
  case accepted =>
    have hv := hvalid.2 hgood
    refine ⟨_, execNew_of_valid s hv, rfl, rfl, rfl, fun hin => ?_⟩
    exact nextChunkCall_of_no_input s hv (by simp only [Config.avail, Config.len, hin]; rfl)

end Sys2Proof
end

section
/-! PROOFS. What a step inside a NEXT_CHUNK hands back (45_chunk_driver.md R345, R346). -/

namespace Sys2Proof.Machine

/-- Inside a Step STATE is that of the Step's beginning. -/
theorem phaseInv_state {g : Config} {base c : Regs} {ph : Phase} (h : phaseInv g base c ph) :
    c.state = base.state := by
  have moved {p : Nat} (e : c = base.at p) : c.state = base.state := by rw [e, at_state]
  have header (hw : HeaderWork g base c) : c.state = base.state := by rw [hw.same]
  cases ph with
  | preamble | header | raw => exact moved h.2.1
  | altree | uncompR => exact header h.1
  | pretree => exact header h.header
  | ptOp => exact header h.1.header
  | mainSym | lenSym => exact moved h.same
  | footerV | footerA | alignedLo | extLen => exact moved h.1.same
  | oddPad =>
    obtain ⟨-, -, -, -, -, hsame⟩ := h
    rw [hsame]

/-- From s to t the NEXT_CHUNK goes on, and hands back nothing. -/
def GoesOn (s t : State) : Prop := t.running = true ∧ t.results = s.results

/-- A Step that does not end in TERMINAL hands back nothing. -/
theorem commit_goesOn {s : State} {c : Regs} (hrun : s.running = true) (h : c.state ≠ .terminal) :
    GoesOn s (s.commit c) := by
  rw [commit_of_ne_terminal h]
  exact ⟨hrun, rfl⟩

/-- An element takes its fault or hands back nothing: no element's Step ends in TERMINAL. -/
theorem elementEnds_goesOn {s t : State} {c : Regs} {ph : Phase} (he : ElementEnds s c ph t) (hrun : s.running = true)
    (hs : c.state ≠ .terminal) : (∃ k, t = s.takeFault k) ∨ GoesOn s t := by
  cases he with
  | fault k => exact .inl ⟨k, rfl⟩
  | headerGoes | itemGoes | rawPads => exact .inr ⟨hrun, rfl⟩
  | blockBegins c' =>
    refine .inr (commit_goesOn hrun ?_)
    obtain h | h := enterBlock_in_block c' <;> rw [h] <;> exact nofun
  | itemEnds a b d bytes =>
    refine .inr (commit_goesOn hrun ?_)
    rw [endOfItem_state, foldl_emitByte_state, setCache_state]
    split
    · exact nofun
    · exact hs
  | rawGoes => exact .inr (commit_goesOn hrun hs)
  | preamble | uncompBegins | rawEnds | padEnds => exact .inr (commit_goesOn hrun nofun)

end Sys2Proof.Machine

namespace Sys2Proof

open Machine

/-- Settles O5: by what the step does. A failed read and a fault hand back the Error, the size test a full chunk, and the
transition to TERMINAL the bytes pending or None; any other step goes on. -/
theorem resultsOfNextChunk : Obligations.ResultsOfNextChunk := by
  intro s t hi hrun e
  obtain ⟨hfault, hstate⟩ := hi.live hrun
  have hfilled := hi.regs.ok.filled
  cases step_cases hrun e with
  | readFault c ph k => exact .inr ⟨rfl, .inr (.inr ⟨_, rfl, rfl⟩)⟩
  | element c ph i p _ hr _ he =>
    have hc : (c.at p).state ≠ .terminal := by rwa [at_state, phaseInv_state (hi.reads hrun hr).2]
    obtain ⟨k, rfl⟩ | hgo := elementEnds_goesOn he hrun hc
    · exact .inr ⟨rfl, .inr (.inr ⟨_, rfl, rfl⟩)⟩
    · exact .inl hgo
  | full _ _ hc =>
    obtain ⟨-, hsize, -⟩ := config_valid_iff.1 (hi.valid hfault)
    have hlen : s.regs.chunkBuf.length = s.cfg.params.chunkSize := hfilled.symm.trans hc
    rw [returnChunk_results, returnChunk_regs, chunkRealign_chunkBuf, chunkRealign_fault]
    exact .inr ⟨rfl, .inl ⟨rfl, by omega, Nat.le_of_eq hlen, hfault, .inl hlen⟩⟩
  | silent c _ _ _ hb =>
    obtain ⟨x, rfl⟩ := beginStep_silent hb
    by_cases hx : x = .terminal
    · subst hx
      have hroom := hi.regs.ok.room
      rw [commit_enter_terminal]
      refine .inr ⟨rfl, ?_⟩
      by_cases hfill : 0 < s.regs.chunkFill
      · rw [if_pos hfill]
        exact .inl ⟨rfl, hfilled ▸ hfill, hfilled ▸ hroom, hfault, .inr rfl⟩
      · rw [if_neg hfill]
        exact .inr (.inl ⟨rfl, rfl, hfault, List.eq_nil_of_length_eq_zero (hfilled.symm.trans (by omega))⟩)
    · exact .inl (commit_goesOn hrun hx)

end Sys2Proof
end

section
/-! PROOFS. Every NEXT_CHUNK ends (45_chunk_driver.md R344): an element reads a bit, but for a footer of no bits, which an
element that reads one precedes; so what is left of the input bounds the steps that are left. -/

namespace Sys2Proof.Machine

/-! ## What is left of a NEXT_CHUNK -/

/-- The phases whose element may have no bits (44_block.md R314, R315). -/
def Phase.isFooter : Phase → Bool
  | .footerV _ _ => true
  | .footerA _ _ => true
  | _ => false

/-- The bit cursor of the Step in progress, or at a Step boundary the committed one. -/
def State.cursor (s : State) : Nat :=
  match s.work with
  | some w => w.regs.bitpos
  | none => s.regs.bitpos

/-- The next step may read nothing and yet not end the NEXT_CHUNK: a footer comes next, or the beginning of the stream
(44_block.md R290). -/
def State.mayReadNothing (s : State) : Bool :=
  match s.work with
  | some w => w.phase.isFooter
  | none => decide (s.regs.state = .preamble)

/-- A bound on the steps left: two for each bit after the cursor, one that ends the NEXT_CHUNK, and one where the next may
read nothing. -/
def State.stepsLeft (s : State) : Nat :=
  2 * (8 * s.cfg.len - s.cursor) + 1 + s.mayReadNothing.toNat

/-- The bound of the model on the steps of one NEXT_CHUNK is above the bound on the steps left. -/
theorem stepsLeft_le_commandFuel (s : State) : s.stepsLeft ≤ commandFuel s.cfg := by
  have := Bool.toNat_le s.mayReadNothing
  unfold State.stepsLeft commandFuel
  omega

@[simp] theorem cursor_working (s : State) (c : Regs) (ph : Phase) : (s.working c ph).cursor = c.bitpos := rfl

@[simp] theorem cursor_commit (s : State) (c : Regs) : (s.commit c).cursor = c.bitpos := by
  rw [State.cursor, commit_work, commit_regs]

/-- What the cursor of a Step's last registers has reached, the committed cursor has. -/
theorem le_cursor_commit {s : State} {c : Regs} {p : Nat} (h : p ≤ c.bitpos) : p ≤ (s.commit c).cursor :=
  Nat.le_trans h (Nat.le_of_eq (cursor_commit s c).symm)

/-- A running machine reads at its cursor. -/
theorem cursor_of_reads {s : State} {c : Regs} {ph : Phase} (hr : Reads s c ph) : s.cursor = c.bitpos := by
  obtain hw | ⟨hw, rfl, -⟩ := hr <;> rw [State.cursor, hw]

/-- The next step reads a bit or ends the NEXT_CHUNK where neither a footer nor the beginning of the stream comes next. -/
theorem mayReadNothing_eq_false {s : State} (hw : ∀ w, s.work = some w → w.phase.isFooter = false)
    (hs : s.regs.state ≠ .preamble) : s.mayReadNothing = false := by
  unfold State.mayReadNothing
  split
  · next w h => exact hw w h
  · exact decide_eq_false hs

/-! ## What a step does to it -/

/-- An element that does not fault leaves the cursor past its bits, or further. -/
theorem elementEnds_cursor {s t : State} {c : Regs} {ph : Phase} (he : ElementEnds s c ph t) (ht : t.running = true)
    (hin : ph = .raw ∨ ph = .oddPad → c.bitpos ≤ 8 * s.cfg.len) : c.bitpos ≤ t.cursor := by
  cases he with
  | fault => cases ht
  | headerGoes c' ph' _ _ _ hp => exact hp
  | itemGoes | rawPads => exact Nat.le_refl _
  | preamble | uncompBegins | rawGoes => exact le_cursor_commit (Nat.le_refl c.bitpos)
  | blockBegins c' _ _ hp => exact le_cursor_commit (Nat.le_of_eq hp)
  | itemEnds =>
    refine le_cursor_commit (Nat.le_of_eq ?_)
    rw [endOfItem_bitpos, foldl_emitByte_bitpos, setCache_bitpos]
  | rawEnds b hraw => exact le_cursor_commit (endUncomp_bitpos_le (c := emitByte s.cfg c b) (hin (.inl hraw)))
  | padEnds hpad => exact le_cursor_commit (endUncomp_bitpos_le (hin (.inr hpad)))

/-- An element that decodes has a bit of the input, but for a footer of no bits (45_chunk_driver.md R344). -/
theorem decode_advances {g : Config} (hv : g.valid = true) {c : Regs} {ph : Phase} {i : Instr} {pos p : Nat}
    (d : DecodesTo g pos i p (formatOf c ph)) :
    (pos < p ∧ p ≤ 8 * g.len) ∨ (p = pos ∧ ph.isFooter = true) := by
  have hlen := avail_le_len g
  cases ph with
  | footerV slot n =>
    obtain ⟨-, rfl, h⟩ := d
    by_cases hz : footerBits slot = 0
    · exact .inr ⟨by rw [hz, Nat.add_zero], rfl⟩
    · exact .inl (by omega)
  | footerA slot n =>
    obtain ⟨-, rfl, h⟩ := d
    by_cases hz : literalFooterBits (footerBits slot) = 0
    · exact .inr ⟨by rw [hz, Nat.add_zero], rfl⟩
    · exact .inl (by omega)
  | altree =>
    obtain ⟨-, -, -, -, -, -, hbits, -⟩ := config_valid_iff.1 hv
    obtain ⟨-, -, hlt, hle⟩ := d
    exact .inl ⟨hlt hbits, Nat.le_trans hle hlen⟩
  | _ =>
    simp only [formatOf, DecodesTo] at d
    exact .inl (by omega)

/-- The end of a match leaves no Step in progress. -/
theorem finishMatch_work {s t : State} {c : Regs} {slot n f : Nat} (e : finishMatch s c slot n f = .next t) :
    t.work = none := by
  unfold finishMatch at e
  split at e <;> cases e
  · exact commit_work ..
  · rfl

/-- After a footer no footer comes. -/
theorem afterFooter_not_footer {s t : State} {c : Regs} {slot n f : Nat} (e : afterFooter s c slot n f = .next t) :
    ∀ w, t.work = some w → w.phase.isFooter = false := by
  unfold afterFooter at e
  split at e
  · cases e
    rintro _ ⟨⟩
    rfl
  · intro w hw
    rw [finishMatch_work e] at hw
    cases hw

/-- A footer is followed by an aligned symbol, an extended length or the end of the match (44_block.md R310). -/
theorem footer_then_no_footer {s t : State} {c : Regs} {ph : Phase} {i : Instr} {pos p : Nat} (hph : ph.isFooter = true)
    (d : DecodesTo s.cfg pos i p (formatOf c ph)) {c1 : Regs} (e : exec i (s.working c1 ph) = .next t) :
    ∀ w, t.work = some w → w.phase.isFooter = false := by
  cases ph with
  | footerV slot n =>
    obtain ⟨⟨f, rfl⟩, -⟩ := d
    rw [exec_footerVerbatim rfl] at e
    exact afterFooter_not_footer e
  | footerA slot n =>
    obtain ⟨⟨f, rfl⟩, -⟩ := d
    by_cases hfb : 3 ≤ footerBits slot
    · rw [exec_footerHi_of_le rfl hfb] at e
      cases e
      rintro _ ⟨⟩
      rfl
    · rw [exec_footerHi_of_lt rfl (Nat.lt_of_not_le hfb)] at e
      exact afterFooter_not_footer e
  | _ => cases hph

/-- No Step begins with a footer (45_chunk_driver.md R343). -/
theorem mayReadNothing_of_reads {s : State} {c : Regs} {ph : Phase} (hr : Reads s c ph) (hph : ph.isFooter = true) :
    s.mayReadNothing = true := by
  obtain hw | ⟨-, -, -, -, hb⟩ := hr
  · rwa [State.mayReadNothing, hw]
  · unfold beginStep at hb
    repeat' split at hb
    all_goals cases hb
    all_goals cases hph

/-- A footer stands in a compressed block (44_block.md R310). -/
theorem state_of_footer {g : Config} {base c : Regs} {ph : Phase} (h : phaseInv g base c ph)
    (hph : ph.isFooter = true) : base.state = .verbatim ∨ base.state = .aligned := by
  cases ph with
  | footerV | footerA => exact h.1.block
  | _ => cases hph

/-- No transition leads to PREAMBLE (44_block.md R280). -/
theorem Transition.ne_preamble {g : Config} {c c' : Regs} (h : Transition g c c') (hc : c.state ≠ .preamble) :
    c'.state ≠ .preamble := by
  cases h with
  | stays h => rwa [h]
  | noInput _ _ h' | preambleEnds _ _ h' | streamEnds _ _ h' | blockEnds _ _ h' => rw [h']; exact nofun
  | blockBegins x _ _ ht h' =>
    obtain ⟨-, rfl⟩ | ⟨-, rfl⟩ | ⟨-, rfl⟩ := ht <;> rw [h'] <;> exact nofun

/-- A transition that reads nothing and does not end the stream leaves PREAMBLE for AWAIT (44_block.md R290). -/
theorem beginStep_silent_of_ne_terminal {g : Config} {c c' : Regs} (hb : beginStep g c = .silent c')
    (h : c'.state ≠ .terminal) : c.state = .preamble ∧ c' = c.enter .await := by
  unfold beginStep at hb
  split at hb
  case h_1 hs =>
    repeat' split at hb
    all_goals cases hb
    · exact absurd rfl h
    · exact ⟨hs, rfl⟩
  case h_2 =>
    split at hb <;> cases hb
    exact absurd rfl h
  all_goals cases hb

/-- A step that does not end the NEXT_CHUNK leaves fewer steps (45_chunk_driver.md R344). -/
theorem running_step_stepsLeft {s t : State} (hi : s.Inv) (hrun : s.running = true) (e : step s = .next t)
    (ht : t.running = true) : t.stepsLeft < s.stepsLeft := by
  have hcfg := (running_step_sameSession hrun e).1
  unfold State.stepsLeft
  cases step_cases hrun e with
  | readFault | full => cases ht
  | element c ph i p _ hr hd he =>
    obtain ⟨hL, hph⟩ := hi.reads hrun hr
    have hcursor : p ≤ t.cursor := elementEnds_cursor he ht (decode_raw_le hd)
    rw [hcfg, cursor_of_reads hr]
    obtain ⟨hlt, hle⟩ | ⟨rfl, hfooter⟩ := decode_advances hL.valid (decode_ok hd)
    · have := Bool.toNat_le t.mayReadNothing
      omega
    · have hs : s.regs.state ≠ .preamble := by
        obtain h | h := state_of_footer hph hfooter <;> rw [h] <;> exact nofun
      have htrans := (running_step_transition hi hrun e).ne_preamble hs
      rw [step_of_reads hrun hr hd] at e
      rw [mayReadNothing_of_reads hr hfooter,
        mayReadNothing_eq_false (footer_then_no_footer hfooter (decode_ok hd) e) htrans, Bool.toNat_true,
        Bool.toNat_false]
      omega
  | silent c hw _ _ hb =>
    have hc : c.state ≠ .terminal := by
      intro h
      rw [commit_running, if_pos h] at ht
      cases ht
    obtain ⟨hs, rfl⟩ := beginStep_silent_of_ne_terminal hb hc
    have hnow : s.mayReadNothing = true := by rw [State.mayReadNothing, hw, hs]; rfl
    have hnext : (s.commit (s.regs.enter .await)).mayReadNothing = false :=
      mayReadNothing_eq_false (fun _ h => by simp at h) (by simp)
    have hcursor : s.cursor = s.regs.bitpos := by rw [State.cursor, hw]
    rw [hcfg, cursor_commit, hcursor, hnow, hnext, enter_bitpos]
    exact Nat.lt_succ_self _

/-! ## The command -/

/-- A step that ends the NEXT_CHUNK hands back one result, and one that does not hands back none. -/
theorem running_step_hands_back {s t : State} (hi : s.Inv) (hrun : s.running = true) (e : step s = .next t) :
    GoesOn s t ∨ (t.running = false ∧ ∃ r, t.results = s.results ++ [r]) := by
  obtain hgo | ⟨hidle, ⟨h, -⟩ | ⟨h, -⟩ | ⟨k, h, -⟩⟩ := resultsOfNextChunk s t hi hrun e
  · exact .inl hgo
  all_goals exact .inr ⟨hidle, _, h⟩

/-- A NEXT_CHUNK in progress is over within the steps left, with one result. -/
theorem runCommand_ends {n : Nat} {s : State} (hi : s.Inv) (hrun : s.running = true) (hn : s.stepsLeft ≤ n) :
    ∃ t r, runCommand n s = .next t ∧ t.running = false ∧ t.work = none ∧ t.results = s.results ++ [r] := by
  induction n generalizing s with
  | zero => unfold State.stepsLeft at hn; omega
  | succ n ih =>
    obtain ⟨u, e⟩ := running_step_next hi hrun
    have hu := step_inv hi e
    rw [runCommand_of_step hrun e]
    obtain ⟨hgo, hres⟩ | ⟨hidle, r, hres⟩ := running_step_hands_back hi hrun e
    · rw [← hres]
      exact ih hu hgo (Nat.le_of_lt_succ (Nat.lt_of_lt_of_le (running_step_stepsLeft hi hrun e hgo) hn))
    · exact ⟨u, r, runCommand_of_idle hidle n, hidle, hu.idle hidle, hres⟩

end Sys2Proof.Machine

namespace Sys2Proof

open Machine

/-- Settles O49: NEXT_CHUNK hands back its result at once, or begins the chunk loop, which ends within the steps left. -/
theorem everyNextChunkEnds : Obligations.EveryNextChunkEnds := by
  intro s hi hrun
  have atOnce {r : Result} (e : execNextChunk s = .next (s.answer r)) :
      ∃ t r, nextChunkCall s = .next t ∧ t.running = false ∧ t.work = none ∧ t.results = s.results ++ [r] :=
    ⟨s.answer r, r, (nextChunkCall_of_exec e).trans (runCommand_of_idle rfl _), rfl, hi.idle hrun, rfl⟩
  cases hf : s.regs.fault with
  | some k => exact atOnce (execNextChunk_of_fault hrun hf)
  | none =>
    by_cases hs : s.regs.state = .terminal
    · exact atOnce (execNextChunk_of_terminal hrun hf hs)
    · have e := execNextChunk_begins hrun hf hs
      rw [nextChunkCall_of_exec e]
      exact runCommand_ends (execNextChunk_inv hi e) rfl (stepsLeft_le_commandFuel _)

end Sys2Proof
end

section
/-! PROOFS. Faults: the fault entry of a failed read, what a step that faults leaves, and that a fault is final
(60_exceptions.md R372, R373). -/

namespace Sys2Proof.Machine

/-- With FAULT set no NEXT_CHUNK is in progress (60_exceptions.md R373). -/
theorem State.Inv.idle_of_fault {s : State} {k : FaultKind} (h : s.Inv) (hf : s.regs.fault = some k) :
    s.running = false := by
  cases hrun : s.running with
  | false => rfl
  | true =>
    obtain ⟨hnone, -⟩ := h.live hrun
    rw [hnone] at hf
    cases hf

/-- Where no Step is in progress every element is refused: only the host's commands have a meaning there. -/
theorem exec_of_no_work {s : State} (hw : s.work = none) (i : Instr) :
    exec i s = .refused .notExpected ∨ (∃ code input params, i = .new code input params) ∨ i = .nextChunk := by
  have hs : s = { s with work := none } := by rw [← hw]
  cases i with
  | new code input params => exact .inr (.inl ⟨code, input, params, rfl⟩)
  | nextChunk => exact .inr (.inr rfl)
  | _ => rw [hs]; exact .inl rfl

/-- A step inside a NEXT_CHUNK that leaves FAULT set is a fault entry: one that goes on has no fault by the invariant, and
the return of a full chunk and a transition that reads nothing keep FAULT. -/
theorem running_step_takeFault {s t : State} (hi : s.Inv) (hrun : s.running = true) (e : step s = .next t)
    (hfault : t.regs.fault ≠ none) : ∃ k, t = s.takeFault k := by
  obtain ⟨-, hstate⟩ := hi.live hrun
  cases step_cases hrun e with
  | readFault c ph k => exact ⟨k, rfl⟩
  | element c ph i p _ hr _ he =>
    have hc : (c.at p).state ≠ .terminal := by rwa [at_state, phaseInv_state (hi.reads hrun hr).2]
    obtain ⟨k, rfl⟩ | ⟨hgo, -⟩ := elementEnds_goesOn he hrun hc
    · exact ⟨k, rfl⟩
    · exact absurd ((step_inv hi e).live hgo).1 hfault
  | full _ hf =>
    rw [returnChunk_regs, chunkRealign_fault] at hfault
    exact absurd hf hfault
  | silent c _ hf _ hb =>
    obtain ⟨x, rfl⟩ := beginStep_silent hb
    rw [commit_regs, enter_fault] at hfault
    exact absurd hf hfault

end Sys2Proof.Machine

namespace Sys2Proof

open Machine

/-- Settles O9: the element that cannot be read stands in one of the two places that `Reads` names. -/
theorem failedReadTakesItsFault : Obligations.FailedReadTakesItsFault := by
  intro s k hrun faulted
  refine ⟨fun c ph hw hd => ?inStep, fun ph hw hf hc hb hd => ?atBoundary⟩
  case inStep => exact step_of_reads_fault hrun (.inl hw) hd
  case atBoundary => exact step_of_reads_fault hrun (.inr ⟨hw, rfl, hf, hc, hb⟩) hd

/-- Settles O50: the step is a fault entry, which writes FAULT, ends the Step and hands back the Error it set. -/
theorem faultCommitsNothing : Obligations.FaultCommitsNothing := by
  intro s t hi hrun e hfault
  obtain ⟨k, rfl⟩ := running_step_takeFault hi hrun e hfault
  exact ⟨reportedAs s.impl k, rfl⟩

/-- Settles O7: with a fault no Step is in progress, so every element is refused, and NEXT_CHUNK hands back the Error. -/
theorem faultsAreSticky : Obligations.FaultsAreSticky := by
  intro s k hi hf
  have hrun := hi.idle_of_fault hf
  have hnext : exec .nextChunk s = .next { s with results := s.results ++ [.error k] } :=
    (execNextChunk_of_fault hrun hf).trans (congrArg _ (answer_of_idle hrun _))
  refine ⟨hrun, hnext, fun i t e => ?frame, fun code input params hv => ⟨_, execNew_of_valid s hv, rfl⟩, ?notNormal⟩
  case frame =>
    obtain hrefused | hnew | rfl := exec_of_no_work (hi.idle hrun) i
    · rw [hrefused] at e
      cases e
    · exact .inr hnew
    · rw [hnext] at e
      cases e
      exact .inl rfl
  case notNormal =>
    rintro ⟨-, -, hnone, -⟩
    rw [hf] at hnone
    cases hnone

end Sys2Proof
end

section
/-! PROOFS. The ends of a run: the state that hands back None, or an Error, is left by no Step, and no other NEXT_CHUNK
ends a run (70_reset_and_hazards.md R440, R441). -/

namespace Sys2Proof.Machine

/-- In TERMINAL or with FAULT set no NEXT_CHUNK is in progress (70_reset_and_hazards.md R441). -/
theorem State.Inv.idle_of_quiescent {s : State} (h : s.Inv)
    (hq : s.regs.state = .terminal ∨ s.regs.fault ≠ none) : s.running = false := by
  cases hrun : s.running with
  | false => rfl
  | true =>
    obtain ⟨hfault, hstate⟩ := h.live hrun
    obtain hterminal | hfaulted := hq
    · exact absurd hterminal hstate
    · exact absurd hfault hfaulted

/-- The registers that a NEXT_CHUNK leaves with its result (45_chunk_driver.md R345, R346). -/
def FitsResult (c : Regs) : Result → Prop
  | .chunk _ => c.fault = none
  | .none => c.state = .terminal ∧ c.fault = none
  | .error k => c.fault = some k

/-- From s to t the NEXT_CHUNK ends with the result r, which t's registers fit. -/
structure EndsWith (s t : State) (r : Result) : Prop where
  idle : t.running = false
  results : t.results = s.results ++ [r]
  fits : FitsResult t.regs r

/-- A step inside a NEXT_CHUNK goes on, or ends it with a result that its registers fit. -/
theorem running_step_endsWith {s t : State} (hi : s.Inv) (hrun : s.running = true) (e : step s = .next t) :
    GoesOn s t ∨ ∃ r, EndsWith s t r := by
  obtain hgo | ⟨hidle, ⟨hres, -, -, hf, -⟩ | ⟨hres, hs, hf, -⟩ | ⟨k, hres, hf⟩⟩ := resultsOfNextChunk s t hi hrun e
  · exact .inl hgo
  · exact .inr ⟨.chunk _, hidle, hres, hf⟩
  · exact .inr ⟨.none, hidle, hres, hs, hf⟩
  · exact .inr ⟨.error k, hidle, hres, hf⟩

/-- The steps that bring a NEXT_CHUNK to its end leave registers that fit its result. -/
theorem runCommand_endsWith {n : Nat} {s t : State} (hi : s.Inv) (hrun : s.running = true)
    (e : runCommand n s = .next t) (hidle : t.running = false) : ∃ r, EndsWith s t r := by
  induction n generalizing s with
  | zero =>
    cases e
    rw [hrun] at hidle
    cases hidle
  | succ n ih =>
    obtain ⟨u, hstep⟩ := running_step_next hi hrun
    rw [runCommand_of_step hrun hstep] at e
    obtain ⟨hgo, hres⟩ | ⟨r, hends⟩ := running_step_endsWith hi hrun hstep
    · obtain ⟨r, hends⟩ := ih (step_inv hi hstep) hgo e
      exact ⟨r, hends.idle, hres ▸ hends.results, hends.fits⟩
    · rw [runCommand_of_idle hends.idle] at e
      cases e
      exact ⟨r, hends⟩

/-- A NEXT_CHUNK ends with a result that the registers it leaves fit. -/
theorem nextChunkCall_endsWith {s t : State} (hi : s.Inv) (hrun : s.running = false) (e : nextChunkCall s = .next t) :
    ∃ r, EndsWith s t r := by
  have atOnce {r : Result} (hr : FitsResult s.regs r) (hexec : execNextChunk s = .next (s.answer r)) :
      ∃ r, EndsWith s t r := by
    rw [nextChunkCall_of_exec hexec, runCommand_of_idle rfl] at e
    cases e
    exact ⟨r, rfl, rfl, hr⟩
  cases hf : s.regs.fault with
  | some k => exact atOnce (r := .error k) hf (execNextChunk_of_fault hrun hf)
  | none =>
    by_cases hs : s.regs.state = .terminal
    · exact atOnce (r := .none) ⟨hs, hf⟩ (execNextChunk_of_terminal hrun hf hs)
    · obtain ⟨u, -, hu, hidle, -⟩ := everyNextChunkEnds s hi hrun
      rw [e] at hu
      cases hu
      have hexec := execNextChunk_begins hrun hf hs
      rw [nextChunkCall_of_exec hexec] at e
      obtain ⟨r, hends⟩ := runCommand_endsWith (execNextChunk_inv hi hexec) rfl e hidle
      exact ⟨r, hends.idle, hends.results, hends.fits⟩

section EndsWith
variable {s t : State} {r : Result} (h : EndsWith s t r)
include h

/-- The result handed back is the one that was added. -/
theorem EndsWith.results_eq_iff (r' : Result) : t.results = s.results ++ [r'] ↔ r = r' := by
  rw [h.results, List.append_cancel_left_eq, List.singleton_inj]

/-- The result handed back is the last one. -/
theorem EndsWith.getLast?_results : t.results.getLast? = some r := by
  rw [h.results, List.getLast?_concat]

/-- The run has ended normally exactly when None was handed back (70_reset_and_hazards.md R440). -/
theorem EndsWith.endedNormally_iff : endedNormally t ↔ r = .none := by
  constructor
  · rintro ⟨-, -, -, hlast⟩
    exact Option.some.inj (h.getLast?_results.symm.trans hlast)
  · rintro rfl
    obtain ⟨hstate, hfault⟩ := h.fits
    exact ⟨h.idle, hstate, hfault, h.getLast?_results⟩

/-- The run has ended abnormally exactly when an Error was handed back (70_reset_and_hazards.md R440). -/
theorem EndsWith.endedAbnormally_iff : endedAbnormally t ↔ ∃ k, r = .error k := by
  constructor
  · rintro ⟨-, k, -, hlast⟩
    exact ⟨k, Option.some.inj (h.getLast?_results.symm.trans hlast)⟩
  · rintro ⟨k, rfl⟩
    exact ⟨h.idle, k, h.fits, h.getLast?_results⟩

end EndsWith

/-- A chunk handed back is appended to the output. -/
theorem output_of_results_chunk {s t : State} {bytes : List Byte} (h : t.results = s.results ++ [.chunk bytes]) :
    output t = output s ++ bytes := by
  simp [output, h]

end Sys2Proof.Machine

namespace Sys2Proof

open Machine

/-- Settles O6: by the invariant such a state is idle, and NEXT_CHUNK hands back its result at once. -/
theorem quiescentStateStays : Obligations.QuiescentStateStays := by
  intro s hi hq
  have hrun := hi.idle_of_quiescent hq
  refine ⟨hrun, ?_⟩
  cases hf : s.regs.fault with
  | some k => exact (execNextChunk_of_fault hrun hf).trans (congrArg _ (answer_of_idle hrun _))
  | none =>
    have hs : s.regs.state = .terminal := hq.resolve_right (not_not_intro hf)
    exact (execNextChunk_of_terminal hrun hf hs).trans (congrArg _ (answer_of_idle hrun _))

/-- Settles O60: a NEXT_CHUNK adds one result, which its registers fit, so the last result says which end the run has
come to; NEW leaves no result. -/
theorem runEndsByItsLastResult : Obligations.RunEndsByItsLastResult := by
  refine ⟨fun s t hi hrun e => ?nextChunk, fun s code input params => ⟨_, rfl, ?notNormal, ?notAbnormal, rfl⟩⟩
  case nextChunk =>
    obtain ⟨r, h⟩ := nextChunkCall_endsWith hi hrun e
    simp only [h.endedNormally_iff, h.endedAbnormally_iff, h.results_eq_iff, true_and]
    refine ⟨fun k hr => ?error, fun hr => ?none, fun bytes hr => ?chunk⟩
    case error => exact (hr ▸ h.fits : FitsResult t.regs (.error k))
    case none => exact (hr ▸ h.fits : FitsResult t.regs .none)
    case chunk => exact output_of_results_chunk (hr ▸ h.results)
  case notNormal =>
    rintro ⟨-, -, -, hlast⟩
    cases hlast
  case notAbnormal =>
    rintro ⟨-, k, -, hlast⟩
    cases hlast

end Sys2Proof
end
